-- ==== Sys2Proof/Word.lean ====
section
/-! DEFINITION. The word types of the block (00_scope.md R10): bytes, signed coefficients, 16-bit fields, and
arrays of a fixed number of entries. Nothing here computes an effect of an instruction. -/
namespace Sys2Proof

/-- `u8`: one byte (R10). -/
abbrev Byte := BitVec 8

/-- `i32`: a raw or quantised coefficient, or a predictor, in two's complement (R7 `COEF_W`, R218). -/
abbrev Coef := BitVec 32

/-- An array of exactly `n` entries: a list that carries its length. -/
structure Fixed (n : Nat) (α : Type) where
  toList : List α
  length_eq : toList.length = n
deriving DecidableEq, Repr

/-- The array whose entry `i` is `f i`. -/
def Fixed.ofFn {α : Type} (n : Nat) (f : Nat → α) : Fixed n α :=
  ⟨(List.range n).map f, by simp⟩

/-- Entry `i`, or `d` past the end. -/
def Fixed.getD {n : Nat} {α : Type} (v : Fixed n α) (i : Nat) (d : α) : α :=
  v.toList.getD i d

/-- `Block(T)`: 64 entries in natural order, index `8*row + col` (R10). -/
abbrev Block (α : Type) := Fixed 64 α

/-- `BITS[1..16]`: the number of codes of each length 1 to 16; entry `l` of the rule is index `l-1` here (R69, R106). -/
abbrev Counts := Fixed 16 Byte

end Sys2Proof
end

