-- ==== Sys2Proof/Config.lean ====
section
/-! DEFINITION. What an implementation fixes: the four open parameters of 00_scope.md R7 (`FDCT`, `DIV8_MODE`,
`COLOR_ARITH`, `STRICT_LEN`), and the free values, constants with no body, which stand for what the spec leaves open.
The fifth open parameter, the sink's answers, is an input and stands in State. -/
namespace Sys2Proof

/-- `DIV8_MODE` (R7, R142, R143). -/
inductive Div8Mode where
  | trunc
  | real
deriving DecidableEq, Repr

/-- `COLOR_ARITH` (R7, R126, R127). -/
inductive ColorArith where
  | exact
  | binary32
deriving DecidableEq, Repr

/-- Which forward transform is configured (R9, R132): `contract` is an unknown function of which only the contract
R133 to R136 may be used; `reference` is the instance `FDCT_REF` of R137. -/
inductive FdctChoice where
  | contract
  | reference
deriving DecidableEq, Repr

/-- The open parameters of one instance (R7). State carries them (log 8); no step changes them. -/
structure Params where
  div8Mode : Div8Mode
  colorArith : ColorArith
  strictLen : Bool
  fdct : FdctChoice
deriving DecidableEq, Repr

/-- The defaults of R7; `FDCT` has none and is left to the contract. -/
def Params.default : Params :=
  { div8Mode := .trunc, colorArith := .exact, strictLen := false, fdct := .contract }

/-- FREE VALUE (log 7): what the configured transform approximates the AC entries by, before the bound of R136 and
the constant blocks of R135 are imposed. R134: "a proof may not use closeness, only rules R135 and R136". -/
opaque Config.fdctAc : Block Byte → Nat → Int

/-- FREE VALUE (log 12): the byte a fetch at an offset answers when the image buffer is empty (`SRC_LEN = 0`).
R122 defines `fetch` only for `SRC_LEN >= 1`. First argument: the counter `freeCount` of State. -/
opaque Config.noImageByte : Nat → Nat → Byte

/-- FREE VALUE (log 13): the quotient of an entry by a table entry 0. R142 gives the table entries 1 to 255 only. -/
opaque Config.quotientByZero : Coef → Coef

/-- FREE VALUE (log 14): the symbol `HUFFVAL[k]` past the end of `HUFFVAL`, when the counts claim more symbols than
there are. R106 makes `sum(BITS) = len(HUFFVAL)` a precondition. -/
opaque Config.missingSymbol : Counts → List Byte → Nat → Byte

/-- FREE VALUE (log 15): the accumulator after new bits are merged where `nbits + length` passes its 32 bits, so that
the shift amount of R96 would be negative. Arguments: `acc`, `nbits`, the `length` low bits of `code`, `length`. -/
opaque Config.accOverflow : BitVec 32 → Nat → Nat → Nat → BitVec 32

end Sys2Proof
end

