-- ==== Sys2Proof/Syntax.lean ====
section
/-! DEFINITION. The operations of the block, one constructor per row of spec/opcode_table.json (30_encoding.md R86),
with the operands the table gives each, and the small name types the operands use. -/
namespace Sys2Proof

/-- A component: index 0 is Y, 1 is Cb, 2 is Cr (R14, R23). -/
inductive Comp where
  | y
  | cb
  | cr
deriving DecidableEq, Repr

/-- The number of components in use, 1 or 3 (R24). -/
inductive NComp where
  | one
  | three
deriving DecidableEq, Repr

/-- A table set, or the destination of a Huffman table: 0 luma, 1 chroma (R14, R105). -/
inductive TableSet where
  | luma
  | chroma
deriving DecidableEq, Repr

/-- The class of a Huffman table: 0 DC, 1 AC (R105). -/
inductive TableClass where
  | dc
  | ac
deriving DecidableEq, Repr

/-- The four Huffman tables (R22, R105). -/
inductive HuffTable where
  | dcLuma
  | acLuma
  | dcChroma
  | acChroma
deriving DecidableEq, Repr

/-- The operations. Rows CONFIGURE and ENCODE are host commands; the rows up to BUILD_SOS are internal operations;
SOI to EOI are the marker emissions; EOB and ZRL the two fixed AC symbols. -/
inductive Instr where
  /-- CONFIGURE (R160): the operand is register QUALITY. -/
  | configure
  /-- ENCODE (R163): the operands are registers and the image memory. -/
  | encode
  /-- SINK_BYTE(b) (R95). -/
  | sinkByte (b : Byte)
  /-- WRITE_BITS(code, length) (R96); the length comes from the type 0..16 (R97 (c)). -/
  | writeBits (code : BitVec 16) (length : Fin 17)
  /-- PAD_BYTE() (R99). -/
  | padByte
  /-- WRITE_SEGMENT(marker, data) (R100); `none` and an empty list differ. -/
  | writeSegment (marker : Byte) (data : Option (List Byte))
  /-- BUILD_HUFF_LUT(BITS, HUFFVAL) (R106). -/
  | buildHuffLut (bits : Counts) (vals : List Byte)
  /-- HUFFMAN_ENCODE(sym, t) (R108). -/
  | huffmanEncode (sym : Byte) (t : HuffTable)
  /-- MAG_CATEGORY(v) (R110); a DC difference needs 33 bits (R112). -/
  | magCategory (v : Int)
  /-- WRITE_BLOCK(block, prev_dc, td, ta) (R113). -/
  | writeBlock (block : Block Coef) (prevDc : Coef) (td ta : TableSet)
  /-- SAMPLE_BLOCK(x0, y0) (R123). -/
  | sampleBlock (x0 y0 : Nat)
  /-- COLOR_TRANSFORM(R, G, B) (R126, R127). -/
  | colorTransform (r g b : Byte)
  /-- FDCT(samp) (R132). -/
  | fdct (samp : Block Byte)
  /-- BUILD_QTABLE(std, quality) (R139). -/
  | buildQtable (std : Block Byte) (quality : Byte)
  /-- QUANTIZE(raw, table) (R142, R143). -/
  | quantize (raw : Block Coef) (table : Block Byte)
  /-- BUILD_APP0() (R147). -/
  | buildApp0
  /-- BUILD_SOF0(HEIGHT, WIDTH, ncomp, comp) (R148); `comp` is the constant of R23. -/
  | buildSof0 (height width : BitVec 16) (ncomp : NComp)
  /-- BUILD_DQT(tq, table) (R150). -/
  | buildDqt (tq : TableSet) (table : Block Byte)
  /-- BUILD_DHT(class, dest, BITS, HUFFVAL) (R152). -/
  | buildDht (cls : TableClass) (dest : TableSet) (bits : Counts) (vals : List Byte)
  /-- BUILD_SOS(ncomp, comp) (R154); `comp` is the constant of R23. -/
  | buildSos (ncomp : NComp)
  /-- SOI (R94, R101). -/
  | soi
  /-- APP0 (R94, R101). -/
  | app0
  /-- SOF0 (R94, R101): reads HEIGHT, WIDTH and MODE. -/
  | sof0
  /-- DQT(s) (R94, R101): reads `qt[s]`. -/
  | dqt (s : TableSet)
  /-- DHT(class, dest) (R94, R101): sends the constant specification of that table. -/
  | dht (cls : TableClass) (dest : TableSet)
  /-- SOS (R94, R101): reads MODE. -/
  | sos
  /-- EOI (R94, R101). -/
  | eoi
  /-- EOB(ta) (R94, R115). -/
  | eob (ta : TableSet)
  /-- ZRL(ta) (R94, R114). -/
  | zrl (ta : TableSet)
deriving DecidableEq, Repr

/-- Why a word is no instruction (30_encoding.md section 6; the operand bytes are the model's, log 1). -/
inductive DecodeError where
  /-- The word ends before its operands do. -/
  | truncated
  /-- The first byte is no command, no uop tag, no fixed symbol and no `FF`. -/
  | unknownTag (b : Byte)
  /-- `FF` is followed by a byte that is none of the seven marker codes (R65). -/
  | unknownMarker (b : Byte)
  /-- A selector byte names none of its choices. -/
  | badSelector (b : Byte)
  /-- WRITE_BITS with a length above 16 (R97 (c), treatment `refuse`). -/
  | lengthAbove16 (b : Byte)
  /-- WRITE_SEGMENT with more than 65533 data bytes (R100 (b), treatment `refuse`). -/
  | dataTooLong (n : Nat)
deriving DecidableEq, Repr

end Sys2Proof
end

