-- ==== Sys2Proof/WellFormed.lean ====
section
/-! DEFINITION. Which terms of Instr are operations of the block: the operand ranges the rules give and the types of
Instr do not already say. -/
namespace Sys2Proof

/-- A value of MAG_CATEGORY that the five bytes of the model's operand form can carry (log 1, log 26). The rules need 33
bits (R110, R112). -/
def magInRange (v : Int) : Bool := decide (-(2 ^ 39) ≤ v) && decide (v < 2 ^ 39)

/-- A block origin that the two bytes of the model's operand form can carry (log 1). An origin outside the operand range
of R123 is well-formed: DESIGN CHOICE (log 30). -/
def originOk (x : Nat) : Bool := decide (x < 65536)

/-- The data of a segment fits its length field (R64, R100). -/
def segmentDataOk : Option (List Byte) → Bool
  | none => true
  | some d => decide (d.length ≤ 65533)

/-- A list of symbols that the model's operand form can carry (log 1). -/
def symbolListOk (vals : List Byte) : Bool := decide (vals.length < 65536)

/-- Well-formed operations. -/
def Instr.wf : Instr → Bool
  | .configure => true
  | .encode => true
  | .sinkByte _ => true
  | .writeBits _ _ => true
  | .padByte => true
  | .writeSegment _ data => segmentDataOk data
  | .buildHuffLut _ vals => symbolListOk vals
  | .huffmanEncode _ _ => true
  | .magCategory v => magInRange v
  | .writeBlock _ _ _ _ => true
  | .sampleBlock x0 y0 => originOk x0 && originOk y0
  | .colorTransform _ _ _ => true
  | .fdct _ => true
  | .buildQtable _ _ => true
  | .quantize _ _ => true
  | .buildApp0 => true
  | .buildSof0 _ _ _ => true
  | .buildDqt _ _ => true
  | .buildDht _ _ _ vals => symbolListOk vals
  | .buildSos _ => true
  | .soi => true
  | .app0 => true
  | .sof0 => true
  | .dqt _ => true
  | .dht _ _ => true
  | .sos => true
  | .eoi => true
  | .eob _ => true
  | .zrl _ => true

end Sys2Proof
end

