-- ==== Sys2Proof/Decode.lean ====
section
/-! DEFINITION. The decoder, total on any bytes and rejecting by name, and after it the encoder. The first byte, or for
a marker emission the first two, is the code of spec/opcode_table.json (30_encoding.md R60, R65, R86). The spec gives
the internal operations no wire form, so the bytes that carry operands after that code are the model's (log 1): each
operand in the order of the table, multi-byte values most significant byte first, lists after a 16-bit count. -/
namespace Sys2Proof

/-! ### Reading operands -/

/-- Bytes as one number, the first byte most significant (R48). -/
def bytesToNat (bs : List Byte) : Nat := bs.foldl (fun a b => a * 256 + b.toNat) 0

/-- The `n` low bytes of a number, most significant first (R48). -/
def natToBytes (n v : Nat) : List Byte :=
  (List.range n).map (fun i => BitVec.ofNat 8 (v >>> (8 * (n - 1 - i))))

/-- One byte. -/
def getByte : List Byte → Except DecodeError (Byte × List Byte)
  | [] => .error .truncated
  | b :: w => .ok (b, w)

/-- `n` items one after another. -/
def getMany {α : Type} (p : List Byte → Except DecodeError (α × List Byte)) :
    Nat → List Byte → Except DecodeError (List α × List Byte)
  | 0, w => .ok ([], w)
  | n + 1, w => do
    let (a, w) ← p w
    let (as, w) ← getMany p n w
    return (a :: as, w)

/-- An unsigned number of `n` bytes. -/
def getNat (n : Nat) (w : List Byte) : Except DecodeError (Nat × List Byte) := do
  let (bs, w) ← getMany getByte n w
  return (bytesToNat bs, w)

/-- A signed 32-bit coefficient. -/
def getCoef (w : List Byte) : Except DecodeError (Coef × List Byte) := do
  let (v, w) ← getNat 4 w
  return (BitVec.ofNat 32 v, w)

/-- A 16-bit field. -/
def getHalf (w : List Byte) : Except DecodeError (BitVec 16 × List Byte) := do
  let (v, w) ← getNat 2 w
  return (BitVec.ofNat 16 v, w)

/-- An array of `n` items. -/
def getFixed {α : Type} (n : Nat) (d : α) (p : List Byte → Except DecodeError (α × List Byte)) (w : List Byte) :
    Except DecodeError (Fixed n α × List Byte) := do
  let (as, w) ← getMany p n w
  return (Fixed.ofFn n (fun i => as.getD i d), w)

/-- A list of bytes after its 16-bit count. -/
def getList (w : List Byte) : Except DecodeError (List Byte × List Byte) := do
  let (n, w) ← getNat 2 w
  getMany getByte n w

/-- A table set or destination: 0 luma, 1 chroma (R105). -/
def getSet (w : List Byte) : Except DecodeError (TableSet × List Byte) := do
  let (b, w) ← getByte w
  if b = 0#8 then return (.luma, w)
  else if b = 1#8 then return (.chroma, w)
  else throw (.badSelector b)

/-- A table class: 0 DC, 1 AC (R105). -/
def getClass (w : List Byte) : Except DecodeError (TableClass × List Byte) := do
  let (b, w) ← getByte w
  if b = 0#8 then return (.dc, w)
  else if b = 1#8 then return (.ac, w)
  else throw (.badSelector b)

/-- One of the four Huffman tables, in the order R105 lists them. -/
def getTable (w : List Byte) : Except DecodeError (HuffTable × List Byte) := do
  let (b, w) ← getByte w
  if b = 0#8 then return (.dcLuma, w)
  else if b = 1#8 then return (.acLuma, w)
  else if b = 2#8 then return (.dcChroma, w)
  else if b = 3#8 then return (.acChroma, w)
  else throw (.badSelector b)

/-- The number of components: selector 0 for one, 1 for three. -/
def getNComp (w : List Byte) : Except DecodeError (NComp × List Byte) := do
  let (b, w) ← getByte w
  if b = 0#8 then return (.one, w)
  else if b = 1#8 then return (.three, w)
  else throw (.badSelector b)

/-- The optional data of a segment: 0 for none, 1 and then a list (R100 (a)). -/
def getData (w : List Byte) : Except DecodeError (Option (List Byte) × List Byte) := do
  let (b, w) ← getByte w
  if b = 0#8 then return (none, w)
  else if b = 1#8 then
    let (d, w) ← getList w
    if d.length ≤ 65533 then return (some d, w) else throw (.dataTooLong d.length)
  else throw (.badSelector b)

/-- The length of WRITE_BITS, 0 to 16 (R97 (c)). -/
def getLength (w : List Byte) : Except DecodeError (Fin 17 × List Byte) := do
  let (b, w) ← getByte w
  if h : b.toNat < 17 then return (⟨b.toNat, h⟩, w) else throw (.lengthAbove16 b)

/-- The operand of MAG_CATEGORY: five bytes in two's complement, every one of them a value (R110, log 26). -/
def getMag (w : List Byte) : Except DecodeError (Int × List Byte) := do
  let (n, w) ← getNat 5 w
  return ((BitVec.ofNat 40 n).toInt, w)

/-- A block origin: two bytes. Every value is accepted, also outside the range of R123: DESIGN CHOICE (log 30). -/
def getOrigin (w : List Byte) : Except DecodeError (Nat × List Byte) := getNat 2 w

/-! ### The decoder -/

/-- A marker emission: the byte after `FF` (R65). -/
def decodeMarker (m : Byte) (w : List Byte) : Except DecodeError (Instr × List Byte) :=
  if m = 0xD8#8 then .ok (.soi, w)
  else if m = 0xE0#8 then .ok (.app0, w)
  else if m = 0xC0#8 then .ok (.sof0, w)
  else if m = 0xDB#8 then do
    let (s, w) ← getSet w
    return (.dqt s, w)
  else if m = 0xC4#8 then do
    let (k, w) ← getClass w
    let (s, w) ← getSet w
    return (.dht k s, w)
  else if m = 0xDA#8 then .ok (.sos, w)
  else if m = 0xD9#8 then .ok (.eoi, w)
  else .error (.unknownMarker m)

/-- Operations of the bit packer and the coefficient coder, uop tags `1x` and `2x` (R86). -/
def decodeCoding (tag : Byte) (w : List Byte) : Except DecodeError (Instr × List Byte) :=
  if tag = 0x10#8 then do
    let (b, w) ← getByte w
    return (.sinkByte b, w)
  else if tag = 0x11#8 then do
    let (code, w) ← getHalf w
    let (n, w) ← getLength w
    return (.writeBits code n, w)
  else if tag = 0x12#8 then .ok (.padByte, w)
  else if tag = 0x13#8 then do
    let (m, w) ← getByte w
    let (d, w) ← getData w
    return (.writeSegment m d, w)
  else if tag = 0x20#8 then do
    let (bits, w) ← getFixed 16 0#8 getByte w
    let (vals, w) ← getList w
    return (.buildHuffLut bits vals, w)
  else if tag = 0x21#8 then do
    let (sym, w) ← getByte w
    let (t, w) ← getTable w
    return (.huffmanEncode sym t, w)
  else if tag = 0x22#8 then do
    let (v, w) ← getMag w
    return (.magCategory v, w)
  else if tag = 0x23#8 then do
    let (block, w) ← getFixed 64 0#32 getCoef w
    let (prev, w) ← getCoef w
    let (td, w) ← getSet w
    let (ta, w) ← getSet w
    return (.writeBlock block prev td ta, w)
  else .error (.unknownTag tag)

/-- Operations of the sampler, the transform, the quantiser and the segment builder, uop tags `3x` to `5x` (R86). -/
def decodeBuilding (tag : Byte) (w : List Byte) : Except DecodeError (Instr × List Byte) :=
  if tag = 0x30#8 then do
    let (x0, w) ← getOrigin w
    let (y0, w) ← getOrigin w
    return (.sampleBlock x0 y0, w)
  else if tag = 0x31#8 then do
    let (r, w) ← getByte w
    let (g, w) ← getByte w
    let (b, w) ← getByte w
    return (.colorTransform r g b, w)
  else if tag = 0x40#8 then do
    let (samp, w) ← getFixed 64 0#8 getByte w
    return (.fdct samp, w)
  else if tag = 0x41#8 then do
    let (std, w) ← getFixed 64 0#8 getByte w
    let (quality, w) ← getByte w
    return (.buildQtable std quality, w)
  else if tag = 0x42#8 then do
    let (raw, w) ← getFixed 64 0#32 getCoef w
    let (table, w) ← getFixed 64 0#8 getByte w
    return (.quantize raw table, w)
  else if tag = 0x50#8 then .ok (.buildApp0, w)
  else if tag = 0x51#8 then do
    let (height, w) ← getHalf w
    let (width, w) ← getHalf w
    let (n, w) ← getNComp w
    return (.buildSof0 height width n, w)
  else if tag = 0x52#8 then do
    let (tq, w) ← getSet w
    let (table, w) ← getFixed 64 0#8 getByte w
    return (.buildDqt tq table, w)
  else if tag = 0x53#8 then do
    let (k, w) ← getClass w
    let (s, w) ← getSet w
    let (bits, w) ← getFixed 16 0#8 getByte w
    let (vals, w) ← getList w
    return (.buildDht k s bits vals, w)
  else if tag = 0x54#8 then do
    let (n, w) ← getNComp w
    return (.buildSos n, w)
  else .error (.unknownTag tag)

/-- The instruction whose first byte is `tag`, and the bytes after it. -/
def decodeFrom (tag : Byte) (w : List Byte) : Except DecodeError (Instr × List Byte) :=
  if tag = 0xFF#8 then do
    let (m, w) ← getByte w
    decodeMarker m w
  else if tag = 0x01#8 then .ok (.configure, w)
  else if tag = 0x02#8 then .ok (.encode, w)
  else if tag = 0x00#8 then do
    let (ta, w) ← getSet w
    return (.eob ta, w)
  else if tag = 0xF0#8 then do
    let (ta, w) ← getSet w
    return (.zrl ta, w)
  else if tag.toNat < 0x30 then decodeCoding tag w
  else decodeBuilding tag w

/-- The decoder: the instruction a word begins with, and the bytes that follow it. -/
def decode (w : List Byte) : Except DecodeError (Instr × List Byte) := do
  let (tag, w) ← getByte w
  decodeFrom tag w

/-! ### The encoder -/

def coefBytes (v : Coef) : List Byte := natToBytes 4 v.toNat

def halfBytes (v : BitVec 16) : List Byte := natToBytes 2 v.toNat

/-- The code of a table set: 0 luma, 1 chroma (R105). -/
def TableSet.code : TableSet → Byte
  | .luma => 0#8
  | .chroma => 1#8

/-- The code of a table class: 0 DC, 1 AC (R105). -/
def TableClass.code : TableClass → Byte
  | .dc => 0#8
  | .ac => 1#8

def HuffTable.code : HuffTable → Byte
  | .dcLuma => 0#8
  | .acLuma => 1#8
  | .dcChroma => 2#8
  | .acChroma => 3#8

def NComp.selector : NComp → Byte
  | .one => 0#8
  | .three => 1#8

def listBytes (d : List Byte) : List Byte := natToBytes 2 d.length ++ d

def dataBytes : Option (List Byte) → List Byte
  | none => [0#8]
  | some d => 1#8 :: listBytes d

/-- The code of an instruction in spec/opcode_table.json: one byte, or two for a marker emission. -/
def Instr.codeBytes : Instr → List Byte
  | .configure => [0x01#8]
  | .encode => [0x02#8]
  | .sinkByte _ => [0x10#8]
  | .writeBits _ _ => [0x11#8]
  | .padByte => [0x12#8]
  | .writeSegment _ _ => [0x13#8]
  | .buildHuffLut _ _ => [0x20#8]
  | .huffmanEncode _ _ => [0x21#8]
  | .magCategory _ => [0x22#8]
  | .writeBlock _ _ _ _ => [0x23#8]
  | .sampleBlock _ _ => [0x30#8]
  | .colorTransform _ _ _ => [0x31#8]
  | .fdct _ => [0x40#8]
  | .buildQtable _ _ => [0x41#8]
  | .quantize _ _ => [0x42#8]
  | .buildApp0 => [0x50#8]
  | .buildSof0 _ _ _ => [0x51#8]
  | .buildDqt _ _ => [0x52#8]
  | .buildDht _ _ _ _ => [0x53#8]
  | .buildSos _ => [0x54#8]
  | .soi => [0xFF#8, 0xD8#8]
  | .app0 => [0xFF#8, 0xE0#8]
  | .sof0 => [0xFF#8, 0xC0#8]
  | .dqt _ => [0xFF#8, 0xDB#8]
  | .dht _ _ => [0xFF#8, 0xC4#8]
  | .sos => [0xFF#8, 0xDA#8]
  | .eoi => [0xFF#8, 0xD9#8]
  | .eob _ => [0x00#8]
  | .zrl _ => [0xF0#8]

/-- The operand bytes of an instruction (log 1). -/
def Instr.operandBytes : Instr → List Byte
  | .configure => []
  | .encode => []
  | .sinkByte b => [b]
  | .writeBits code n => halfBytes code ++ [BitVec.ofNat 8 n.val]
  | .padByte => []
  | .writeSegment m d => m :: dataBytes d
  | .buildHuffLut bits vals => bits.toList ++ listBytes vals
  | .huffmanEncode sym t => [sym, t.code]
  | .magCategory v => natToBytes 5 (BitVec.ofInt 40 v).toNat
  | .writeBlock block prev td ta => block.toList.flatMap coefBytes ++ coefBytes prev ++ [td.code, ta.code]
  | .sampleBlock x0 y0 => natToBytes 2 x0 ++ natToBytes 2 y0
  | .colorTransform r g b => [r, g, b]
  | .fdct samp => samp.toList
  | .buildQtable std quality => std.toList ++ [quality]
  | .quantize raw table => raw.toList.flatMap coefBytes ++ table.toList
  | .buildApp0 => []
  | .buildSof0 height width n => halfBytes height ++ halfBytes width ++ [n.selector]
  | .buildDqt tq table => tq.code :: table.toList
  | .buildDht k s bits vals => k.code :: s.code :: bits.toList ++ listBytes vals
  | .buildSos n => [n.selector]
  | .soi => []
  | .app0 => []
  | .sof0 => []
  | .dqt s => [s.code]
  | .dht k s => [k.code, s.code]
  | .sos => []
  | .eoi => []
  | .eob ta => [ta.code]
  | .zrl ta => [ta.code]

/-- The encoder: the bytes of an instruction. -/
def encode (i : Instr) : List Byte := i.codeBytes ++ i.operandBytes

/-! ### Words as the opcode table numbers them -/

/-- The most bytes an instruction has: BUILD_DHT with 65535 symbols. -/
def maxInstrBytes : Nat := 65556

/-- A table word as bytes: the table writes a 16-bit row with its first byte most significant (`0xFFD8` is the two
bytes `FF D8`, R65), and the operand bytes after the table's bits are zero. -/
def tableWordBytes (nbits w : Nat) : List Byte :=
  natToBytes ((nbits + 7) / 8) w ++ List.replicate maxInstrBytes 0#8

/-- What the decoder reads from a table word whose operand bytes are zero. -/
def decodeTableWord (nbits w : Nat) : Option Instr :=
  match decode (tableWordBytes nbits w) with
  | .ok (i, _) => some i
  | .error _ => none

end Sys2Proof
end

