-- ==== Sys2Proof/Machine/State.lean ====
section
/-! DEFINITION. The state of the block and of what it is connected to, as plain data; the inputs of the outside world;
the reasons a step can stop; the state after reset. -/
namespace Sys2Proof.Machine
open Sys2Proof

/-! ### Small types of the state -/

/-- One value for each of the three components (R18, R19). -/
structure Triple (α : Type) where
  y : α
  cb : α
  cr : α
deriving DecidableEq, Repr

/-- One value for each of the two table sets (R21). -/
structure Pair (α : Type) where
  luma : α
  chroma : α
deriving DecidableEq, Repr

/-- `phase` (R20); the numeric codes are in Flags.lean. -/
inductive Phase where
  | start
  | headersWritten
  | scanningBlocks
  | finalized
deriving DecidableEq, Repr

/-- `err`: the code of the last error (R180); codes 8 to 15 are never written, so there are eight values (U23). -/
inductive ErrCode where
  | none
  | sinkWriteFailure
  | huffmanLengthError
  | dhtCountMismatch
  | notConfigured
  | illegalCommand
  | emptyBuffer
  | lenError
deriving DecidableEq, Repr

/-- The four colour modes (R24, R28). -/
inductive ColorMode where
  | rgb
  | rgba
  | gray
  | grayA
deriving DecidableEq, Repr

/-- Where the sequencer stands inside ENCODE: the operation of R163 it issues next. The model's own refinement of the
sequencer position `(busy, phase, y0, x0, c)` of R20 (log 11). -/
inductive SeqPoint where
  /-- No encode is in progress. -/
  | idle
  /-- The next operation is header segment number `k` of R165. -/
  | header (k : Nat)
  /-- The headers are written and the scan is about to begin. -/
  | scan
  /-- SAMPLE_BLOCK at the current position. -/
  | sample
  /-- FDCT of component `c`. -/
  | fdct
  /-- QUANTIZE of component `c`. -/
  | quantize
  /-- WRITE_BLOCK of component `c`. -/
  | writeBlock
  /-- PAD_BYTE. -/
  | pad
  /-- EOI. -/
  | eoi
deriving DecidableEq, Repr

/-- One entry of a Huffman lookup table: `(length, code)`, length 1 to 17 (R22). -/
structure LutEntry where
  length : Nat
  code : BitVec 16
deriving DecidableEq, Repr

/-- What an internal operation returned (R86, column "result"). -/
inductive OpResult where
  | none
  /-- BUILD_HUFF_LUT: 256 entries. -/
  | lut (entries : List LutEntry)
  /-- MAG_CATEGORY: `(size, bits)`. -/
  | magnitude (size bits : Nat)
  /-- WRITE_BLOCK: the new DC value. -/
  | coef (v : Coef)
  /-- COLOR_TRANSFORM: `(Y, Cb, Cr)`. -/
  | ycc (y cb cr : Byte)
  /-- BUILD_QTABLE: one table. -/
  | table (t : Block Byte)
  /-- The BUILD_ operations of the segment builder: the data bytes. -/
  | bytes (data : List Byte)
deriving DecidableEq, Repr

/-! ### Image memory -/

/-- The image memory: the bytes the host has placed, by offset, in canonical form (offsets strictly rising, no entry
equal to what an unlisted offset reads as). R36, R40. -/
structure Memory where
  cells : List Host.Cell
deriving DecidableEq, Repr

/-! ### Inputs -/

/-- The sink's answer to one byte write (R46). -/
inductive SinkAnswer where
  | ok
  | fail
deriving DecidableEq, Repr

/-- A host write of one register, the value at the register's own width (R25 to R30, log 28). -/
inductive HostWrite where
  | cmd (k : BitVec 8)
  | quality (v : BitVec 8)
  | width (v : BitVec 16)
  | height (v : BitVec 16)
  | mode (v : BitVec 2)
  | srcLen (v : BitVec 36)
  | status (v : BitVec 9)
deriving DecidableEq, Repr

/-- The seven registers, by name, in the order of their numbers 0 to 6 (R25 to R30). -/
inductive HostReg where
  | cmd
  | quality
  | width
  | height
  | mode
  | srcLen
  | status
deriving DecidableEq, Repr

/-- One input of the outside world. A step takes the first pending one; with none pending the block goes on alone. -/
inductive Event where
  /-- The outside does nothing: the sequencer, if it is busy, runs its next operation, or the rest of the one it has
  begun. -/
  | tick
  /-- The outside does nothing until the sink has answered one more write: the finer step of R174, after which the next
  input falls between two writes of one operation (log 5). -/
  | sinkWrite
  /-- The host writes a register. -/
  | write (w : HostWrite)
  /-- The host reads a register. -/
  | read (r : HostReg)
  /-- The host places bytes in the image memory from an offset on. -/
  | place (base : Nat) (data : List Byte)
  /-- The reset input is asserted, after the sink has accepted `accepted` more bytes of the operation in progress. -/
  | reset (accepted : Nat)
  /-- One operation is issued as its word (the third line form of R93, log 3); while `busy = 1` only a command is. -/
  | issue (word : List Byte)
deriving DecidableEq, Repr

/-! ### The state -/

/-- The machine. First what the block holds (10_state.md sections 1 to 5), then what stands outside it (section 6),
then the model's own fields. -/
structure State where
  /-- Bit accumulator (R15): the `nbits` most significant bits are pending, the rest are 0. -/
  acc : BitVec 32
  /-- Number of pending bits (R16, log 33). -/
  nbits : Nat
  /-- DC predictors (R18). -/
  pred : Triple Coef
  /-- Sample blocks of the current position (R19). -/
  samp : Triple (Block Byte)
  /-- Transformed block (R19). -/
  raw : Block Coef
  /-- Quantised block (R19). -/
  q : Block Coef
  /-- 1 while an encode is in progress (R20). -/
  busy : Bool
  /-- Progress of the encode (R20). -/
  phase : Phase
  /-- Top row of the current block position (R20). -/
  y0 : Nat
  /-- Left column of the current block position (R20). -/
  x0 : Nat
  /-- Component being coded (R20, R169). -/
  c : Comp
  /-- Quantisation tables, natural order (R21). -/
  qt : Pair (Block Byte)
  /-- Register 1 (R26). -/
  quality : BitVec 8
  /-- Register 2 (R27). -/
  width : BitVec 16
  /-- Register 3 (R27). -/
  height : BitVec 16
  /-- Register 4 (R28). -/
  mode : BitVec 2
  /-- Register 5 (R29). -/
  srcLen : BitVec 36
  /-- 1 after a CONFIGURE (R31). -/
  cfgValid : Bool
  /-- Code of the last error (R32). -/
  err : ErrCode
  /-- 1 after a fatal error until reset (R33). -/
  fatal : Bool
  /-- Content of the sink, oldest byte first (R35). -/
  out : List Byte
  /-- Image memory (R36). -/
  img : Memory
  /-- INPUT: the sink's answers to the writes, those of the operation in progress first; ok after the last (log 6). -/
  sinkAnswers : List SinkAnswer
  /-- INPUT: what the outside does, first one next (log 2). -/
  input : List Event
  /-- MODEL: the value the host's last register read returned (R25 to R30). -/
  lastRead : BitVec 36
  /-- MODEL: what the last internal operation returned (log 11). -/
  result : OpResult
  /-- MODEL: where the sequencer stands (log 11). -/
  seq : SeqPoint
  /-- MODEL: how many bytes of the sequencer's operation in progress the sink has accepted (log 5). -/
  sent : Nat
  /-- MODEL: how many free values of log 12 have been drawn. -/
  freeCount : Nat
  /-- CONFIGURATION: the open parameters of R7; no step changes them (log 8). -/
  params : Params
deriving DecidableEq, Repr

/-! ### Reasons to stop -/

/-- Faults: the machine stops. -/
inductive Fault where
  /-- The host places a byte at or past offset 2^36, which does not exist (R40, `ADDR_W`). Raised by event `place`,
  by no instruction. Safe: the model stops. -/
  | imageOffsetOutside (offset : Nat)
deriving DecidableEq, Repr

/-- Refusals: a case to which the spec gives no meaning. -/
inductive Refusal where
  /-- An instruction that has no meaning in `exec` yet. Safe. -/
  | notModelled (mnemonic : String)
  /-- An issued word that is no instruction. Raised by `step`. Safe. -/
  | illegalWord (e : DecodeError)
  /-- WRITE_SEGMENT with more than 65533 data bytes (R100 (b), U13, treatment `refuse`). Raised by WRITE_SEGMENT on
  ill-formed operands only: the decoder never gives one. Safe. -/
  | segmentTooLong (n : Nat)
  /-- An internal operation is issued from outside while an encode runs: no other agent appends to the sink or touches
  the block then (R56, R210, U18, treatment `refuse`, log 3). Raised by event `issue`. Safe. -/
  | operationIssuedWhileBusy
  /-- The host writes the image memory while `busy = 1` (R56, R207, U17, treatment `refuse`). Raised by event `place`.
  Safe. -/
  | imageWriteWhileBusy
deriving DecidableEq, Repr

/-! ### Control types -/

/-- An operation either finishes with a value or raises (R186); either way the state goes on. -/
inductive Run (α : Type) where
  | done (v : α) (s : State)
  | raised (s : State)

/-- What becomes of a write to `CMD` (R159). -/
inductive Verdict where
  /-- `busy = 1`: ignored (R175). -/
  | ignored
  /-- `fatal = 1`: refused, nothing changes (R188). -/
  | locked
  /-- Refused with a code (R183 to R185). -/
  | refused (e : ErrCode)
  /-- Accepted. -/
  | accepted
deriving DecidableEq, Repr

/-! ### Reset -/

/-- The machine after reset (R39, R200). `qt`, `samp`, `raw` and `q` have no reset value in the spec; the zeros here
are DESIGN CHOICE (log 9). The sink and the image memory are outside the block; that they begin empty is DESIGN
CHOICE (log 10). -/
def State.reset : State where
  acc := 0#32
  nbits := 0
  pred := ⟨0#32, 0#32, 0#32⟩
  samp := ⟨Fixed.ofFn 64 (fun _ => 0#8), Fixed.ofFn 64 (fun _ => 0#8), Fixed.ofFn 64 (fun _ => 0#8)⟩
  raw := Fixed.ofFn 64 (fun _ => 0#32)
  q := Fixed.ofFn 64 (fun _ => 0#32)
  busy := false
  phase := .start
  y0 := 0
  x0 := 0
  c := .y
  qt := ⟨Fixed.ofFn 64 (fun _ => 0#8), Fixed.ofFn 64 (fun _ => 0#8)⟩
  quality := 0#8
  width := 0#16
  height := 0#16
  mode := 0#2
  srcLen := 0#36
  cfgValid := false
  err := .none
  fatal := false
  out := []
  img := ⟨[]⟩
  sinkAnswers := []
  input := []
  lastRead := 0#36
  result := .none
  seq := .idle
  sent := 0
  freeCount := 0
  params := Params.default

end Sys2Proof.Machine
end

