-- ==== Sys2Proof/Machine/Rom.lean ====
section
/-! DEFINITION. The constant tables (ROM) of 30_encoding.md section 4 (R42, R74 to R85), as the spec prints them. The
spec supplies them from general knowledge of ITU-T T.81 (log 18); the lookup tables are the spec's own listings R82 to
R85, not computed here (log 29). -/
namespace Sys2Proof.Machine
open Sys2Proof

/-- A block from its 64 numbers in natural order. -/
def byteBlock (l : List Nat) : Block Byte := Fixed.ofFn 64 (fun i => BitVec.ofNat 8 (l.getD i 0))

/-- Counts from their 16 numbers. -/
def counts (l : List Nat) : Counts := Fixed.ofFn 16 (fun i => BitVec.ofNat 8 (l.getD i 0))

/-- `ZIGZAG` in natural order (R74). -/
def zigzagList : List Nat :=
  [0, 1, 5, 6, 14, 15, 27, 28] ++
  [2, 4, 7, 13, 16, 26, 29, 42] ++
  [3, 8, 12, 17, 25, 30, 41, 43] ++
  [9, 11, 18, 24, 31, 40, 44, 53] ++
  [10, 19, 23, 32, 39, 45, 52, 54] ++
  [20, 22, 33, 38, 46, 51, 55, 60] ++
  [21, 34, 37, 47, 50, 56, 59, 61] ++
  [35, 36, 48, 49, 57, 58, 62, 63]

/-- `ZIGZAG[i]`: the scan index of natural position `i` (R74). -/
def zigzag (i : Nat) : Nat := zigzagList.getD i 0

/-- `UNZIGZAG` in scan order (R75). -/
def unzigzagList : List Nat :=
  [0, 1, 8, 16, 9, 2, 3, 10] ++
  [17, 24, 32, 25, 18, 11, 4, 5] ++
  [12, 19, 26, 33, 40, 48, 41, 34] ++
  [27, 20, 13, 6, 7, 14, 21, 28] ++
  [35, 42, 49, 56, 57, 50, 43, 36] ++
  [29, 22, 15, 23, 30, 37, 44, 51] ++
  [58, 59, 52, 45, 38, 31, 39, 46] ++
  [53, 60, 61, 54, 47, 55, 62, 63]

/-- `UNZIGZAG[k]`: the natural position of scan index `k` (R75). -/
def unzigzag (k : Nat) : Nat := unzigzagList.getD k 0

/-- `STD_LUMA_Q` in natural order (R76). -/
def stdLumaList : List Nat :=
  [16, 11, 10, 16, 24, 40, 51, 61] ++
  [12, 12, 14, 19, 26, 58, 60, 55] ++
  [14, 13, 16, 24, 40, 57, 69, 56] ++
  [14, 17, 22, 29, 51, 87, 80, 62] ++
  [18, 22, 37, 56, 68, 109, 103, 77] ++
  [24, 35, 55, 64, 81, 104, 113, 92] ++
  [49, 64, 78, 87, 103, 121, 120, 101] ++
  [72, 92, 95, 98, 112, 100, 103, 99]

/-- `STD_CHROMA_Q` in natural order (R77). -/
def stdChromaList : List Nat :=
  [17, 18, 24, 47, 99, 99, 99, 99] ++
  [18, 21, 26, 66, 99, 99, 99, 99] ++
  [24, 26, 56, 99, 99, 99, 99, 99] ++
  [47, 66, 99, 99, 99, 99, 99, 99] ++
  [99, 99, 99, 99, 99, 99, 99, 99] ++
  [99, 99, 99, 99, 99, 99, 99, 99] ++
  [99, 99, 99, 99, 99, 99, 99, 99] ++
  [99, 99, 99, 99, 99, 99, 99, 99]

/-- The standard quantisation table of a set (R76, R77). -/
def stdQ : TableSet → Block Byte
  | .luma => byteBlock stdLumaList
  | .chroma => byteBlock stdChromaList

/-- `BITS` of the table, lengths 1 to 16 (R78). -/
def dcLumaBits : List Nat := [0, 1, 5, 1, 1, 1, 1, 1, 1, 0, 0, 0, 0, 0, 0, 0]

/-- `HUFFVAL` of the table, in order of increasing code (R78). -/
def dcLumaVals : List Nat :=
  [0x00, 0x01, 0x02, 0x03, 0x04, 0x05, 0x06, 0x07, 0x08, 0x09, 0x0A, 0x0B]

/-- `BITS` of the table, lengths 1 to 16 (R79). -/
def acLumaBits : List Nat := [0, 2, 1, 3, 3, 2, 4, 3, 5, 5, 4, 4, 0, 0, 1, 125]

/-- `HUFFVAL` of the table, in order of increasing code (R79). -/
def acLumaVals : List Nat :=
  [0x01, 0x02, 0x03, 0x00, 0x04, 0x11, 0x05, 0x12, 0x21, 0x31, 0x41, 0x06, 0x13, 0x51, 0x61, 0x07] ++
  [0x22, 0x71, 0x14, 0x32, 0x81, 0x91, 0xA1, 0x08, 0x23, 0x42, 0xB1, 0xC1, 0x15, 0x52, 0xD1, 0xF0] ++
  [0x24, 0x33, 0x62, 0x72, 0x82, 0x09, 0x0A, 0x16, 0x17, 0x18, 0x19, 0x1A, 0x25, 0x26, 0x27, 0x28] ++
  [0x29, 0x2A, 0x34, 0x35, 0x36, 0x37, 0x38, 0x39, 0x3A, 0x43, 0x44, 0x45, 0x46, 0x47, 0x48, 0x49] ++
  [0x4A, 0x53, 0x54, 0x55, 0x56, 0x57, 0x58, 0x59, 0x5A, 0x63, 0x64, 0x65, 0x66, 0x67, 0x68, 0x69] ++
  [0x6A, 0x73, 0x74, 0x75, 0x76, 0x77, 0x78, 0x79, 0x7A, 0x83, 0x84, 0x85, 0x86, 0x87, 0x88, 0x89] ++
  [0x8A, 0x92, 0x93, 0x94, 0x95, 0x96, 0x97, 0x98, 0x99, 0x9A, 0xA2, 0xA3, 0xA4, 0xA5, 0xA6, 0xA7] ++
  [0xA8, 0xA9, 0xAA, 0xB2, 0xB3, 0xB4, 0xB5, 0xB6, 0xB7, 0xB8, 0xB9, 0xBA, 0xC2, 0xC3, 0xC4, 0xC5] ++
  [0xC6, 0xC7, 0xC8, 0xC9, 0xCA, 0xD2, 0xD3, 0xD4, 0xD5, 0xD6, 0xD7, 0xD8, 0xD9, 0xDA, 0xE1, 0xE2] ++
  [0xE3, 0xE4, 0xE5, 0xE6, 0xE7, 0xE8, 0xE9, 0xEA, 0xF1, 0xF2, 0xF3, 0xF4, 0xF5, 0xF6, 0xF7, 0xF8] ++
  [0xF9, 0xFA]

/-- `BITS` of the table, lengths 1 to 16 (R80). -/
def dcChromaBits : List Nat := [0, 3, 1, 1, 1, 1, 1, 1, 1, 1, 1, 0, 0, 0, 0, 0]

/-- `HUFFVAL` of the table, in order of increasing code (R80). -/
def dcChromaVals : List Nat :=
  [0x00, 0x01, 0x02, 0x03, 0x04, 0x05, 0x06, 0x07, 0x08, 0x09, 0x0A, 0x0B]

/-- `BITS` of the table, lengths 1 to 16 (R81). -/
def acChromaBits : List Nat := [0, 2, 1, 2, 4, 4, 3, 4, 7, 5, 4, 4, 0, 1, 2, 119]

/-- `HUFFVAL` of the table, in order of increasing code (R81). -/
def acChromaVals : List Nat :=
  [0x00, 0x01, 0x02, 0x03, 0x11, 0x04, 0x05, 0x21, 0x31, 0x06, 0x12, 0x41, 0x51, 0x07, 0x61, 0x71] ++
  [0x13, 0x22, 0x32, 0x81, 0x08, 0x14, 0x42, 0x91, 0xA1, 0xB1, 0xC1, 0x09, 0x23, 0x33, 0x52, 0xF0] ++
  [0x15, 0x62, 0x72, 0xD1, 0x0A, 0x16, 0x24, 0x34, 0xE1, 0x25, 0xF1, 0x17, 0x18, 0x19, 0x1A, 0x26] ++
  [0x27, 0x28, 0x29, 0x2A, 0x35, 0x36, 0x37, 0x38, 0x39, 0x3A, 0x43, 0x44, 0x45, 0x46, 0x47, 0x48] ++
  [0x49, 0x4A, 0x53, 0x54, 0x55, 0x56, 0x57, 0x58, 0x59, 0x5A, 0x63, 0x64, 0x65, 0x66, 0x67, 0x68] ++
  [0x69, 0x6A, 0x73, 0x74, 0x75, 0x76, 0x77, 0x78, 0x79, 0x7A, 0x82, 0x83, 0x84, 0x85, 0x86, 0x87] ++
  [0x88, 0x89, 0x8A, 0x92, 0x93, 0x94, 0x95, 0x96, 0x97, 0x98, 0x99, 0x9A, 0xA2, 0xA3, 0xA4, 0xA5] ++
  [0xA6, 0xA7, 0xA8, 0xA9, 0xAA, 0xB2, 0xB3, 0xB4, 0xB5, 0xB6, 0xB7, 0xB8, 0xB9, 0xBA, 0xC2, 0xC3] ++
  [0xC4, 0xC5, 0xC6, 0xC7, 0xC8, 0xC9, 0xCA, 0xD2, 0xD3, 0xD4, 0xD5, 0xD6, 0xD7, 0xD8, 0xD9, 0xDA] ++
  [0xE2, 0xE3, 0xE4, 0xE5, 0xE6, 0xE7, 0xE8, 0xE9, 0xEA, 0xF2, 0xF3, 0xF4, 0xF5, 0xF6, 0xF7, 0xF8] ++
  [0xF9, 0xFA]

/-- `BITS` of a table (R78 to R81). -/
def huffBits : HuffTable → Counts
  | .dcLuma => counts dcLumaBits
  | .acLuma => counts acLumaBits
  | .dcChroma => counts dcChromaBits
  | .acChroma => counts acChromaBits

/-- `HUFFVAL` of a table (R78 to R81). -/
def huffVals : HuffTable → List Byte
  | .dcLuma => dcLumaVals.map (BitVec.ofNat 8)
  | .acLuma => acLumaVals.map (BitVec.ofNat 8)
  | .dcChroma => dcChromaVals.map (BitVec.ofNat 8)
  | .acChroma => acChromaVals.map (BitVec.ofNat 8)

/-- `(symbol, length, code)` of every symbol with a code (R82). -/
def dcLumaCodes : List (Nat × Nat × Nat) :=
  [(0x00, 2, 0x0), (0x01, 3, 0x2), (0x02, 3, 0x3), (0x03, 3, 0x4), (0x04, 3, 0x5),
   (0x05, 3, 0x6)] ++
  [(0x06, 4, 0xE), (0x07, 5, 0x1E), (0x08, 6, 0x3E), (0x09, 7, 0x7E), (0x0A, 8, 0xFE),
   (0x0B, 9, 0x1FE)]

/-- `(symbol, length, code)` of every symbol with a code (R83). -/
def acLumaCodes : List (Nat × Nat × Nat) :=
  [(0x00, 4, 0xA), (0xF0, 11, 0x7F9)] ++
  [(0x01, 2, 0x0), (0x02, 2, 0x1), (0x03, 3, 0x4), (0x04, 4, 0xB), (0x05, 5, 0x1A),
   (0x06, 7, 0x78), (0x07, 8, 0xF8), (0x08, 10, 0x3F6), (0x09, 16, 0xFF82), (0x0A, 16, 0xFF83)] ++
  [(0x11, 4, 0xC), (0x12, 5, 0x1B), (0x13, 7, 0x79), (0x14, 9, 0x1F6), (0x15, 11, 0x7F6),
   (0x16, 16, 0xFF84), (0x17, 16, 0xFF85), (0x18, 16, 0xFF86), (0x19, 16, 0xFF87), (0x1A, 16, 0xFF88)] ++
  [(0x21, 5, 0x1C), (0x22, 8, 0xF9), (0x23, 10, 0x3F7), (0x24, 12, 0xFF4), (0x25, 16, 0xFF89),
   (0x26, 16, 0xFF8A), (0x27, 16, 0xFF8B), (0x28, 16, 0xFF8C), (0x29, 16, 0xFF8D), (0x2A, 16, 0xFF8E)] ++
  [(0x31, 6, 0x3A), (0x32, 9, 0x1F7), (0x33, 12, 0xFF5), (0x34, 16, 0xFF8F), (0x35, 16, 0xFF90),
   (0x36, 16, 0xFF91), (0x37, 16, 0xFF92), (0x38, 16, 0xFF93), (0x39, 16, 0xFF94), (0x3A, 16, 0xFF95)] ++
  [(0x41, 6, 0x3B), (0x42, 10, 0x3F8), (0x43, 16, 0xFF96), (0x44, 16, 0xFF97), (0x45, 16, 0xFF98),
   (0x46, 16, 0xFF99), (0x47, 16, 0xFF9A), (0x48, 16, 0xFF9B), (0x49, 16, 0xFF9C), (0x4A, 16, 0xFF9D)] ++
  [(0x51, 7, 0x7A), (0x52, 11, 0x7F7), (0x53, 16, 0xFF9E), (0x54, 16, 0xFF9F), (0x55, 16, 0xFFA0),
   (0x56, 16, 0xFFA1), (0x57, 16, 0xFFA2), (0x58, 16, 0xFFA3), (0x59, 16, 0xFFA4), (0x5A, 16, 0xFFA5)] ++
  [(0x61, 7, 0x7B), (0x62, 12, 0xFF6), (0x63, 16, 0xFFA6), (0x64, 16, 0xFFA7), (0x65, 16, 0xFFA8),
   (0x66, 16, 0xFFA9), (0x67, 16, 0xFFAA), (0x68, 16, 0xFFAB), (0x69, 16, 0xFFAC), (0x6A, 16, 0xFFAD)] ++
  [(0x71, 8, 0xFA), (0x72, 12, 0xFF7), (0x73, 16, 0xFFAE), (0x74, 16, 0xFFAF), (0x75, 16, 0xFFB0),
   (0x76, 16, 0xFFB1), (0x77, 16, 0xFFB2), (0x78, 16, 0xFFB3), (0x79, 16, 0xFFB4), (0x7A, 16, 0xFFB5)] ++
  [(0x81, 9, 0x1F8), (0x82, 15, 0x7FC0), (0x83, 16, 0xFFB6), (0x84, 16, 0xFFB7), (0x85, 16, 0xFFB8),
   (0x86, 16, 0xFFB9), (0x87, 16, 0xFFBA), (0x88, 16, 0xFFBB), (0x89, 16, 0xFFBC), (0x8A, 16, 0xFFBD)] ++
  [(0x91, 9, 0x1F9), (0x92, 16, 0xFFBE), (0x93, 16, 0xFFBF), (0x94, 16, 0xFFC0), (0x95, 16, 0xFFC1),
   (0x96, 16, 0xFFC2), (0x97, 16, 0xFFC3), (0x98, 16, 0xFFC4), (0x99, 16, 0xFFC5), (0x9A, 16, 0xFFC6)] ++
  [(0xA1, 9, 0x1FA), (0xA2, 16, 0xFFC7), (0xA3, 16, 0xFFC8), (0xA4, 16, 0xFFC9), (0xA5, 16, 0xFFCA),
   (0xA6, 16, 0xFFCB), (0xA7, 16, 0xFFCC), (0xA8, 16, 0xFFCD), (0xA9, 16, 0xFFCE), (0xAA, 16, 0xFFCF)] ++
  [(0xB1, 10, 0x3F9), (0xB2, 16, 0xFFD0), (0xB3, 16, 0xFFD1), (0xB4, 16, 0xFFD2), (0xB5, 16, 0xFFD3),
   (0xB6, 16, 0xFFD4), (0xB7, 16, 0xFFD5), (0xB8, 16, 0xFFD6), (0xB9, 16, 0xFFD7), (0xBA, 16, 0xFFD8)] ++
  [(0xC1, 10, 0x3FA), (0xC2, 16, 0xFFD9), (0xC3, 16, 0xFFDA), (0xC4, 16, 0xFFDB), (0xC5, 16, 0xFFDC),
   (0xC6, 16, 0xFFDD), (0xC7, 16, 0xFFDE), (0xC8, 16, 0xFFDF), (0xC9, 16, 0xFFE0), (0xCA, 16, 0xFFE1)] ++
  [(0xD1, 11, 0x7F8), (0xD2, 16, 0xFFE2), (0xD3, 16, 0xFFE3), (0xD4, 16, 0xFFE4), (0xD5, 16, 0xFFE5),
   (0xD6, 16, 0xFFE6), (0xD7, 16, 0xFFE7), (0xD8, 16, 0xFFE8), (0xD9, 16, 0xFFE9), (0xDA, 16, 0xFFEA)] ++
  [(0xE1, 16, 0xFFEB), (0xE2, 16, 0xFFEC), (0xE3, 16, 0xFFED), (0xE4, 16, 0xFFEE), (0xE5, 16, 0xFFEF),
   (0xE6, 16, 0xFFF0), (0xE7, 16, 0xFFF1), (0xE8, 16, 0xFFF2), (0xE9, 16, 0xFFF3), (0xEA, 16, 0xFFF4)] ++
  [(0xF1, 16, 0xFFF5), (0xF2, 16, 0xFFF6), (0xF3, 16, 0xFFF7), (0xF4, 16, 0xFFF8), (0xF5, 16, 0xFFF9),
   (0xF6, 16, 0xFFFA), (0xF7, 16, 0xFFFB), (0xF8, 16, 0xFFFC), (0xF9, 16, 0xFFFD), (0xFA, 16, 0xFFFE)]

/-- `(symbol, length, code)` of every symbol with a code (R84). -/
def dcChromaCodes : List (Nat × Nat × Nat) :=
  [(0x00, 2, 0x0), (0x01, 2, 0x1), (0x02, 2, 0x2), (0x03, 3, 0x6), (0x04, 4, 0xE),
   (0x05, 5, 0x1E)] ++
  [(0x06, 6, 0x3E), (0x07, 7, 0x7E), (0x08, 8, 0xFE), (0x09, 9, 0x1FE), (0x0A, 10, 0x3FE),
   (0x0B, 11, 0x7FE)]

/-- `(symbol, length, code)` of every symbol with a code (R85). -/
def acChromaCodes : List (Nat × Nat × Nat) :=
  [(0x00, 2, 0x0), (0xF0, 10, 0x3FA)] ++
  [(0x01, 2, 0x1), (0x02, 3, 0x4), (0x03, 4, 0xA), (0x04, 5, 0x18), (0x05, 5, 0x19),
   (0x06, 6, 0x38), (0x07, 7, 0x78), (0x08, 9, 0x1F4), (0x09, 10, 0x3F6), (0x0A, 12, 0xFF4)] ++
  [(0x11, 4, 0xB), (0x12, 6, 0x39), (0x13, 8, 0xF6), (0x14, 9, 0x1F5), (0x15, 11, 0x7F6),
   (0x16, 12, 0xFF5), (0x17, 16, 0xFF88), (0x18, 16, 0xFF89), (0x19, 16, 0xFF8A), (0x1A, 16, 0xFF8B)] ++
  [(0x21, 5, 0x1A), (0x22, 8, 0xF7), (0x23, 10, 0x3F7), (0x24, 12, 0xFF6), (0x25, 15, 0x7FC2),
   (0x26, 16, 0xFF8C), (0x27, 16, 0xFF8D), (0x28, 16, 0xFF8E), (0x29, 16, 0xFF8F), (0x2A, 16, 0xFF90)] ++
  [(0x31, 5, 0x1B), (0x32, 8, 0xF8), (0x33, 10, 0x3F8), (0x34, 12, 0xFF7), (0x35, 16, 0xFF91),
   (0x36, 16, 0xFF92), (0x37, 16, 0xFF93), (0x38, 16, 0xFF94), (0x39, 16, 0xFF95), (0x3A, 16, 0xFF96)] ++
  [(0x41, 6, 0x3A), (0x42, 9, 0x1F6), (0x43, 16, 0xFF97), (0x44, 16, 0xFF98), (0x45, 16, 0xFF99),
   (0x46, 16, 0xFF9A), (0x47, 16, 0xFF9B), (0x48, 16, 0xFF9C), (0x49, 16, 0xFF9D), (0x4A, 16, 0xFF9E)] ++
  [(0x51, 6, 0x3B), (0x52, 10, 0x3F9), (0x53, 16, 0xFF9F), (0x54, 16, 0xFFA0), (0x55, 16, 0xFFA1),
   (0x56, 16, 0xFFA2), (0x57, 16, 0xFFA3), (0x58, 16, 0xFFA4), (0x59, 16, 0xFFA5), (0x5A, 16, 0xFFA6)] ++
  [(0x61, 7, 0x79), (0x62, 11, 0x7F7), (0x63, 16, 0xFFA7), (0x64, 16, 0xFFA8), (0x65, 16, 0xFFA9),
   (0x66, 16, 0xFFAA), (0x67, 16, 0xFFAB), (0x68, 16, 0xFFAC), (0x69, 16, 0xFFAD), (0x6A, 16, 0xFFAE)] ++
  [(0x71, 7, 0x7A), (0x72, 11, 0x7F8), (0x73, 16, 0xFFAF), (0x74, 16, 0xFFB0), (0x75, 16, 0xFFB1),
   (0x76, 16, 0xFFB2), (0x77, 16, 0xFFB3), (0x78, 16, 0xFFB4), (0x79, 16, 0xFFB5), (0x7A, 16, 0xFFB6)] ++
  [(0x81, 8, 0xF9), (0x82, 16, 0xFFB7), (0x83, 16, 0xFFB8), (0x84, 16, 0xFFB9), (0x85, 16, 0xFFBA),
   (0x86, 16, 0xFFBB), (0x87, 16, 0xFFBC), (0x88, 16, 0xFFBD), (0x89, 16, 0xFFBE), (0x8A, 16, 0xFFBF)] ++
  [(0x91, 9, 0x1F7), (0x92, 16, 0xFFC0), (0x93, 16, 0xFFC1), (0x94, 16, 0xFFC2), (0x95, 16, 0xFFC3),
   (0x96, 16, 0xFFC4), (0x97, 16, 0xFFC5), (0x98, 16, 0xFFC6), (0x99, 16, 0xFFC7), (0x9A, 16, 0xFFC8)] ++
  [(0xA1, 9, 0x1F8), (0xA2, 16, 0xFFC9), (0xA3, 16, 0xFFCA), (0xA4, 16, 0xFFCB), (0xA5, 16, 0xFFCC),
   (0xA6, 16, 0xFFCD), (0xA7, 16, 0xFFCE), (0xA8, 16, 0xFFCF), (0xA9, 16, 0xFFD0), (0xAA, 16, 0xFFD1)] ++
  [(0xB1, 9, 0x1F9), (0xB2, 16, 0xFFD2), (0xB3, 16, 0xFFD3), (0xB4, 16, 0xFFD4), (0xB5, 16, 0xFFD5),
   (0xB6, 16, 0xFFD6), (0xB7, 16, 0xFFD7), (0xB8, 16, 0xFFD8), (0xB9, 16, 0xFFD9), (0xBA, 16, 0xFFDA)] ++
  [(0xC1, 9, 0x1FA), (0xC2, 16, 0xFFDB), (0xC3, 16, 0xFFDC), (0xC4, 16, 0xFFDD), (0xC5, 16, 0xFFDE),
   (0xC6, 16, 0xFFDF), (0xC7, 16, 0xFFE0), (0xC8, 16, 0xFFE1), (0xC9, 16, 0xFFE2), (0xCA, 16, 0xFFE3)] ++
  [(0xD1, 11, 0x7F9), (0xD2, 16, 0xFFE4), (0xD3, 16, 0xFFE5), (0xD4, 16, 0xFFE6), (0xD5, 16, 0xFFE7),
   (0xD6, 16, 0xFFE8), (0xD7, 16, 0xFFE9), (0xD8, 16, 0xFFEA), (0xD9, 16, 0xFFEB), (0xDA, 16, 0xFFEC)] ++
  [(0xE1, 14, 0x3FE0), (0xE2, 16, 0xFFED), (0xE3, 16, 0xFFEE), (0xE4, 16, 0xFFEF), (0xE5, 16, 0xFFF0),
   (0xE6, 16, 0xFFF1), (0xE7, 16, 0xFFF2), (0xE8, 16, 0xFFF3), (0xE9, 16, 0xFFF4), (0xEA, 16, 0xFFF5)] ++
  [(0xF1, 15, 0x7FC3), (0xF2, 16, 0xFFF6), (0xF3, 16, 0xFFF7), (0xF4, 16, 0xFFF8), (0xF5, 16, 0xFFF9),
   (0xF6, 16, 0xFFFA), (0xF7, 16, 0xFFFB), (0xF8, 16, 0xFFFC), (0xF9, 16, 0xFFFD), (0xFA, 16, 0xFFFE)]

/-- The listing of a lookup table (R82 to R85). -/
def lutCodes : HuffTable → List (Nat × Nat × Nat)
  | .dcLuma => dcLumaCodes
  | .acLuma => acLumaCodes
  | .dcChroma => dcChromaCodes
  | .acChroma => acChromaCodes

/-- The entry of a symbol with no code (R89, R106 (a)). -/
def noCode : LutEntry := ⟨17, 0#16⟩

/-- `Rom(lut[t])[sym]` (R22, R82 to R85). -/
def lutEntry (t : HuffTable) (sym : Byte) : LutEntry :=
  match (lutCodes t).find? (fun r => r.1 == sym.toNat) with
  | some (_, n, code) => ⟨n, BitVec.ofNat 16 code⟩
  | none => noCode

end Sys2Proof.Machine
end

