-- ==== Sys2Proof/Machine/Operands.lean ====
section
/-! DEFINITION. The operand forms: the arithmetic primitives of 00_scope.md R11, the colour mode and what it selects,
the component descriptors, the choice of a Huffman table, and the byte offset of a sample. -/
namespace Sys2Proof.Machine
open Sys2Proof

/-! ### Arithmetic primitives (R11, R217) -/

/-- `tdiv(a, b)`: toward zero. -/
def tdiv (a : Int) (b : Nat) : Int := a.sign * ((a.natAbs / b : Nat) : Int)

/-- `rha(n, d)`: nearest, ties away from zero. -/
def rha (n : Int) (d : Nat) : Int := n.sign * (((2 * n.natAbs + d) / (2 * d) : Nat) : Int)

/-- `floor_div(a, b)`. -/
def floorDiv (a : Int) (b : Nat) : Int := a.fdiv b

/-- `clamp(v, lo, hi)`. -/
def clampNat (v lo hi : Nat) : Nat := if v < lo then lo else if hi < v then hi else v

/-- `clamp(v, lo, hi)` on integers. -/
def clampInt (v lo hi : Int) : Int := if v < lo then lo else if hi < v then hi else v

/-- `bitlen(n)`: the number of bits needed to write `n`. -/
def bitlen (n : Nat) : Nat := if n = 0 then 0 else Nat.log2 n + 1

/-- The two bytes of a 16-bit value, most significant first (R48). -/
def halfBE (v : BitVec 16) : List Byte := [v.extractLsb' 8 8, v.extractLsb' 0 8]

/-- `(hi << 4) | lo`, the packed nibble pair of R73. -/
def nibbles (hi lo : Nat) : Byte := BitVec.ofNat 8 (hi <<< 4 ||| lo)

/-! ### Colour mode (R24, R28, R120) -/

/-- The colour mode a MODE value names. -/
def modeOf (m : BitVec 2) : ColorMode :=
  if m = 0#2 then .rgb else if m = 1#2 then .rgba else if m = 2#2 then .gray else .grayA

/-- `bpp`. -/
def bpp : ColorMode → Nat
  | .rgb => 3
  | .rgba => 4
  | .gray => 1
  | .grayA => 2

/-- `ncomp`. -/
def ncompOf : ColorMode → NComp
  | .rgb => .three
  | .rgba => .three
  | .gray => .one
  | .grayA => .one

/-- `ncomp` as a number. -/
def compCount : NComp → Nat
  | .one => 1
  | .three => 3

/-- The components in use, in scan order (R168). -/
def comps : NComp → List Comp
  | .one => [.y]
  | .three => [.y, .cb, .cr]

/-- The component after `c`, if one is in use (R168). -/
def nextComp : NComp → Comp → Option Comp
  | .three, .y => some .cb
  | .three, .cb => some .cr
  | .three, .cr => none
  | .one, _ => none

def State.colorMode (s : State) : ColorMode := modeOf s.mode

def State.ncomp (s : State) : NComp := ncompOf s.colorMode

/-! ### Component descriptors (R23) -/

/-- A component descriptor without its predictor, which State keeps as `pred`. -/
structure Descriptor where
  id : Nat
  h : Nat
  v : Nat
  tq : TableSet
  td : TableSet
  ta : TableSet
deriving DecidableEq, Repr

/-- `comp[c]` (R23). -/
def descriptor : Comp → Descriptor
  | .y => ⟨1, 1, 1, .luma, .luma, .luma⟩
  | .cb => ⟨2, 1, 1, .chroma, .chroma, .chroma⟩
  | .cr => ⟨3, 1, 1, .chroma, .chroma, .chroma⟩

def setNumber : TableSet → Nat
  | .luma => 0
  | .chroma => 1

def classNumber : TableClass → Nat
  | .dc => 0
  | .ac => 1

/-- The table named by a class and a destination (R105). -/
def tableOf : TableClass → TableSet → HuffTable
  | .dc, .luma => .dcLuma
  | .ac, .luma => .acLuma
  | .dc, .chroma => .dcChroma
  | .ac, .chroma => .acChroma

/-! ### One of three, one of two -/

def Triple.get {α : Type} (t : Triple α) : Comp → α
  | .y => t.y
  | .cb => t.cb
  | .cr => t.cr

def Triple.set {α : Type} (t : Triple α) (c : Comp) (v : α) : Triple α :=
  match c with
  | .y => { t with y := v }
  | .cb => { t with cb := v }
  | .cr => { t with cr := v }

def Pair.get {α : Type} (p : Pair α) : TableSet → α
  | .luma => p.luma
  | .chroma => p.chroma

/-! ### Block positions and sample offsets -/

/-- `off(x0, y0, x, y, k)` (R40, R121). -/
def sampleOffset (width bpp x0 y0 x y k : Nat) : Nat := ((y0 + y) * width + (x0 + x)) * bpp + k

/-- `WIDTH * HEIGHT * bpp`, what `STRICT_LEN` compares `SRC_LEN` with (R185). -/
def frameBytes (s : State) : Nat := s.width.toNat * s.height.toNat * bpp s.colorMode

/-- The block origins `0, 8, 16, ...` below a dimension (R166). -/
def origins (n : Nat) : List Nat := (List.range ((n + 7) / 8)).map (8 * ·)

/-- The block positions `(y0, x0)` in raster order (R166). -/
def positions (width height : Nat) : List (Nat × Nat) :=
  (origins height).flatMap (fun y0 => (origins width).map (fun x0 => (y0, x0)))

end Sys2Proof.Machine
end

