-- ==== Sys2Proof/Machine/Flags.lean ====
section
/-! DEFINITION. The flags of 10_state.md section 5 and what sets and reads them: the codes of `phase` and `err`, the
STATUS word, the order of checks at a write to `CMD`, and what a command that is turned away does. There are no
condition codes (R34). -/
namespace Sys2Proof.Machine
open Sys2Proof

/-- The code of a phase (R20). -/
def Phase.code : Phase → BitVec 2
  | .start => 0#2
  | .headersWritten => 1#2
  | .scanningBlocks => 2#2
  | .finalized => 3#2

/-- The code of an error (R180). -/
def ErrCode.code : ErrCode → BitVec 4
  | .none => 0#4
  | .sinkWriteFailure => 1#4
  | .huffmanLengthError => 2#4
  | .dhtCountMismatch => 3#4
  | .notConfigured => 4#4
  | .illegalCommand => 5#4
  | .emptyBuffer => 6#4
  | .lenError => 7#4

/-- The errors of source class (b) (R180, R182). -/
def ErrCode.isFatal : ErrCode → Bool
  | .huffmanLengthError => true
  | .dhtCountMismatch => true
  | .none => false
  | .sinkWriteFailure => false
  | .notConfigured => false
  | .illegalCommand => false
  | .emptyBuffer => false
  | .lenError => false

/-- The STATUS word (R30): `fatal`, `err`, `phase`, `cfg_valid`, `busy` from bit 8 down to bit 0. -/
def statusWord (s : State) : BitVec 9 :=
  BitVec.ofBool s.fatal ++ s.err.code ++ s.phase.code ++ BitVec.ofBool s.cfgValid ++ BitVec.ofBool s.busy

/-- The checks at a write of `k` to `CMD`, in their order (R159, R189). -/
def commandVerdict (k : BitVec 8) (s : State) : Verdict :=
  if s.busy then .ignored
  else if s.fatal then .locked
  else if k = 0x01#8 then .accepted
  else if k = 0x02#8 then
    if !s.cfgValid then .refused .notConfigured
    else if s.params.strictLen && decide (s.srcLen.toNat < frameBytes s) then .refused .lenError
    else if s.srcLen = 0#36 ∧ s.width ≠ 0#16 ∧ s.height ≠ 0#16 then .refused .emptyBuffer
    else .accepted
  else .refused .illegalCommand

/-- What a command that is not accepted does: a refusal writes `err` and nothing else (R187); while busy or after a
fatal error nothing changes (R175, R188). -/
def turnAway (v : Verdict) (s : State) : State :=
  match v with
  | .refused e => { s with err := e }
  | .ignored => s
  | .locked => s
  | .accepted => s

end Sys2Proof.Machine
end

