-- ==== Sys2Proof/Machine/Ops.lean ====
section
/-! DEFINITION. The shared operations over memory and registers: the image memory, sequencing of operations that may
raise, raising an error and recovering from one, the sink write, the bit accumulator, the segment write, and the host's
register port. -/
namespace Sys2Proof.Machine
open Sys2Proof

/-! ### Image memory (R36, R40, R41) -/

/-- The number of offsets, `2^ADDR_W` (R7, R40). -/
def imageSpace : Nat := 2 ^ 36

/-- What an offset the host has never written reads as: DESIGN CHOICE (log 10). -/
def Memory.unlisted : Byte := 0#8

/-- `MemRead(img, addr, 1)` (R41). -/
def Memory.read (m : Memory) (a : Nat) : Byte :=
  match m.cells.find? (fun c => c.1 == a) with
  | some c => c.2
  | none => Memory.unlisted

/-- The cell list with one offset rewritten. -/
def putCell (a : Nat) (b : Byte) : List Host.Cell → List Host.Cell
  | [] => if b = Memory.unlisted then [] else [(a, b)]
  | (x, v) :: r =>
    if a < x then
      if b = Memory.unlisted then (x, v) :: r else (a, b) :: (x, v) :: r
    else if a = x then
      if b = Memory.unlisted then r else (a, b) :: r
    else (x, v) :: putCell a b r

/-- One byte placed by the host. -/
def Memory.write (m : Memory) (a : Nat) (b : Byte) : Memory := ⟨putCell a b m.cells⟩

/-- Bytes placed by the host from an offset on. -/
def Memory.place (m : Memory) (base : Nat) : List Byte → Memory
  | [] => m
  | b :: bs => (m.write base b).place (base + 1) bs

/-- Offsets strictly rise from `lo` on, lie inside the space, and no cell holds the unlisted value. -/
def cellsOk : Nat → List Host.Cell → Bool
  | _, [] => true
  | lo, (a, v) :: r => decide (lo ≤ a) && decide (a < imageSpace) && decide (v ≠ Memory.unlisted) && cellsOk (a + 1) r

/-- The canonical form of the image memory. -/
def Memory.wf (m : Memory) : Bool := cellsOk 0 m.cells

/-! ### Operations that may raise -/

/-- `m` and then `k` on its value, unless `m` raised: a raise stops every enclosing operation (R186). -/
def Run.bind {α β : Type} (m : Run α) (k : α → State → Run β) : Run β :=
  match m with
  | .done v s => k v s
  | .raised s => .raised s

/-- The operation over each item of a list in order. -/
def forEach {α : Type} (f : α → State → Run Unit) : List α → State → Run Unit
  | [], s => .done () s
  | a :: as, s => (f a s).bind (fun _ s => forEach f as s)

/-- TAKING AN ERROR, `raise E` (R178, R186): `busy` falls, the code is recorded, a fatal error sets `fatal`, and
nothing else changes. No state is saved and control goes nowhere. -/
def raiseError (e : ErrCode) (s : State) : State :=
  { s with busy := false, err := e, fatal := s.fatal || e.isFatal }

/-- An operation that stops with error `e`. -/
def Run.raise {α : Type} (e : ErrCode) (s : State) : Run α := .raised (raiseError e s)

/-- RECOVERING FROM ONE (R32, R190): there is no return instruction; an accepted command clears `err`. -/
def clearError (s : State) : State := { s with err := .none }

/-- The next state of an internal operation: its value goes to `result`; after a raise there is none. -/
def finish (r : Run OpResult) : Host.Outcome State Fault Refusal :=
  match r with
  | .done v s => .next { s with result := v }
  | .raised s => .next { s with result := .none }

/-- `finish` for an operation that returns nothing. -/
def finishUnit (r : Run Unit) : Host.Outcome State Fault Refusal :=
  finish (r.bind (fun _ s => .done .none s))

/-! ### The sink (R45, R46, R95) -/

/-- SINK_BYTE(b): on `ok` the byte is appended; on `fail` it is not, and SinkWriteFailure is raised (R46, R95). -/
def sinkByte (b : Byte) (s : State) : Run Unit :=
  match s.sinkAnswers with
  | [] => .done () { s with out := s.out ++ [b] }
  | .ok :: as => .done () { s with out := s.out ++ [b], sinkAnswers := as }
  | .fail :: as => .raise .sinkWriteFailure { s with sinkAnswers := as }

/-- Several bytes, one write each, in order (R45). -/
def sinkBytes (bs : List Byte) (s : State) : Run Unit := forEach sinkByte bs s

/-! ### The bit accumulator (R15, R16, R96) -/

/-- One byte leaves the accumulator: it is written, a stuffing byte follows an `FF`, and then the byte is shifted out
(the loop body of R96). -/
def flushByte (s : State) : Run Unit :=
  let b := s.acc.extractLsb' 24 8
  (sinkByte b s).bind fun _ s =>
    (if b = 0xFF#8 then sinkByte 0x00#8 s else .done () s).bind fun _ s =>
      .done () { s with acc := s.acc <<< 8, nbits := s.nbits - 8 }

/-- The loop of R96, `while nbits >= 8`; the fuel is `nbits`, which falls at every round. -/
def flushLoop : Nat → State → Run Unit
  | 0, s => .done () s
  | n + 1, s => if s.nbits < 8 then .done () s else (flushByte s).bind (fun _ s => flushLoop n s)

/-- The accumulator with the `length` low bits of `code` merged behind the pending bits (R96). Where they do not fit
the 32 bits, which no rule reaches, it is a free value (log 15). -/
def mergeBits (acc : BitVec 32) (nbits : Nat) (code : BitVec 16) (length : Nat) : BitVec 32 :=
  if nbits + length ≤ 32 then
    acc ||| (BitVec.ofNat 32 (code.toNat % 2 ^ length) <<< (32 - nbits - length))
  else Config.accOverflow acc nbits (code.toNat % 2 ^ length) length

/-- WRITE_BITS(code, length) (R96, R97). Entered with more than 7 pending bits it runs the same pseudocode (log 27), and
the sum `nbits + length` is then not cut to the 5 bits of R16 and R216: DESIGN CHOICE (log 33). -/
def writeBits (code : BitVec 16) (length : Nat) (s : State) : Run Unit :=
  if length = 0 then .done () s
  else
    let s := { s with acc := mergeBits s.acc s.nbits code length, nbits := s.nbits + length }
    flushLoop s.nbits s

/-! ### Segments (R64, R100) -/

/-- The bytes of WRITE_SEGMENT(marker, data). -/
def segmentBytes (marker : Byte) (data : Option (List Byte)) : List Byte :=
  match data with
  | none => [0xFF#8, marker]
  | some d => [0xFF#8, marker] ++ halfBE (BitVec.ofNat 16 (d.length + 2)) ++ d

/-- WRITE_SEGMENT(marker, data): straight to the sink, past the accumulator (R100, R102). -/
def writeSegment (marker : Byte) (data : Option (List Byte)) (s : State) : Run Unit :=
  sinkBytes (segmentBytes marker data) s

/-! ### The host's register port (R25 to R30, R175) -/

/-- A read of a register, zero-extended to the widest one. `CMD` reads as 0. -/
def readReg (r : HostReg) (s : State) : BitVec 36 :=
  match r with
  | .cmd => 0#36
  | .quality => s.quality.setWidth 36
  | .width => s.width.setWidth 36
  | .height => s.height.setWidth 36
  | .mode => s.mode.setWidth 36
  | .srcLen => s.srcLen
  | .status => (statusWord s).setWidth 36

/-- A write of an operand register. Every write is ignored while `busy = 1` (R175); a write of STATUS always is (R30);
a write of CMD is a command and changes no register (R25). -/
def writeReg (w : HostWrite) (s : State) : State :=
  if s.busy then s
  else
    match w with
    | .cmd _ => s
    | .quality v => { s with quality := v }
    | .width v => { s with width := v }
    | .height v => { s with height := v }
    | .mode v => { s with mode := v }
    | .srcLen v => { s with srcLen := v }
    | .status _ => s

/-- The host places bytes in the image memory (R36, R56, R207). -/
def placeImage (base : Nat) (data : List Byte) (s : State) : Host.Outcome State Fault Refusal :=
  if s.busy then .refused .imageWriteWhileBusy
  else if base + data.length ≤ imageSpace then .next { s with img := s.img.place base data }
  else .fault (.imageOffsetOutside (base + data.length - 1))

end Sys2Proof.Machine
end

