-- ==== Sys2Proof/Machine/Packer.lean ====
section
/-! DEFINITION. The family of 40_bit_packer.md: SINK_BYTE, WRITE_BITS, PAD_BYTE, WRITE_SEGMENT. -/
namespace Sys2Proof.Machine
open Sys2Proof

/-- SINK_BYTE(b) (R95). -/
def execSinkByte (b : Byte) (s : State) : Host.Outcome State Fault Refusal :=
  finishUnit (sinkByte b s)

/-- WRITE_BITS(code, length) (R96, R97). -/
def execWriteBits (code : BitVec 16) (length : Fin 17) (s : State) : Host.Outcome State Fault Refusal :=
  finishUnit (writeBits code length.val s)

/-- PAD_BYTE is WRITE_BITS(0x7F, 7) (R94, R99). -/
def padByte (s : State) : Run Unit := writeBits 0x7F#16 7 s

/-- PAD_BYTE() (R99). -/
def execPadByte (s : State) : Host.Outcome State Fault Refusal :=
  finishUnit (padByte s)

/-- WRITE_SEGMENT(marker, data) (R100). More than 65533 data bytes are outside the operation's domain (R100 (b),
U13, treatment `refuse`). -/
def execWriteSegment (marker : Byte) (data : Option (List Byte)) (s : State) : Host.Outcome State Fault Refusal :=
  if segmentDataOk data then finishUnit (writeSegment marker data s)
  else .refused (.segmentTooLong (data.getD []).length)

end Sys2Proof.Machine
end

