-- ==== Sys2Proof/Machine/Coder.lean ====
section
/-! DEFINITION. The family of 41_coefficient_coder.md: BUILD_HUFF_LUT, HUFFMAN_ENCODE, MAG_CATEGORY, WRITE_BLOCK, and
the two fixed AC symbols EOB and ZRL. -/
namespace Sys2Proof.Machine
open Sys2Proof

/-! ### BUILD_HUFF_LUT (R106) -/

/-- What the construction has done so far: the table, the 16-bit code counter, the number of symbols placed. -/
structure LutBuild where
  lut : List LutEntry
  code : BitVec 16
  k : Nat
deriving DecidableEq, Repr

/-- `HUFFVAL[k]`; past the end of the list, where `sum(BITS) = len(HUFFVAL)` fails, a free value (log 14). -/
def symbolAt (bits : Counts) (vals : List Byte) (k : Nat) : Byte :=
  if k < vals.length then vals.getD k 0#8 else Config.missingSymbol bits vals k

/-- The inner loop of R106: `n` codes of length `l`. -/
def placeCodes (bits : Counts) (vals : List Byte) (l : Nat) : Nat → LutBuild → LutBuild
  | 0, st => st
  | n + 1, st =>
    placeCodes bits vals l n
      { lut := st.lut.set (symbolAt bits vals st.k).toNat ⟨l, st.code⟩, code := st.code + 1#16, k := st.k + 1 }

/-- The outer loop of R106 over a list of lengths. -/
def placeLengths (bits : Counts) (vals : List Byte) : List Nat → LutBuild → LutBuild
  | [], st => st
  | l :: ls, st =>
    let st := placeCodes bits vals l (bits.getD (l - 1) 0#8).toNat st
    placeLengths bits vals ls { st with code := st.code <<< 1 }

/-- BUILD_HUFF_LUT(BITS, HUFFVAL) (R106). Where `sum(BITS)` is not the number of symbols, which R106 excludes, the
construction still runs: a missing symbol is a free value, and a symbol beyond the sum gets no code. DESIGN CHOICE
(log 14). -/
def buildHuffLut (bits : Counts) (vals : List Byte) : List LutEntry :=
  (placeLengths bits vals ((List.range 16).map (· + 1)) ⟨List.replicate 256 noCode, 0#16, 0⟩).lut

/-- BUILD_HUFF_LUT as an operation (R106). -/
def execBuildHuffLut (bits : Counts) (vals : List Byte) (s : State) : Host.Outcome State Fault Refusal :=
  finish (.done (.lut (buildHuffLut bits vals)) s)

/-! ### HUFFMAN_ENCODE (R108) -/

/-- HUFFMAN_ENCODE(sym, t) (R108). -/
def huffmanEncode (sym : Byte) (t : HuffTable) (s : State) : Run Unit :=
  let e := lutEntry t sym
  if 16 < e.length then .raise .huffmanLengthError s else writeBits e.code e.length s

/-- HUFFMAN_ENCODE as an operation (R108). -/
def execHuffmanEncode (sym : Byte) (t : HuffTable) (s : State) : Host.Outcome State Fault Refusal :=
  finishUnit (huffmanEncode sym t s)

/-! ### MAG_CATEGORY (R110) -/

/-- The size, or category, of a value (R14, R73, R110). -/
def magSize (v : Int) : Nat := bitlen v.natAbs

/-- The magnitude bits of a value as a number: `v`, or the `size` low bits of the two's complement of `v - 1` (R110). -/
def magBits (v : Int) : Nat :=
  if v = 0 then 0
  else if 0 < v then v.toNat % 2 ^ magSize v
  else ((v - 1) % (2 ^ magSize v : Nat)).toNat

/-- MAG_CATEGORY(v) (R110). -/
def execMagCategory (v : Int) (s : State) : Host.Outcome State Fault Refusal :=
  finish (.done (.magnitude (magSize v) (magBits v)) s)

/-! ### WRITE_BLOCK (R113) -/

/-- A symbol's code and then the magnitude bits of the value it announces (R109). -/
def writeValue (sym : Byte) (t : HuffTable) (v : Int) (s : State) : Run Unit :=
  (huffmanEncode sym t s).bind fun _ s => writeBits (BitVec.ofNat 16 (magBits v)) (magSize v) s

/-- ZRL: the symbol `0xF0` (R114). -/
def zrl (ta : TableSet) (s : State) : Run Unit := huffmanEncode 0xF0#8 (tableOf .ac ta) s

/-- EOB: the symbol `0x00` (R115). -/
def eob (ta : TableSet) (s : State) : Run Unit := huffmanEncode 0x00#8 (tableOf .ac ta) s

/-- ZRL, `n` times (R114). -/
def zrlTimes (ta : TableSet) (n : Nat) (s : State) : Run Unit := forEach (fun _ s => zrl ta s) (List.replicate n ()) s

/-- A non-zero AC coefficient after `run` zeros: one ZRL for every whole sixteen of them, then the packed symbol and
the magnitude bits; a size above 15 cannot be packed and raises (R113, R114, R117 (c)). -/
def writeAc (ta : TableSet) (run : Nat) (v : Int) (s : State) : Run Unit :=
  (zrlTimes ta (run / 16) s).bind fun _ s =>
    if 15 < magSize v then .raise .huffmanLengthError s
    else writeValue (nibbles (run % 16) (magSize v)) (tableOf .ac ta) v s

/-- The AC scan of R113 over coefficients in zig-zag order, with `run` zeros counted so far; a run left at the end
is closed by EOB. -/
def scanAc (ta : TableSet) : List Coef → Nat → State → Run Unit
  | [], run, s => if 0 < run then eob ta s else .done () s
  | v :: vs, run, s =>
    if v = 0#32 then scanAc ta vs (run + 1) s
    else (writeAc ta run v.toInt s).bind fun _ s => scanAc ta vs 0 s

/-- The 63 AC coefficients of a block in zig-zag order (R113, R118). -/
def acInScanOrder (block : Block Coef) : List Coef :=
  ((List.range 63).map (· + 1)).map (fun k => block.getD (unzigzag k) 0#32)

/-- The DC coefficient of a block: index 0 (R14). -/
def dcOf (block : Block Coef) : Coef := block.getD 0 0#32

/-- `diff = block[0] - prev_dc`, with no wrap-around (R112). -/
def dcDiff (block : Block Coef) (prev : Coef) : Int := (dcOf block).toInt - prev.toInt

/-- WRITE_BLOCK(block, prev_dc, td, ta), which returns `block[0]` (R112, R113). -/
def writeBlock (block : Block Coef) (prev : Coef) (td ta : TableSet) (s : State) : Run Coef :=
  let diff := dcDiff block prev
  (writeValue (BitVec.ofNat 8 (magSize diff)) (tableOf .dc td) diff s).bind fun _ s =>
    (scanAc ta (acInScanOrder block) 0 s).bind fun _ s => .done (dcOf block) s

/-- WRITE_BLOCK as an operation (R113). -/
def execWriteBlock (block : Block Coef) (prevDc : Coef) (td ta : TableSet) (s : State) :
    Host.Outcome State Fault Refusal :=
  finish ((writeBlock block prevDc td ta s).bind fun v s => .done (.coef v) s)

/-- EOB(ta) (R94, R115). -/
def execEob (ta : TableSet) (s : State) : Host.Outcome State Fault Refusal :=
  finishUnit (eob ta s)

/-- ZRL(ta) (R94, R114). -/
def execZrl (ta : TableSet) (s : State) : Host.Outcome State Fault Refusal :=
  finishUnit (zrl ta s)

end Sys2Proof.Machine
end

