-- ==== Sys2Proof/Machine/Quantizer.lean ====
section
/-! DEFINITION. The family of 43_quantizer.md: FDCT, BUILD_QTABLE, QUANTIZE. -/
namespace Sys2Proof.Machine
open Sys2Proof

/-! ### FDCT under its contract (R132 to R136) -/

/-- The sum of the 64 samples. -/
def sampleSum (samp : Block Byte) : Nat := (samp.toList.map BitVec.toNat).sum

/-- Every sample has one value (R135 (b)). -/
def isConstant (samp : Block Byte) : Bool := samp.toList.all (fun v => v == samp.getD 0 0#8)

/-- The bound of R136 on an AC entry. -/
def acBound : Int := 8184

/-- Any transform that meets R135 and R136, and no other: entry 0 is the sum less 8192; on a constant block the others
are 0; elsewhere they are free within the bound (log 7). -/
def fdctContract (samp : Block Byte) : Block Coef :=
  Fixed.ofFn 64 fun i =>
    if i = 0 then BitVec.ofInt 32 ((sampleSum samp : Int) - 8192)
    else if isConstant samp then 0#32
    else BitVec.ofInt 32 (clampInt (Config.fdctAc samp i) (-acBound) acBound)

/-! ### FDCT_REF (R137) -/

/-- `descale(x, n)`. -/
def descale (x : Int) (n : Nat) : Int := floorDiv (x + 2 ^ (n - 1)) (2 ^ n)

/-- BUTTERFLY(s[0..7], bias): the results `e0 o1 e2 o3 e4 o5 e6 o7`, in the order of their index. -/
def butterfly (s : Nat → Int) (bias : Int) : List Int :=
  let t0 := s 0 + s 7
  let t7 := s 0 - s 7
  let t1 := s 1 + s 6
  let t6 := s 1 - s 6
  let t2 := s 2 + s 5
  let t5 := s 2 - s 5
  let t3 := s 3 + s 4
  let t4 := s 3 - s 4
  let t10 := t0 + t3
  let t13 := t0 - t3
  let t11 := t1 + t2
  let t12 := t1 - t2
  let z := (t12 + t13) * 4433
  let z3 := t4 + t6
  let z4 := t5 + t7
  let z5 := (z3 + z4) * 9633
  let z3 := z5 - z3 * 16069
  let z4 := z5 - z4 * 3196
  let z1 := -(t4 + t7) * 7373
  let z2 := -(t5 + t6) * 20995
  [t10 + t11 - bias, t7 * 12299 + z1 + z4, z + t13 * 6270, t6 * 25172 + z2 + z3,
    t10 - t11, t5 * 16819 + z2 + z4, z - t12 * 15137, t4 * 2446 + z1 + z3]

/-- Entry `i` of a row of the row pass. -/
def scaleRow (i : Nat) (e : Int) : Int := if i % 4 = 0 then e * 4 else descale e 11

/-- Entry `i` of a column of the column pass. -/
def scaleCol (i : Nat) (e : Int) : Int := if i % 4 = 0 then descale e 2 else descale e 15

/-- The row pass: row `r` of `w`. -/
def rowPass (samp : Block Byte) (r : Nat) : List Int :=
  (butterfly (fun x => ((samp.getD (8 * r + x) 0#8).toNat : Int)) 1024).mapIdx scaleRow

/-- The column pass over rows of `w`: column `c` of the result. -/
def colPass (w : List (List Int)) (c : Nat) : List Int :=
  (butterfly (fun y => (w.getD y []).getD c 0) 0).mapIdx scaleCol

/-- FDCT_REF(samp). -/
def fdctRef (samp : Block Byte) : Block Coef :=
  let w := (List.range 8).map (rowPass samp)
  let cols := (List.range 8).map (colPass w)
  Fixed.ofFn 64 fun i => BitVec.ofInt 32 ((cols.getD (i % 8) []).getD (i / 8) 0)

/-- The configured forward transform (R132). -/
def fdct (choice : FdctChoice) (samp : Block Byte) : Block Coef :=
  match choice with
  | .contract => fdctContract samp
  | .reference => fdctRef samp

/-- FDCT(samp): the result goes to `raw` (R132). -/
def fdctInto (samp : Block Byte) (s : State) : State := { s with raw := fdct s.params.fdct samp }

/-- FDCT as an operation (R132). -/
def execFdct (samp : Block Byte) (s : State) : Host.Outcome State Fault Refusal :=
  finish (.done .none (fdctInto samp s))

/-! ### BUILD_QTABLE (R139) -/

/-- The scale of a quality (R138, R139). -/
def qualityScale (quality : Byte) : Nat :=
  let q := clampNat quality.toNat 1 100
  if q < 50 then 5000 / q else 200 - 2 * q

/-- One entry of BUILD_QTABLE (R139), in unbounded arithmetic. R139 and R216 speak of the two standard tables, whose
entries are at most 121; on any other entry the formula runs all the same: DESIGN CHOICE (log 32). -/
def qtableEntry (std : Byte) (quality : Byte) : Byte :=
  BitVec.ofNat 8 (clampNat ((std.toNat * qualityScale quality + 50) / 100) 1 255)

/-- BUILD_QTABLE(std, quality) (R139). -/
def buildQtable (std : Block Byte) (quality : Byte) : Block Byte :=
  Fixed.ofFn 64 (fun i => qtableEntry (std.getD i 0#8) quality)

/-- BUILD_QTABLE as an operation (R139). -/
def execBuildQtable (std : Block Byte) (quality : Byte) (s : State) : Host.Outcome State Fault Refusal :=
  finish (.done (.table (buildQtable std quality)) s)

/-! ### QUANTIZE (R142, R143) -/

/-- One entry of QUANTIZE. A table entry 0, which R142 excludes, gives a free value (log 13). -/
def quantizeEntry (mode : Div8Mode) (raw : Coef) (t : Byte) : Coef :=
  if t = 0#8 then Config.quotientByZero raw
  else
    match mode with
    | .trunc => BitVec.ofInt 32 (rha (tdiv raw.toInt 8) t.toNat)
    | .real => BitVec.ofInt 32 (rha raw.toInt (8 * t.toNat))

/-- QUANTIZE(raw, table) (R142, R143). -/
def quantize (mode : Div8Mode) (raw : Block Coef) (table : Block Byte) : Block Coef :=
  Fixed.ofFn 64 (fun i => quantizeEntry mode (raw.getD i 0#32) (table.getD i 0#8))

/-- QUANTIZE: the result goes to `q` (R19, R142). -/
def quantizeInto (raw : Block Coef) (table : Block Byte) (s : State) : State :=
  { s with q := quantize s.params.div8Mode raw table }

/-- QUANTIZE as an operation (R142, R143). -/
def execQuantize (raw : Block Coef) (table : Block Byte) (s : State) : Host.Outcome State Fault Refusal :=
  finish (.done .none (quantizeInto raw table s))

end Sys2Proof.Machine
end

