-- ==== Sys2Proof/Machine/Sampler.lean ====
section
/-! DEFINITION. The family of 42_sampler_color.md: SAMPLE_BLOCK and COLOR_TRANSFORM. -/
namespace Sys2Proof.Machine
open Sys2Proof

/-! ### COLOR_TRANSFORM, COLOR_ARITH = exact (R126) -/

def exactY (r g b : Byte) : Nat := (2990 * r.toNat + 5870 * g.toNat + 1140 * b.toNat) / 10000

/-- The numerator of Cb is never negative (R128 (b)), so the natural subtraction is the integer one. -/
def exactCb (r g b : Byte) : Nat := (5000 * b.toNat + 1280000 - (1687 * r.toNat + 3313 * g.toNat)) / 10000

/-- The numerator of Cr is never negative (R128 (b)), so the natural subtraction is the integer one. -/
def exactCr (r g b : Byte) : Nat := (5000 * r.toNat + 1280000 - (4187 * g.toNat + 813 * b.toNat)) / 10000

/-! ### COLOR_TRANSFORM, COLOR_ARITH = binary32 (R127)
Every constant, product and sum of R127 is a multiple of `2^-27` below `2^9`, so a value is held as the integer number
of `2^-27`, and rounding to binary32 is rounding that integer to 24 significant bits (log 19). -/

/-- `q / d` rounded to nearest, ties to even. -/
def roundHalfEven (n d : Nat) : Nat :=
  let q := n / d
  let r := n % d
  if 2 * r < d then q else if d < 2 * r then q + 1 else if q % 2 = 0 then q else q + 1

/-- `fl`: round to the nearest binary32, ties to even, in units of `2^-27`. -/
def fl (n : Int) : Int :=
  let a := n.natAbs
  if bitlen a ≤ 24 then n
  else
    let k := bitlen a - 24
    n.sign * ((roundHalfEven a (2 ^ k) * 2 ^ k : Nat) : Int)

/-- `c(d)`, the binary32 nearest to the constant `d = n / 10000`, in units of `2^-27`. `k` is the place of its last bit:
the significand `d * 2^k` lies between `2^23` and `2^24`. -/
def constF (n k : Nat) : Int := ((roundHalfEven (n * 2 ^ k) 10000 * 2 ^ (27 - k) : Nat) : Int)

def c0299 : Int := constF 2990 25
def c0587 : Int := constF 5870 24
def c0114 : Int := constF 1140 27
def c01687 : Int := constF 1687 26
def c03313 : Int := constF 3313 25
def c05 : Int := constF 5000 24
def c04187 : Int := constF 4187 25
def c00813 : Int := constF 813 27

/-- The constant 128 in units of `2^-27`. -/
def c128 : Int := 128 * 2 ^ 27

/-- Truncation toward zero to a whole number. -/
def truncF (n : Int) : Int := tdiv n (2 ^ 27)

def binaryY (r g b : Byte) : Int :=
  truncF (fl (fl (fl (c0299 * r.toNat) + fl (c0587 * g.toNat)) + fl (c0114 * b.toNat)))

def binaryCb (r g b : Byte) : Int :=
  truncF (fl (fl (fl (fl (-c01687 * r.toNat) - fl (c03313 * g.toNat)) + fl (c05 * b.toNat)) + c128))

def binaryCr (r g b : Byte) : Int :=
  truncF (fl (fl (fl (fl (c05 * r.toNat) - fl (c04187 * g.toNat)) - fl (c00813 * b.toNat)) + c128))

/-- COLOR_TRANSFORM(R, G, B) (R126, R127). -/
def colorTransform (arith : ColorArith) (r g b : Byte) : Byte × Byte × Byte :=
  match arith with
  | .exact => (BitVec.ofNat 8 (exactY r g b), BitVec.ofNat 8 (exactCb r g b), BitVec.ofNat 8 (exactCr r g b))
  | .binary32 => (BitVec.ofInt 8 (binaryY r g b), BitVec.ofInt 8 (binaryCb r g b), BitVec.ofInt 8 (binaryCr r g b))

/-- COLOR_TRANSFORM as an operation (R126, R127). -/
def execColorTransform (r g b : Byte) (s : State) : Host.Outcome State Fault Refusal :=
  let t := colorTransform s.params.colorArith r g b
  finish (.done (.ycc t.1 t.2.1 t.2.2) s)

/-! ### SAMPLE_BLOCK (R123) -/

/-- `fetch(off)` (R122): an offset at or past the buffer length is replaced by the buffer's last byte. With an empty
buffer, which R122 excludes, the byte is a free value (log 12). -/
def fetch (s : State) (off : Nat) : Byte :=
  if off < s.srcLen.toNat then s.img.read off
  else if 0 < s.srcLen.toNat then s.img.read (s.srcLen.toNat - 1)
  else Config.noImageByte s.freeCount off

/-- Channel `k` of the pixel at natural index `i` of the block at `(x0, y0)` (R121, R122). -/
def sampleAt (s : State) (x0 y0 i k : Nat) : Byte :=
  fetch s (sampleOffset s.width.toNat (bpp s.colorMode) x0 y0 (i % 8) (i / 8) k)

/-- Position `i` of the block after the colour transform (R123). -/
def yccAt (s : State) (x0 y0 i : Nat) : Byte × Byte × Byte :=
  colorTransform s.params.colorArith (sampleAt s x0 y0 i 0) (sampleAt s x0 y0 i 1) (sampleAt s x0 y0 i 2)

/-- The component blocks of the position `(x0, y0)`. With one component only Y is produced and the other two blocks
keep what they held (R123, R130). -/
def sampledBlocks (s : State) (x0 y0 : Nat) : Triple (Block Byte) :=
  match s.ncomp with
  | .three =>
    ⟨Fixed.ofFn 64 (fun i => (yccAt s x0 y0 i).1), Fixed.ofFn 64 (fun i => (yccAt s x0 y0 i).2.1),
      Fixed.ofFn 64 (fun i => (yccAt s x0 y0 i).2.2)⟩
  | .one => { s.samp with y := Fixed.ofFn 64 (fun i => sampleAt s x0 y0 i 0) }

/-- SAMPLE_BLOCK(x0, y0) (R123). It draws a free value only when the buffer is empty (log 12). -/
def sampleBlock (x0 y0 : Nat) (s : State) : State :=
  { s with
    samp := sampledBlocks s x0 y0
    freeCount := if s.srcLen = 0#36 then s.freeCount + 1 else s.freeCount }

/-- SAMPLE_BLOCK as an operation (R123). Issued alone at an origin outside the operand range of R123, no multiple of 8
or past the frame, it runs the same pseudocode: DESIGN CHOICE (log 30). -/
def execSampleBlock (x0 y0 : Nat) (s : State) : Host.Outcome State Fault Refusal :=
  finish (.done .none (sampleBlock x0 y0 s))

end Sys2Proof.Machine
end

