-- ==== Sys2Proof/Machine/Segments.lean ====
section
/-! DEFINITION. The family of 44_segment_builder.md, BUILD_APP0 to BUILD_SOS, and the seven marker emissions of
40_bit_packer.md R101. -/
namespace Sys2Proof.Machine
open Sys2Proof

/-! ### The data of each segment -/

/-- BUILD_APP0() (R66, R147). -/
def app0Data : List Byte :=
  [0x4A#8, 0x46#8, 0x49#8, 0x46#8, 0x00#8, 0x01#8, 0x02#8, 0x00#8, 0x00#8, 0x01#8, 0x00#8, 0x01#8, 0x00#8, 0x00#8]

/-- The bytes of one component in SOF0 (R67). -/
def sof0Component (c : Comp) : List Byte :=
  let d := descriptor c
  [BitVec.ofNat 8 d.id, nibbles d.h d.v, BitVec.ofNat 8 (setNumber d.tq)]

/-- BUILD_SOF0(HEIGHT, WIDTH, ncomp, comp) (R67, R148). -/
def sof0Data (height width : BitVec 16) (n : NComp) : List Byte :=
  [0x08#8] ++ halfBE height ++ halfBE width ++ [BitVec.ofNat 8 (compCount n)] ++ (comps n).flatMap sof0Component

/-- BUILD_DQT(tq, table) (R68, R150). -/
def dqtData (tq : TableSet) (table : Block Byte) : List Byte :=
  nibbles 0 (setNumber tq) :: (List.range 64).map (fun k => table.getD (unzigzag k) 0#8)

/-- The sum of the counts (R152). -/
def countSum (bits : Counts) : Nat := (bits.toList.map BitVec.toNat).sum

/-- The bytes of a DHT segment, without the check of R152. -/
def dhtBytes (cls : TableClass) (dest : TableSet) (bits : Counts) (vals : List Byte) : List Byte :=
  nibbles (classNumber cls) (setNumber dest) :: bits.toList ++ vals

/-- BUILD_DHT(class, dest, BITS, HUFFVAL): counts that do not sum to the number of values raise (R69, R152). Issued alone
with a specification that is none of the four, it runs the same pseudocode, also past the 179 bytes of R146: DESIGN
CHOICE (log 34). -/
def dhtData (cls : TableClass) (dest : TableSet) (bits : Counts) (vals : List Byte) (s : State) : Run (List Byte) :=
  if countSum bits ≠ vals.length then .raise .dhtCountMismatch s
  else .done (dhtBytes cls dest bits vals) s

/-- The bytes of one component in SOS (R70). -/
def sosComponent (c : Comp) : List Byte :=
  let d := descriptor c
  [BitVec.ofNat 8 d.id, nibbles (setNumber d.td) (setNumber d.ta)]

/-- BUILD_SOS(ncomp, comp) (R70, R154). -/
def sosData (n : NComp) : List Byte :=
  [BitVec.ofNat 8 (compCount n)] ++ (comps n).flatMap sosComponent ++ [0x00#8, 0x3F#8, 0x00#8]

/-! ### The builders as operations -/

/-- BUILD_APP0 as an operation (R147). -/
def execBuildApp0 (s : State) : Host.Outcome State Fault Refusal :=
  finish (.done (.bytes app0Data) s)

/-- BUILD_SOF0 as an operation (R148). -/
def execBuildSof0 (height width : BitVec 16) (n : NComp) (s : State) : Host.Outcome State Fault Refusal :=
  finish (.done (.bytes (sof0Data height width n)) s)

/-- BUILD_DQT as an operation (R150). -/
def execBuildDqt (tq : TableSet) (table : Block Byte) (s : State) : Host.Outcome State Fault Refusal :=
  finish (.done (.bytes (dqtData tq table)) s)

/-- BUILD_DHT as an operation (R152). -/
def execBuildDht (cls : TableClass) (dest : TableSet) (bits : Counts) (vals : List Byte) (s : State) :
    Host.Outcome State Fault Refusal :=
  finish ((dhtData cls dest bits vals s).bind fun d s => .done (.bytes d) s)

/-- BUILD_SOS as an operation (R154). -/
def execBuildSos (n : NComp) (s : State) : Host.Outcome State Fault Refusal :=
  finish (.done (.bytes (sosData n)) s)

/-! ### The marker emissions (R94, R101) -/

def emitSoi (s : State) : Run Unit := writeSegment 0xD8#8 none s

def emitApp0 (s : State) : Run Unit := writeSegment 0xE0#8 (some app0Data) s

def emitSof0 (s : State) : Run Unit := writeSegment 0xC0#8 (some (sof0Data s.height s.width s.ncomp)) s

def emitDqt (tq : TableSet) (s : State) : Run Unit := writeSegment 0xDB#8 (some (dqtData tq (s.qt.get tq))) s

/-- The data is built, and its check made, before the first byte is written (R152, R189). -/
def emitDht (cls : TableClass) (dest : TableSet) (s : State) : Run Unit :=
  let t := tableOf cls dest
  (dhtData cls dest (huffBits t) (huffVals t) s).bind fun d s => writeSegment 0xC4#8 (some d) s

def emitSos (s : State) : Run Unit := writeSegment 0xDA#8 (some (sosData s.ncomp)) s

def emitEoi (s : State) : Run Unit := writeSegment 0xD9#8 none s

/-- SOI (R101). -/
def execSoi (s : State) : Host.Outcome State Fault Refusal := finishUnit (emitSoi s)

/-- APP0 (R101). -/
def execApp0 (s : State) : Host.Outcome State Fault Refusal := finishUnit (emitApp0 s)

/-- SOF0 (R101). -/
def execSof0 (s : State) : Host.Outcome State Fault Refusal := finishUnit (emitSof0 s)

/-- DQT(s) (R101). -/
def execDqt (tq : TableSet) (s : State) : Host.Outcome State Fault Refusal := finishUnit (emitDqt tq s)

/-- DHT(class, dest) (R101). -/
def execDht (cls : TableClass) (dest : TableSet) (s : State) : Host.Outcome State Fault Refusal :=
  finishUnit (emitDht cls dest s)

/-- SOS (R101). -/
def execSos (s : State) : Host.Outcome State Fault Refusal := finishUnit (emitSos s)

/-- EOI (R101). -/
def execEoi (s : State) : Host.Outcome State Fault Refusal := finishUnit (emitEoi s)

end Sys2Proof.Machine
end

