-- ==== Sys2Proof/Machine/Orchestrator.lean ====
section
/-! DEFINITION. The family of 45_orchestrator.md: the host commands CONFIGURE and ENCODE. ENCODE stands here as ONE
transition from acceptance to its end, which R174 allows; Sequencer.lean gives the same encode one operation a step. -/
namespace Sys2Proof.Machine
open Sys2Proof

/-! ### CONFIGURE (R160) -/

/-- The effect of an accepted CONFIGURE (R160). -/
def configure (s : State) : State :=
  { clearError s with
    qt := ⟨buildQtable (stdQ .luma) s.quality, buildQtable (stdQ .chroma) s.quality⟩
    cfgValid := true }

/-- CONFIGURE: the checks of R159 and, accepted, the effect of R160. -/
def execConfigure (s : State) : Host.Outcome State Fault Refusal :=
  match commandVerdict 0x01#8 s with
  | .accepted => .next (configure s)
  | v => .next (turnAway v s)

/-! ### ENCODE (R163) -/

/-- Encode start (R163, R164): the derived state is rebuilt. -/
def encodeStart (s : State) : State :=
  { clearError s with
    busy := true
    phase := .start
    acc := 0#32
    nbits := 0
    pred := ⟨0#32, 0#32, 0#32⟩
    y0 := 0
    x0 := 0
    c := .y
    seq := .header 0
    sent := 0 }

/-- The header segments in their order (R165); `segs` lists them as operations. -/
def headerRuns (n : NComp) : List (State → Run Unit) :=
  match n with
  | .one => [emitSoi, emitApp0, emitSof0, emitDqt .luma, emitDht .dc .luma, emitDht .ac .luma, emitSos]
  | .three =>
    [emitSoi, emitApp0, emitSof0, emitDqt .luma, emitDqt .chroma, emitDht .dc .luma, emitDht .ac .luma,
      emitDht .dc .chroma, emitDht .ac .chroma, emitSos]

/-- The headers of one encode, and then `phase <- HeadersWritten` (R165). -/
def emitHeader (s : State) : Run Unit :=
  (forEach (fun seg s => seg s) (headerRuns s.ncomp) s).bind fun _ s => .done () { s with phase := .headersWritten }

/-- The predictor of a component takes the value WRITE_BLOCK returned (R170). -/
def setPred (c : Comp) (v : Coef) (s : State) : State := { s with pred := s.pred.set c v }

/-- One component at the current position: transform, quantise, code, and update the predictor (R163, R167, R170). -/
def encodeComp (c : Comp) (s : State) : Run Unit :=
  let d := descriptor c
  let s := fdctInto (s.samp.get c) { s with c := c }
  let s := quantizeInto s.raw (s.qt.get d.tq) s
  (writeBlock s.q (s.pred.get c) d.td d.ta s).bind fun v s => .done () (setPred c v s)

/-- One block position: SAMPLE_BLOCK, and then each component in order (R166 to R169). -/
def encodePosition (p : Nat × Nat) (s : State) : Run Unit :=
  let s := sampleBlock p.2 p.1 { s with y0 := p.1, x0 := p.2, c := .y }
  forEach encodeComp (comps s.ncomp) s

/-- The scan (R163, R166). Where there is no block position `y0` keeps the 0 of the encode start, also with `WIDTH = 0`
and rows to step over: DESIGN CHOICE (log 31). -/
def encodeScan (s : State) : Run Unit :=
  let s := { s with phase := .scanningBlocks }
  forEach encodePosition (positions s.width.toNat s.height.toNat) s

/-- End of scan and finalisation (R171, R172). -/
def encodeEnd (s : State) : Run Unit :=
  (padByte s).bind fun _ s => (emitEoi s).bind fun _ s => .done () { s with phase := .finalized, busy := false }

/-- ENCODE after the checks of R159 (R163). -/
def encodeRun (s : State) : Run Unit :=
  (emitHeader (encodeStart s)).bind fun _ s => (encodeScan s).bind fun _ s => encodeEnd s

/-- The sequencer is idle again, and no operation's value is left behind (log 11). -/
def settle (s : State) : State := { s with seq := .idle, result := .none }

/-- The state at the end of an encode, finished or aborted (R172, R178). -/
def endState : Run Unit → State
  | .done _ s => settle s
  | .raised s => settle s

/-- ENCODE: the checks of R159 and, accepted, the whole encode of R163. -/
def execEncode (s : State) : Host.Outcome State Fault Refusal :=
  match commandVerdict 0x02#8 s with
  | .accepted => .next (endState (encodeRun s))
  | v => .next (turnAway v s)

end Sys2Proof.Machine
end

