-- ==== Sys2Proof/Machine/Dispatch.lean ====
section
/-! DEFINITION. The meaning of each instruction: one arm per constructor. -/
namespace Sys2Proof.Machine
open Sys2Proof

def exec (i : Instr) (s : State) : Host.Outcome State Fault Refusal :=
  match i with
  -- host commands
  | .configure => Sys2Proof.Machine.execConfigure s
  | .encode => Sys2Proof.Machine.execEncode s
  -- bit packer
  | .sinkByte b => Sys2Proof.Machine.execSinkByte b s
  | .writeBits code length => Sys2Proof.Machine.execWriteBits code length s
  | .padByte => Sys2Proof.Machine.execPadByte s
  | .writeSegment marker data => Sys2Proof.Machine.execWriteSegment marker data s
  -- coefficient coder
  | .buildHuffLut bits vals => Sys2Proof.Machine.execBuildHuffLut bits vals s
  | .huffmanEncode sym t => Sys2Proof.Machine.execHuffmanEncode sym t s
  | .magCategory v => Sys2Proof.Machine.execMagCategory v s
  | .writeBlock block prevDc td ta => Sys2Proof.Machine.execWriteBlock block prevDc td ta s
  -- sampler
  | .sampleBlock x0 y0 => Sys2Proof.Machine.execSampleBlock x0 y0 s
  | .colorTransform r g b => Sys2Proof.Machine.execColorTransform r g b s
  -- transform and quantiser
  | .fdct samp => Sys2Proof.Machine.execFdct samp s
  | .buildQtable std quality => Sys2Proof.Machine.execBuildQtable std quality s
  | .quantize raw table => Sys2Proof.Machine.execQuantize raw table s
  -- segment builder
  | .buildApp0 => Sys2Proof.Machine.execBuildApp0 s
  | .buildSof0 height width n => Sys2Proof.Machine.execBuildSof0 height width n s
  | .buildDqt tq table => Sys2Proof.Machine.execBuildDqt tq table s
  | .buildDht cls dest bits vals => Sys2Proof.Machine.execBuildDht cls dest bits vals s
  | .buildSos n => Sys2Proof.Machine.execBuildSos n s
  -- marker emissions
  | .soi => Sys2Proof.Machine.execSoi s
  | .app0 => Sys2Proof.Machine.execApp0 s
  | .sof0 => Sys2Proof.Machine.execSof0 s
  | .dqt tq => Sys2Proof.Machine.execDqt tq s
  | .dht cls dest => Sys2Proof.Machine.execDht cls dest s
  | .sos => Sys2Proof.Machine.execSos s
  | .eoi => Sys2Proof.Machine.execEoi s
  -- AC symbols
  | .eob ta => Sys2Proof.Machine.execEob ta s
  | .zrl ta => Sys2Proof.Machine.execZrl ta s

end Sys2Proof.Machine
end

