-- ==== Sys2Proof/Machine/Sequencer.lean ====
section
/-! DEFINITION. The sequencer of R163 one operation a step, the finer steps of R174 down to one sink write, and the
inputs of the outside world: host register writes and reads, image placement, reset, and single operations issued as
words. -/
namespace Sys2Proof.Machine
open Sys2Proof

/-! ### The sequencer -/

/-- The header segments as operations, in the order of R165. -/
def headerPlan (n : NComp) : List Instr :=
  match n with
  | .one => [.soi, .app0, .sof0, .dqt .luma, .dht .dc .luma, .dht .ac .luma, .sos]
  | .three =>
    [.soi, .app0, .sof0, .dqt .luma, .dqt .chroma, .dht .dc .luma, .dht .ac .luma, .dht .dc .chroma,
      .dht .ac .chroma, .sos]

/-- The operation the sequencer issues next, with its operands (R163, R94); at the start of the scan there is none. -/
def seqInstr (s : State) : Option Instr :=
  match s.seq with
  | .idle => none
  | .header k => (headerPlan s.ncomp)[k]?
  | .scan => none
  | .sample => some (.sampleBlock s.x0 s.y0)
  | .fdct => some (.fdct (s.samp.get s.c))
  | .quantize => some (.quantize s.raw (s.qt.get (descriptor s.c).tq))
  | .writeBlock => some (.writeBlock s.q (s.pred.get s.c) (descriptor s.c).td (descriptor s.c).ta)
  | .pad => some .padByte
  | .eoi => some .eoi

/-- The predictor takes the value WRITE_BLOCK returned (R170). -/
def storePred (s : State) : State :=
  match s.result with
  | .coef v => setPred s.c v s
  | .none => s
  | .lut _ => s
  | .magnitude _ _ => s
  | .ycc _ _ _ => s
  | .table _ => s
  | .bytes _ => s

/-- The position after the last component of a position: right, else the next row of blocks, else the end of the scan.
The position that ends the loops is not stored (R20, log 16). -/
def nextPosition (s : State) : State :=
  if s.x0 + 8 < s.width.toNat then { s with x0 := s.x0 + 8, c := .y, seq := .sample }
  else if s.y0 + 8 < s.height.toNat then { s with x0 := 0, y0 := s.y0 + 8, c := .y, seq := .sample }
  else { s with seq := .pad }

/-- The next component of the position, or the next position (R168, R169). -/
def afterBlock (s : State) : State :=
  match nextComp s.ncomp s.c with
  | some c => { s with c := c, seq := .fdct }
  | none => nextPosition s

/-- The sequencer moves on from the operation it issued (R163, R165, R166, R169 to R172). A scan with no block position
leaves `y0` at 0: DESIGN CHOICE (log 31). -/
def advance (s : State) : State :=
  match s.seq with
  | .idle => s
  | .header k =>
    if k + 1 < (headerPlan s.ncomp).length then { s with seq := .header (k + 1) }
    else { s with seq := .scan, phase := .headersWritten }
  | .scan =>
    if s.width ≠ 0#16 ∧ s.height ≠ 0#16 then
      { s with phase := .scanningBlocks, y0 := 0, x0 := 0, c := .y, seq := .sample }
    else { s with phase := .scanningBlocks, y0 := 0, x0 := 0, c := .y, seq := .pad }
  | .sample => { s with seq := .fdct }
  | .fdct => { s with seq := .quantize }
  | .quantize => { s with seq := .writeBlock }
  | .writeBlock => afterBlock (storePred s)
  | .pad => { s with seq := .eoi }
  | .eoi => settle { s with phase := .finalized, busy := false }

/-- The state in which the operation in progress began: the sink without the bytes it has accepted of it. What else an
operation changes it changes at its end (log 5). -/
def opStart (s : State) : State := { s with out := s.out.take (s.out.length - s.sent), sent := 0 }

/-- `t`, with the sink's content `s.out` kept and the rest of the operation's bytes behind it (R35). -/
def behind (s t : State) : State := { t with out := s.out ++ t.out.drop s.out.length }

/-- The sequencer moves on from an operation that finished; one that raised has ended the encode (R178). -/
def moveOn (t : State) : State := if t.busy then advance t else settle t

/-- One step of the sequencer: it issues its next operation, or takes up the one it has begun, and moves on. While the
block is idle nothing happens (R199, R201). -/
def sequencer (s : State) : Host.Outcome State Fault Refusal :=
  if s.busy then
    match seqInstr s with
    | none => .next (advance s)
    | some i =>
      match exec i (opStart s) with
      | .next t => .next (moveOn (behind s t))
      | .fault f => .fault f
      | .refused r => .refused r
  else .next s

/-- How many answers of the sink stand between `s` and the end `t` of its operation: one for each byte still to come,
and one more where the last write fails (R46). -/
def answersLeft (s t : State) : Nat :=
  (t.out.length - s.out.length) + (if t.busy = false ∧ t.err = .sinkWriteFailure then 1 else 0)

/-- Between two sink writes: the first byte of those still to come up to `t` is in the sink, and no register the host
can read has changed (R174, D23; log 5). -/
def oneByteOn (s t : State) : State :=
  { s with out := s.out ++ (t.out.drop s.out.length).take 1, sent := s.sent + 1 }

/-- The finer step of R174: on to the sink's next answer. Where the operation has no second one to come it ends. -/
def untilSinkWrite (s : State) : Host.Outcome State Fault Refusal :=
  match sequencer s with
  | .next t => .next (if answersLeft s t ≤ 1 then t else oneByteOn s t)
  | .fault f => .fault f
  | .refused r => .refused r

/-! ### Inputs -/

/-- A write to `CMD` (R159): an accepted CONFIGURE has its effect, an accepted ENCODE starts the sequencer, whose
operations the following steps run. -/
def hostCommand (k : BitVec 8) (s : State) : State :=
  match commandVerdict k s with
  | .accepted => if k = 0x01#8 then configure s else encodeStart s
  | .ignored => turnAway .ignored s
  | .locked => turnAway .locked s
  | .refused e => turnAway (.refused e) s

/-- A host write (R25 to R30, R159, R175). -/
def hostWrite (w : HostWrite) (s : State) : State :=
  match w with
  | .cmd k => hostCommand k s
  | .quality v => writeReg (.quality v) s
  | .width v => writeReg (.width v) s
  | .height v => writeReg (.height v) s
  | .mode v => writeReg (.mode v) s
  | .srcLen v => writeReg (.srcLen v) s
  | .status v => writeReg (.status v) s

/-- What the operation in progress would still append to the sink, if a raise or its end did not cut it (R202). -/
def inProgress (s : State) : List Byte :=
  match sequencer s with
  | .next t => t.out.drop s.out.length
  | .fault _ => []
  | .refused _ => []

/-- Reset (R200, R202): every piece of state of the block takes its reset value. What stands outside stays: the sink
with the bytes it has accepted, up to `accepted` of them from the operation that reset cuts; the image memory; the
inputs; and what is no state of the block, the parameters and the model's counter. -/
def resetBlock (accepted : Nat) (s : State) : State :=
  let taken := (inProgress s).take accepted
  { State.reset with
    out := s.out ++ taken
    img := s.img
    sinkAnswers := s.sinkAnswers.drop (s.sent + taken.length)
    input := s.input
    lastRead := s.lastRead
    freeCount := s.freeCount
    params := s.params }

/-- An issued word runs the instruction it decodes to (R93). While an encode runs only the sequencer issues internal
operations, so one from outside is refused (R56, U18, log 3); a command is ignored by its own check (R175). -/
def issueWord (word : List Byte) (s : State) : Host.Outcome State Fault Refusal :=
  match decode word with
  | .ok (i, _) =>
    if s.busy = true ∧ i ≠ .configure ∧ i ≠ .encode then .refused .operationIssuedWhileBusy else exec i s
  | .error e => .refused (.illegalWord e)

/-- What one input does. -/
def serve (e : Event) (s : State) : Host.Outcome State Fault Refusal :=
  match e with
  | .tick => sequencer s
  | .sinkWrite => untilSinkWrite s
  | .write w => .next (hostWrite w s)
  | .read r => .next { s with lastRead := readReg r s }
  | .place base data => placeImage base data s
  | .reset accepted => .next (resetBlock accepted s)
  | .issue word => issueWord word s

/-- One step: the first pending input, or, with none pending, the sequencer alone. -/
def serveNext (s : State) : Host.Outcome State Fault Refusal :=
  match s.input with
  | [] => sequencer s
  | e :: es => serve e { s with input := es }

/-- `s` with a table word as its next input (log 2). -/
def loadTableWord (s : State) (nbits w : Nat) : State :=
  { s with input := .issue (tableWordBytes nbits w) :: s.input }

end Sys2Proof.Machine
end

