-- ==== Sys2Proof/Machine/Step.lean ====
section
/-! DEFINITION. One step of the machine, and how the host's table words are placed for it. -/
namespace Sys2Proof.Machine
open Sys2Proof

/-- One step: the next pending input, or the sequencer's next operation. -/
def step (s : State) : Host.Outcome State Fault Refusal := serveNext s

/-- `s` with the instruction of a table word issued as its next input. An idle block runs it in the next step; while an
encode runs the sequencer alone issues internal operations (log 2, log 3). -/
def State.withFetchWord (s : State) (nbits w : Nat) : State := loadTableWord s nbits w

end Sys2Proof.Machine
end

