-- ==== Sys2Proof/Safety.lean ====
section
/-! DEFINITION. The terms the statements use: the output of an encode as bit strings and bytes, written from the format
rules and not from the register operations (30_encoding.md R71 to R73, 40_bit_packer.md R103, 45_orchestrator.md R173),
what the sink answers, and the invariant every step keeps. -/
namespace Sys2Proof.Machine
open Sys2Proof

/-! ### Bit strings (R10, R17, R49) -/

/-- The `n` low bits of a number, most significant first. -/
def bitsOf (n v : Nat) : List Bool := (List.range n).map (fun i => v.testBit (n - 1 - i))

/-- The number a bit string writes. -/
def natOfBits (l : List Bool) : Nat := l.foldl (fun a b => 2 * a + b.toNat) 0

/-- The pending bits: the `nbits` most significant bits of `acc`, first-written first (R15). -/
def pend (s : State) : List Bool := (List.range s.nbits).map (fun i => s.acc.getLsbD (31 - i))

/-- The bits of `acc` below the pending ones are 0 (R15, R97 (h)). -/
abbrev AccClean (s : State) : Prop := ∀ i, i < 32 - s.nbits → s.acc.getLsbD i = false

/-- Between two operations of the bit packer (R16, R96, R212). -/
abbrev PackerReady (s : State) : Prop := s.nbits ≤ 7 ∧ AccClean s

/-- The whole bytes at the front of a bit string. -/
def wholeBytes (l : List Bool) : List Byte :=
  (List.range (l.length / 8)).map (fun k => BitVec.ofNat 8 (natOfBits ((l.drop (8 * k)).take 8)))

/-- The bits behind the whole bytes. -/
def leftover (l : List Bool) : List Bool := l.drop (8 * (l.length / 8))

/-- A `00` after every `FF` (R71, R92). -/
def stuffed (bs : List Byte) : List Byte := bs.flatMap (fun b => if b = 0xFF#8 then [b, 0x00#8] else [b])

/-- What leaves the accumulator of a bit string. -/
def packedBytes (l : List Bool) : List Byte := stuffed (wholeBytes l)

/-- The accumulator that holds a bit string of at most 32 bits (R15). -/
def accOf (l : List Bool) : BitVec 32 := BitVec.ofNat 32 (natOfBits l * 2 ^ (32 - l.length))

/-- The state after the bit string `bits` has gone through the packer with every write accepted, in the width-free
reading of R17: appended behind the pending bits, whole bytes taken off the front. -/
def packed (bits : List Bool) (s : State) : State :=
  let l := pend s ++ bits
  { s with
    acc := accOf (leftover l)
    nbits := (leftover l).length
    out := s.out ++ packedBytes l
    sinkAnswers := s.sinkAnswers.drop (packedBytes l).length }

/-! ### The sink (R46) -/

/-- The sink accepts the next `n` writes. -/
abbrev SinkAccepts (n : Nat) (s : State) : Prop := ∀ a ∈ s.sinkAnswers.take n, a = SinkAnswer.ok

/-- The sink accepts `n` writes and fails the next one. -/
abbrev SinkFailsAfter (n : Nat) (s : State) : Prop :=
  SinkAccepts n s ∧ s.sinkAnswers[n]? = some SinkAnswer.fail

/-- The sink accepts what the bit string `bits` sends. -/
abbrev SinkAcceptsBits (bits : List Bool) (s : State) : Prop :=
  SinkAccepts (packedBytes (pend s ++ bits)).length s

/-- The sink fails one of the writes of the bit string `bits`, after `k` accepted ones. -/
abbrev SinkCutsBits (bits : List Bool) (k : Nat) (s : State) : Prop :=
  k < (packedBytes (pend s ++ bits)).length ∧ SinkFailsAfter k s

/-- How many of the bytes `bs` have been written whole, each with its stuffing byte, after `k` writes. -/
def bytesOut : List Byte → Nat → Nat
  | [], _ => 0
  | b :: bs, k => if (stuffed [b]).length ≤ k then bytesOut bs (k - (stuffed [b]).length) + 1 else 0

/-- The state after a WRITE_BITS of `bits` whose write number `k` failed (R97 (f), R97 (g)): the new bits are merged,
the bytes written whole are shifted out, and the byte being written is not, also where only its stuffing byte failed. -/
def packedCut (bits : List Bool) (k : Nat) (s : State) : State :=
  let l := pend s ++ bits
  let kept := l.drop (8 * bytesOut (wholeBytes l) k)
  { s with
    acc := accOf kept
    nbits := kept.length
    out := s.out ++ (packedBytes l).take k
    sinkAnswers := s.sinkAnswers.drop (k + 1)
    busy := false
    err := .sinkWriteFailure }

/-- The state after several WRITE_BITS in a row, cut at write number `k` of them all: the ones before the cut have their
effect, the one it falls in is cut, and the ones behind it do not run. -/
def cutCodes : List (List Bool) → Nat → State → State
  | [], _, s => s
  | c :: cs, k, s =>
    if k < (packedBytes (pend s ++ c)).length then packedCut c k s
    else cutCodes cs (k - (packedBytes (pend s ++ c)).length) (packed c s)

/-- The state after `bs` is written with every write accepted. -/
def appended (bs : List Byte) (s : State) : State :=
  { s with out := s.out ++ bs, sinkAnswers := s.sinkAnswers.drop bs.length }

/-- The state after write number `k` of `bs` failed: the bytes before it are in the sink (R46, R178, R181). -/
def cutBytes (bs : List Byte) (k : Nat) (s : State) : State :=
  { s with
    out := s.out ++ bs.take k
    sinkAnswers := s.sinkAnswers.drop (k + 1)
    busy := false
    err := .sinkWriteFailure }

/-- The state after an operation returned `r`. -/
def returned (r : OpResult) (s : State) : State := { s with result := r }

/-! ### Coded blocks (R72, R73) -/

/-- `HuffCode(t, sym)`, if the symbol has a code (R72, R89). -/
def codeBits (t : HuffTable) (sym : Byte) : Option (List Bool) :=
  if (lutEntry t sym).length ≤ 16 then some (bitsOf (lutEntry t sym).length (lutEntry t sym).code.toNat) else none

/-- `magbits(v)` (R72, R73). -/
def magString (v : Int) : List Bool := bitsOf (magSize v) (magBits v)

/-- `n` ZRL codes (R72, R114). Here and below a list has one entry for each WRITE_BITS (R109, R113). -/
def zrlCodes (ta : TableSet) : Nat → Option (List (List Bool))
  | 0 => some []
  | n + 1 => do
    let z ← codeBits (tableOf .ac ta) 0xF0#8
    let zs ← zrlCodes ta n
    return z :: zs

/-- One AC item: the ZRL codes, the packed symbol and the magnitude bits (R72). -/
def acItemCodes (ta : TableSet) (run : Nat) (v : Int) : Option (List (List Bool)) := do
  let zs ← zrlCodes ta (run / 16)
  if 15 < magSize v then none
  else
    let h ← codeBits (tableOf .ac ta) (nibbles (run % 16) (magSize v))
    return zs ++ [h, magString v]

/-- The AC items and the EOB of coefficients in zig-zag order behind `run` zeros (R72, R114, R115). -/
def acCodes (ta : TableSet) : List Coef → Nat → Option (List (List Bool))
  | [], run =>
    if 0 < run then do
      let e ← codeBits (tableOf .ac ta) 0x00#8
      return [e]
    else some []
  | v :: vs, run =>
    if v = 0#32 then acCodes ta vs (run + 1)
    else do
      let item ← acItemCodes ta run v.toInt
      let rest ← acCodes ta vs 0
      return item ++ rest

/-- `DC_part` (R72). -/
def dcCodes (td : TableSet) (diff : Int) : Option (List (List Bool)) := do
  let h ← codeBits (tableOf .dc td) (BitVec.ofNat 8 (magSize diff))
  return [h, magString diff]

/-- The codes of a block in order, if every symbol has a code (R72, R113, R117). -/
def blockCodes (block : Block Coef) (prev : Coef) (td ta : TableSet) : Option (List (List Bool)) := do
  let d ← dcCodes td (dcDiff block prev)
  let a ← acCodes ta (acInScanOrder block) 0
  return d ++ a

/-- `coded_block`, if every symbol has a code (R72, R117). -/
def blockString (block : Block Coef) (prev : Coef) (td ta : TableSet) : Option (List Bool) := do
  let cs ← blockCodes block prev td ta
  return cs.flatten

/-! ### The stream of one encode (R173) -/

/-- The quantised block of a component at a position (R163, R167). -/
def quantizedAt (s : State) (y0 x0 : Nat) (c : Comp) : Block Coef :=
  quantize s.params.div8Mode (fdct s.params.fdct ((sampledBlocks s x0 y0).get c)) (s.qt.get (descriptor c).tq)

/-- The blocks of the scan in order: position by position, component by component (R166, R168). -/
def scanUnits (s : State) : List ((Nat × Nat) × Comp) :=
  (positions s.width.toNat s.height.toNat).flatMap (fun p => (comps s.ncomp).map (fun c => (p, c)))

/-- `Bits` of R173 over a list of blocks, with the predictors threaded through it (R170). -/
def unitsString (s : State) : List ((Nat × Nat) × Comp) → Triple Coef → Option (List Bool)
  | [], _ => some []
  | (p, c) :: us, pred => do
    let q := quantizedAt s p.1 p.2 c
    let b ← blockString q (pred.get c) (descriptor c).td (descriptor c).ta
    let rest ← unitsString s us (pred.set c (dcOf q))
    return b ++ rest

/-- `Bits` of R173: the predictors begin at 0. -/
def scanString (s : State) : Option (List Bool) := unitsString s (scanUnits s) ⟨0#32, 0#32, 0#32⟩

/-- `Pad` of R173. -/
def padded (l : List Bool) : List Bool :=
  if l.length % 8 = 0 then l else l ++ List.replicate (8 - l.length % 8) true

/-- The segments of one encode in order, `(marker, data)` (R165). -/
def headerSegments (s : State) : List (Byte × Option (List Byte)) :=
  let dht := fun (cls : TableClass) (dest : TableSet) =>
    ((0xC4#8 : Byte), some (dhtBytes cls dest (huffBits (tableOf cls dest)) (huffVals (tableOf cls dest))))
  let dqt := fun (tq : TableSet) => ((0xDB#8 : Byte), some (dqtData tq (s.qt.get tq)))
  [(0xD8#8, none), (0xE0#8, some app0Data), (0xC0#8, some (sof0Data s.height s.width s.ncomp))] ++
  (match s.ncomp with
    | .one => [dqt .luma, dht .dc .luma, dht .ac .luma]
    | .three => [dqt .luma, dqt .chroma, dht .dc .luma, dht .ac .luma, dht .dc .chroma, dht .ac .chroma]) ++
  [(0xDA#8, some (sosData s.ncomp))]

/-- `Hdr` of R173. -/
def headerBytes (s : State) : List Byte := (headerSegments s).flatMap (fun g => segmentBytes g.1 g.2)

/-- `S` of R173, if every symbol of the scan has a code. -/
def streamOf (s : State) : Option (List Byte) := do
  let bits ← scanString s
  return headerBytes s ++ packedBytes (padded bits) ++ [0xFF#8, 0xD9#8]

/-- An ENCODE is accepted (R159). -/
abbrev EncodeAccepted (s : State) : Prop := commandVerdict 0x02#8 s = .accepted

/-- Every entry of both quantisation tables is at least 1 (R21). -/
abbrev TablesNonzero (s : State) : Prop :=
  (∀ b ∈ s.qt.luma.toList, b ≠ 0#8) ∧ (∀ b ∈ s.qt.chroma.toList, b ≠ 0#8)

/-- Two states from which an encode must write the same bytes: what R177 says an encode inherits agrees. -/
structure SameEncodeInputs (s t : State) : Prop where
  qt : s.qt = t.qt
  cfgValid : s.cfgValid = t.cfgValid
  width : s.width = t.width
  height : s.height = t.height
  mode : s.mode = t.mode
  srcLen : s.srcLen = t.srcLen
  img : s.img = t.img
  params : s.params = t.params
  sinkAnswers : s.sinkAnswers = t.sinkAnswers
  busy : s.busy = t.busy
  fatal : s.fatal = t.fatal

/-! ### The invariant -/

/-- The phase that belongs to a point of the sequencer (R163, R174). -/
def phaseAt : SeqPoint → Phase
  | .idle => .start
  | .header _ => .start
  | .scan => .headersWritten
  | .sample => .scanningBlocks
  | .fdct => .scanningBlocks
  | .quantize => .scanningBlocks
  | .writeBlock => .scanningBlocks
  | .pad => .scanningBlocks
  | .eoi => .scanningBlocks

/-- The sequencer is at work on a block position. -/
def atBlock : SeqPoint → Bool
  | .idle => false
  | .header _ => false
  | .scan => false
  | .sample => true
  | .fdct => true
  | .quantize => true
  | .writeBlock => true
  | .pad => false
  | .eoi => false

/-- What holds between any two steps. -/
structure Inv (s : State) : Prop where
  /-- R97 (h). -/
  accClean : AccClean s
  /-- R16, R212: an abort may leave more bits (R97 (g)), but then `busy` has fallen. -/
  nbitsBusy : s.busy = true → s.nbits ≤ 7
  /-- R159, R186: an encode runs configured, with no error recorded. -/
  busyReady : s.busy = true → s.cfgValid = true ∧ s.fatal = false ∧ s.err = .none
  /-- R21, R140: no table entry is 0 once a CONFIGURE has run. -/
  tables : s.cfgValid = true → TablesNonzero s
  /-- R188: the code of the fatal error stays. -/
  fatalErr : s.fatal = true → s.err ≠ .none
  /-- The image memory is in canonical form. -/
  imgWf : s.img.wf = true
  /-- R20: the position is a multiple of 8 in each direction, at most 65528. -/
  position : s.y0 % 8 = 0 ∧ s.x0 % 8 = 0 ∧ s.y0 ≤ 65528 ∧ s.x0 ≤ 65528
  /-- R163, R174: `phase` is the one of the sequencer's point. -/
  phaseOk : s.busy = true → s.seq ≠ .idle ∧ s.phase = phaseAt s.seq
  /-- R20: a block is coded only inside the frame. -/
  inFrame : s.busy = true → atBlock s.seq = true → s.x0 < s.width.toNat ∧ s.y0 < s.height.toNat
  /-- R18, R24: only a component in use is coded. -/
  compInUse : s.busy = true → s.c ∈ comps s.ncomp
  /-- R174: only an encode in progress stands between two sink writes, and the sink holds the bytes it has accepted. -/
  sentOk : s.sent ≠ 0 → s.busy = true ∧ s.sent ≤ s.out.length
  /-- R41, R185: an encode that samples has a buffer. -/
  hasImage : s.busy = true → s.width ≠ 0#16 → s.height ≠ 0#16 → s.srcLen ≠ 0#36

end Sys2Proof.Machine
end

