-- ==== Sys2Proof/Certificates/Slice0/Obligations.lean ====
section
/-! DEFINITION. The statements for the provers, in the order of OBLIGATIONS.json. A next state is given whole wherever
it can be (`s` with the fields the rule changes), which is the result, the frame and the completion in one. -/
open Sys2Proof Sys2Proof.Machine

/-! ### Reset, the invariant, the rules of the whole machine -/

/-- R200, R202: the reset input, asserted at any moment. `accepted` is the model's event argument (log 5): how many
bytes of the operation in progress the sink still takes. What R200 leaves unspecified is not stated. -/
def Obligations.ResetInputRestoresResetValues : Prop :=
  ∀ (s : State) (n : Nat) (es : List Event), s.input = .reset n :: es →
    ∃ t, step s = .next t ∧
      t.acc = 0#32 ∧ t.nbits = 0 ∧ t.pred = ⟨0#32, 0#32, 0#32⟩ ∧ t.busy = false ∧ t.phase = .start ∧
      t.y0 = 0 ∧ t.x0 = 0 ∧ t.c = .y ∧ t.cfgValid = false ∧ t.err = .none ∧ t.fatal = false ∧
      t.quality = 0#8 ∧ t.width = 0#16 ∧ t.height = 0#16 ∧ t.mode = 0#2 ∧ t.srcLen = 0#36 ∧
      t.img = s.img ∧ t.params = s.params ∧ t.input = es ∧
      (∀ u bs, sequencer { s with input := es } = .next u → u.out = s.out ++ bs → t.out = s.out ++ bs.take n)

/-- The invariant holds after reset. Two of its clauses read fields whose reset value is the model's choice (log 9,
log 10); they hold there because `cfg_valid` is 0 and no image byte is listed. -/
def Obligations.ResetStateMeetsInvariant : Prop := Inv State.reset

/-- R15, R16, R20, R21, R97 (h), R188: every step, whatever the input and the sink do, keeps the invariant. The model's
choice in it: `seq` and `sent` are fields of the model (log 11, log 5), so `phaseOk` and `sentOk` speak of them; and
`nbitsBusy` holds also between two sink writes of one operation, where R16 and R96 allow up to 23 bits, because the model
lets `acc` and `nbits` change at the operation's end (log 5). -/
def Obligations.EveryStepKeepsInvariant : Prop :=
  ∀ s t : State, Inv s → step s = .next t → Inv t

/-- R35, R43: the block only appends to the sink; the host and reset do not touch it. -/
def Obligations.SinkIsAppendOnly : Prop :=
  ∀ s t : State, step s = .next t → ∃ bs : List Byte, t.out = s.out ++ bs

/-- R36, R40, R163: no operation and no command writes the image memory, a host register, a parameter or an input. -/
def Obligations.InstructionsNeverWriteHostState : Prop :=
  ∀ (i : Instr) (s t : State), exec i s = .next t →
    t.img = s.img ∧ t.quality = s.quality ∧ t.width = s.width ∧ t.height = s.height ∧ t.mode = s.mode ∧
      t.srcLen = s.srcLen ∧ t.params = s.params ∧ t.input = s.input ∧ t.lastRead = s.lastRead

/-- R21, R31: the quantisation tables and `cfg_valid` are written only by CONFIGURE. -/
def Obligations.OnlyConfigureWritesTables : Prop :=
  ∀ (i : Instr) (s t : State), i ≠ .configure → exec i s = .next t → t.qt = s.qt ∧ t.cfgValid = s.cfgValid

/-- R18, R20: the predictors, the phase and the position are written by no operation but ENCODE. -/
def Obligations.OnlyEncodeWritesPredictorsAndPosition : Prop :=
  ∀ (i : Instr) (s t : State), i ≠ .encode → exec i s = .next t →
    t.pred = s.pred ∧ t.phase = s.phase ∧ t.y0 = s.y0 ∧ t.x0 = s.x0 ∧ t.c = s.c ∧ t.seq = s.seq ∧
      t.sent = s.sent

/-- R102, R146, R212: the operations that write `acc` and `nbits` are WRITE_BITS, PAD_BYTE, the three that send codes
through it, WRITE_BLOCK, and ENCODE. -/
def Obligations.AccumulatorWrittenOnlyThroughWriteBits : Prop :=
  ∀ (i : Instr) (s t : State), exec i s = .next t → i ≠ .encode → i ≠ .padByte → (∀ code n, i ≠ .writeBits code n) →
    (∀ sym tb, i ≠ .huffmanEncode sym tb) → (∀ ta, i ≠ .eob ta) → (∀ ta, i ≠ .zrl ta) →
    (∀ b p td ta, i ≠ .writeBlock b p td ta) → t.acc = s.acc ∧ t.nbits = s.nbits

/-- R31, R33, R200: reset is the only thing that clears `fatal` and `cfg_valid`. -/
def Obligations.OnlyResetClearsFatalAndConfigured : Prop :=
  ∀ s t : State, (∀ n es, s.input ≠ .reset n :: es) → step s = .next t →
    (s.fatal = true → t.fatal = true) ∧ (s.cfgValid = true → t.cfgValid = true)

/-- R186: an internal operation either leaves the flags alone, or raises: `busy` falls, `err` takes one of the three
codes an operation raises, and `fatal` is set exactly for the fatal ones. -/
def Obligations.InternalOperationsRaiseOrLeaveFlags : Prop :=
  ∀ (i : Instr) (s t : State), i ≠ .configure → i ≠ .encode → exec i s = .next t →
    (t.busy = s.busy ∧ t.err = s.err ∧ t.fatal = s.fatal) ∨
    (t.busy = false ∧ t.result = .none ∧
      ((t.err = .sinkWriteFailure ∧ t.fatal = s.fatal) ∨
        ((t.err = .huffmanLengthError ∨ t.err = .dhtCountMismatch) ∧ t.fatal = true)))

/-- R16, R97 (g), R97 (h), R212: from at most 7 pending bits behind a clean accumulator every instruction leaves a clean
accumulator with at most 7 pending bits, unless one of its own writes failed, which is the last answer it used. -/
def Obligations.PackerStaysReadyUnlessSinkFails : Prop :=
  ∀ (i : Instr) (s t : State), PackerReady s → exec i s = .next t →
    AccClean t ∧ (t.nbits ≤ 7 ∨ (t.busy = false ∧ t.err = .sinkWriteFailure ∧
      ∃ k, SinkFailsAfter k s ∧ t.sinkAnswers = s.sinkAnswers.drop (k + 1)))

/-! ### Words -/

/-- No bit of a word is dropped: decoding an encoded well-formed instruction gives it back, and leaves what follows.
The operand bytes are the model's own (log 1). -/
def Obligations.DecodeOfEncodeIsInstruction : Prop :=
  ∀ (i : Instr) (rest : List Byte), i.wf = true → decode (encode i ++ rest) = .ok (i, rest)

/-- The other direction: a word has one meaning, and what it decodes to is well-formed and encodes back to it. -/
def Obligations.DecodedWordIsItsEncoding : Prop :=
  ∀ (w rest : List Byte) (i : Instr), decode w = .ok (i, rest) → i.wf = true ∧ w = encode i ++ rest

/-- R60, R65, R86: codes of the operation table, as numbers of the table. -/
def Obligations.TableCodesDecode : Prop :=
  decodeTableWord 8 0x01 = some .configure ∧ decodeTableWord 8 0x02 = some .encode ∧
  decodeTableWord 8 0x12 = some .padByte ∧ decodeTableWord 8 0x50 = some .buildApp0 ∧
  decodeTableWord 16 0xFFD8 = some .soi ∧ decodeTableWord 16 0xFFE0 = some .app0 ∧
  decodeTableWord 16 0xFFC0 = some .sof0 ∧ decodeTableWord 16 0xFFDB = some (.dqt .luma) ∧
  decodeTableWord 16 0xFFC4 = some (.dht .dc .luma) ∧ decodeTableWord 16 0xFFDA = some .sos ∧
  decodeTableWord 16 0xFFD9 = some .eoi ∧ decodeTableWord 8 0x00 = some (.eob .luma) ∧
  decodeTableWord 8 0xF0 = some (.zrl .luma)

/-! ### Steps -/

/-- R56, R93, R175: a step whose next input is a word runs the instruction the word decodes to; the input is used up.
While an encode runs a command is ignored, and an internal operation from outside is refused (U18, log 3). -/
def Obligations.StepRunsDecodedInstruction : Prop :=
  ∀ (s : State) (w rest : List Byte) (es : List Event) (i : Instr), s.input = .issue w :: es →
    decode w = .ok (i, rest) →
    (s.busy = false → step s = exec i { s with input := es }) ∧
    (s.busy = true → i = .configure ∨ i = .encode → step s = .next { s with input := es }) ∧
    (s.busy = true → i ≠ .configure → i ≠ .encode → step s = .refused .operationIssuedWhileBusy)

/-- R163, R174, R178, R199: with no input pending, a busy sequencer issues its next operation and moves on, or is idle
again if the operation raised; an idle block does nothing, and a tick only passes (log 22). R56, R175, R207: while an
encode runs, no input but the passing of time and reset changes anything but the value last read, the sink and the image
least. R174, D23 (log 5): a host access may fall between any two sink writes. Where the sink has at least two answers
to give before the operation ends, a step on to the next of them puts one byte in the sink, no register the host can
read changes, and the operation still ends in the same state; with one or none it ends the operation. -/
def Obligations.StepRunsSequencerOperation : Prop :=
  (∀ (s t : State) (i : Instr), s.input = [] → s.busy = true → s.sent = 0 → seqInstr s = some i → exec i s = .next t →
    step s = .next (if t.busy then advance t else settle t)) ∧
  (∀ s : State, s.busy = false → (s.input = [] → step s = .next s) ∧
    (∀ es, s.input = .tick :: es → step s = .next { s with input := es })) ∧
  (∀ (s t : State) (e : Event) (es : List Event), s.busy = true → s.input = e :: es → e ≠ .tick → e ≠ .sinkWrite →
    (∀ n, e ≠ .reset n) → step s = .next t → t = { s with input := es, lastRead := t.lastRead }) ∧
  (∀ (s t : State) (es : List Event), s.input = .sinkWrite :: es → sequencer { s with input := es } = .next t →
    let answers := (t.out.length - s.out.length) + (if t.busy = false ∧ t.err = .sinkWriteFailure then 1 else 0)
    (answers ≤ 1 → step s = .next t) ∧
    (1 < answers → ∃ m, step s = .next m ∧
      m = { s with input := es, sent := s.sent + 1, out := s.out ++ (t.out.drop s.out.length).take 1 } ∧
      m.out.length = s.out.length + 1 ∧ statusWord m = statusWord s ∧ sequencer m = .next t))

/-- R159, R174: a host's write of a command does what the instruction does, but that an accepted ENCODE starts the
sequencer, whose operations the following steps run (log 4). -/
def Obligations.CommandWriteRunsCommand : Prop :=
  ∀ (s : State) (es : List Event),
    (s.input = .write (.cmd 0x01#8) :: es → step s = exec .configure { s with input := es }) ∧
    (s.input = .write (.cmd 0x02#8) :: es →
      (¬ EncodeAccepted s → step s = exec .encode { s with input := es }) ∧
      (EncodeAccepted s → step s = .next (encodeStart { s with input := es })))

/-- R170: in the sequencer's steps the predictor of the component takes `q[0]` after WRITE_BLOCK returns; if it raised,
the predictors keep their values. -/
def Obligations.PredictorFollowsCodedBlock : Prop :=
  ∀ s t : State, s.input = [] → s.busy = true → s.seq = .writeBlock → step s = .next t →
    (t.busy = true → t.pred = s.pred.set s.c (s.q.getD 0 0#32)) ∧ (t.busy = false → t.pred = s.pred)

/-! ### The host's registers and flags -/

/-- R175: while `busy = 1` every host write, to any register, changes nothing; a read is always served and changes
nothing but what was read. -/
def Obligations.WritesWhileBusyAreIgnored : Prop :=
  ∀ (s : State) (es : List Event),
    (∀ w : HostWrite, s.busy = true → s.input = .write w :: es → step s = .next { s with input := es }) ∧
    (∀ r : HostReg, s.input = .read r :: es →
      ∃ v, step s = .next { s with input := es, lastRead := v } ∧ (r = .status → v.getLsbD 0 = s.busy))

/-- R26 to R30: an idle block takes a register write whole and changes nothing else; a write of STATUS is ignored. -/
def Obligations.RegisterWritesTakeEffect : Prop :=
  ∀ (s : State) (es : List Event), s.busy = false →
    (∀ v, s.input = .write (.quality v) :: es → step s = .next { s with input := es, quality := v }) ∧
    (∀ v, s.input = .write (.width v) :: es → step s = .next { s with input := es, width := v }) ∧
    (∀ v, s.input = .write (.height v) :: es → step s = .next { s with input := es, height := v }) ∧
    (∀ v, s.input = .write (.mode v) :: es → step s = .next { s with input := es, mode := v }) ∧
    (∀ v, s.input = .write (.srcLen v) :: es → step s = .next { s with input := es, srcLen := v }) ∧
    (∀ v, s.input = .write (.status v) :: es → step s = .next { s with input := es })

/-- R25 to R30, R175: a read returns the register's value, `CMD` reads as 0, STATUS holds the five flags in their
fields, and nothing else changes. -/
def Obligations.RegisterReadsHaveNoEffect : Prop :=
  ∀ (s : State) (r : HostReg) (es : List Event), s.input = .read r :: es →
    ∃ v, step s = .next { s with input := es, lastRead := v } ∧
      (r = .cmd → v = 0#36) ∧ (r = .quality → v.toNat = s.quality.toNat) ∧ (r = .width → v.toNat = s.width.toNat) ∧
      (r = .height → v.toNat = s.height.toNat) ∧ (r = .mode → v.toNat = s.mode.toNat) ∧
      (r = .srcLen → v = s.srcLen) ∧
      (r = .status → v.getLsbD 0 = s.busy ∧ v.getLsbD 1 = s.cfgValid ∧ v.extractLsb' 2 2 = s.phase.code ∧
        v.extractLsb' 4 4 = s.err.code ∧ v.getLsbD 8 = s.fatal ∧ v.toNat < 512)

/-- R188: while `fatal = 1` a write of `CMD` changes nothing, and the other registers still take their writes. -/
def Obligations.FatalErrorLocksCommands : Prop :=
  ∀ (s : State) (es : List Event), s.busy = false → s.fatal = true →
    (∀ k, s.input = .write (.cmd k) :: es → step s = .next { s with input := es }) ∧
    exec .configure s = .next s ∧ exec .encode s = .next s ∧
    (∀ v, s.input = .write (.quality v) :: es → step s = .next { s with input := es, quality := v }) ∧
    (∀ v, s.input = .write (.width v) :: es → step s = .next { s with input := es, width := v }) ∧
    (∀ v, s.input = .write (.height v) :: es → step s = .next { s with input := es, height := v }) ∧
    (∀ v, s.input = .write (.mode v) :: es → step s = .next { s with input := es, mode := v }) ∧
    (∀ v, s.input = .write (.srcLen v) :: es → step s = .next { s with input := es, srcLen := v })

/-- R87, R184: each of the other 254 values written to `CMD` changes nothing but `err`. -/
def Obligations.IllegalCommandRecordsItsCode : Prop :=
  ∀ (s : State) (k : BitVec 8) (es : List Event), s.busy = false → s.fatal = false → k ≠ 0x01#8 → k ≠ 0x02#8 →
    s.input = .write (.cmd k) :: es → step s = .next { s with input := es, err := .illegalCommand }

/-- R159, R183, R185, R187, R189: the checks of ENCODE in their order. A refusal writes `err` and nothing else. What
passes them all is accepted, so a buffer shorter than the frame is, unless `STRICT_LEN` is set (D29); and the host's
write of it starts an encode (R163, R164). That this step ends at the encode start is the model's granularity (log 4);
R174 also allows one transition. -/
def Obligations.EncodeRefusalsInOrder : Prop :=
  ∀ s : State, s.busy = false → s.fatal = false →
    (s.cfgValid = false → exec .encode s = .next { s with err := .notConfigured }) ∧
    (s.cfgValid = true → s.params.strictLen = true →
      s.srcLen.toNat < s.width.toNat * s.height.toNat * bpp s.colorMode →
      exec .encode s = .next { s with err := .lenError }) ∧
    (s.cfgValid = true → s.params.strictLen = false → s.srcLen = 0#36 → s.width ≠ 0#16 → s.height ≠ 0#16 →
      exec .encode s = .next { s with err := .emptyBuffer }) ∧
    (s.cfgValid = true → (s.params.strictLen = true → s.width.toNat * s.height.toNat * bpp s.colorMode ≤ s.srcLen.toNat) →
      (s.width ≠ 0#16 → s.height ≠ 0#16 → s.srcLen ≠ 0#36) →
      EncodeAccepted s ∧ ∀ es, s.input = .write (.cmd 0x02#8) :: es →
        ∃ t, step s = .next t ∧ t.busy = true ∧ t.phase = .start ∧ t.err = .none ∧ t.out = s.out)

/-- U17 and R40, log 21: a placement while busy is refused; one past offset `2^36` faults; any other is taken, and each
byte placed reads back at its offset while every other offset reads as before. The premise on the form of the image
memory is a clause of the invariant. -/
def Obligations.ImagePlacementIsExact : Prop :=
  ∀ (s : State) (base : Nat) (data : List Byte) (es : List Event), s.img.wf = true → s.input = .place base data :: es →
    (s.busy = true → step s = .refused .imageWriteWhileBusy) ∧
    (s.busy = false → 2 ^ 36 < base + data.length → ∃ a, step s = .fault (.imageOffsetOutside a)) ∧
    (s.busy = false → base + data.length ≤ 2 ^ 36 →
      ∃ m, step s = .next { s with input := es, img := m } ∧
        (∀ k, k < data.length → m.read (base + k) = data.getD k 0#8) ∧
        (∀ a, a < base ∨ base + data.length ≤ a → m.read a = s.img.read a))

/-! ### CONFIGURE and the quantisation tables -/

/-- R139, R160: CONFIGURE writes both tables, `cfg_valid` and `err`, and nothing else. -/
def Obligations.ConfigureBuildsBothTables : Prop :=
  ∀ s : State, s.busy = false → s.fatal = false →
    ∃ qt, exec .configure s = .next { s with qt := qt, cfgValid := true, err := .none } ∧
      ∀ (set : TableSet) (i : Nat), i < 64 →
        let q := clampNat s.quality.toNat 1 100
        let scale := if q < 50 then 5000 / q else 200 - 2 * q
        ((qt.get set).getD i 0#8).toNat = clampNat ((((stdQ set).getD i 0#8).toNat * scale + 50) / 100) 1 255

/-- R139: BUILD_QTABLE returns the scaled table, at every quality. R139 names the two standard tables; that any other one
is scaled by the same formula is the model's choice (log 32). -/
def Obligations.BuildQtableScalesEveryEntry : Prop :=
  ∀ (s : State) (std : Block Byte) (quality : Byte),
    ∃ t, exec (.buildQtable std quality) s = .next (returned (.table t) s) ∧
      ∀ i, i < 64 →
        let q := clampNat quality.toNat 1 100
        let scale := if q < 50 then 5000 / q else 200 - 2 * q
        (t.getD i 0#8).toNat = clampNat (((std.getD i 0#8).toNat * scale + 50) / 100) 1 255

/-! ### The bit packer -/

/-- R46, R95: an accepted byte is appended as it is; a refused one is not, and SinkWriteFailure is raised. -/
def Obligations.SinkByteAppendsOrRaises : Prop :=
  ∀ (b : Byte) (s : State),
    (SinkAccepts 1 s → exec (.sinkByte b) s = .next (returned .none (appended [b] s))) ∧
    (∀ as, s.sinkAnswers = .fail :: as →
      exec (.sinkByte b) s =
        .next { s with sinkAnswers := as, busy := false, err := .sinkWriteFailure, result := .none })

/-- R17, R96: WRITE_BITS appends the `length` low bits behind the pending ones and takes the whole bytes off the front,
each `FF` followed by `00`: the register operations agree with the width-free reading. R97 (f), R97 (g): where write
number `k` fails, the bytes before it are in the sink, an `FF` possibly without its `00`, the new bits are merged, and
the byte being written has not been shifted out. -/
def Obligations.WriteBitsAppendsToPendingBits : Prop :=
  ∀ (code : BitVec 16) (n : Fin 17) (s : State), PackerReady s →
    let bits := bitsOf n.val code.toNat
    (SinkAcceptsBits bits s → exec (.writeBits code n) s = .next (returned .none (packed bits s))) ∧
    (∀ k, SinkCutsBits bits k s → exec (.writeBits code n) s = .next (returned .none (packedCut bits k s)))

/-- R97 (a), R97 (b): length 0 changes no state, and bits of `code` at and above `length` are ignored, in every state.
What WRITE_BITS does with more than 7 bits pending is the model's choice (log 15, log 27, log 33). -/
def Obligations.WriteBitsIgnoresHighBits : Prop :=
  ∀ (code : BitVec 16) (s : State),
    exec (.writeBits code 0) s = .next (returned .none s) ∧
    ∀ n : Fin 17, exec (.writeBits code n) s = exec (.writeBits (BitVec.ofNat 16 (code.toNat % 2 ^ n.val)) n) s

/-- R99: PAD_BYTE by the number of pending bits. With none, no byte is written and seven ones stay; with `n`, one byte
is written, the pending bits and `8 - n` ones, and `n - 1` ones stay. R97 (f), R97 (g): what a failing write leaves. -/
def Obligations.PadByteFlushesPendingBits : Prop :=
  ∀ s : State, AccClean s →
    (s.nbits = 0 → exec .padByte s = .next { s with acc := 0xFE000000#32, nbits := 7, result := .none }) ∧
    (1 ≤ s.nbits → s.nbits ≤ 7 →
      let b := BitVec.ofNat 8 (natOfBits (pend s ++ List.replicate (8 - s.nbits) true))
      SinkAccepts (stuffed [b]).length s →
      exec .padByte s = .next (returned .none (appended (stuffed [b])
        { s with acc := accOf (List.replicate (s.nbits - 1) true), nbits := s.nbits - 1 }))) ∧
    (s.nbits ≤ 7 → ∀ k, SinkCutsBits (List.replicate 7 true) k s →
      exec .padByte s = .next (returned .none (packedCut (List.replicate 7 true) k s)))

/-- R64, R100: WRITE_SEGMENT writes `FF`, the marker, and with data the length plus 2, high byte first, and the data,
unstuffed, past the accumulator. R100 (b): longer data than a length field can say is refused, the model's choice
(U13, log 24). -/
def Obligations.WriteSegmentWritesItsBytes : Prop :=
  ∀ (m : Byte) (s : State),
    (SinkAccepts 2 s → exec (.writeSegment m none) s = .next (returned .none (appended [0xFF#8, m] s))) ∧
    (∀ (d : List Byte) (hi lo : Byte), d.length ≤ 65533 → hi.toNat * 256 + lo.toNat = d.length + 2 →
      SinkAccepts (d.length + 4) s →
      exec (.writeSegment m (some d)) s = .next (returned .none (appended ([0xFF#8, m, hi, lo] ++ d) s))) ∧
    (∀ d : List Byte, 65533 < d.length → exec (.writeSegment m (some d)) s = .refused (.segmentTooLong d.length))

/-- R46, R100: a failing write cuts a segment where it falls; the bytes before it stay in the sink. -/
def Obligations.SegmentIsCutAtFailingWrite : Prop :=
  ∀ (m : Byte) (data : Option (List Byte)) (k : Nat) (s : State), segmentDataOk data = true →
    k < (segmentBytes m data).length → SinkFailsAfter k s →
    exec (.writeSegment m data) s = .next { s with
      out := s.out ++ (segmentBytes m data).take k
      sinkAnswers := s.sinkAnswers.drop (k + 1)
      busy := false
      err := .sinkWriteFailure
      result := .none }

/-! ### The coefficient coder -/

/-- R22, R82 to R85, R106: BUILD_HUFF_LUT run on the four specifications returns the four printed lookup tables, symbol
by symbol; on any operands it returns the construction, with 256 entries, and changes nothing else. -/
def Obligations.LookupTablesAreTheConstruction : Prop :=
  (∀ (t : HuffTable) (s : State), ∃ l : List LutEntry,
    exec (.buildHuffLut (huffBits t) (huffVals t)) s = .next (returned (.lut l) s) ∧ l.length = 256 ∧
      ∀ sym : Byte, l.getD sym.toNat noCode = lutEntry t sym) ∧
  (∀ (bits : Counts) (vals : List Byte) (s : State),
    exec (.buildHuffLut bits vals) s = .next (returned (.lut (buildHuffLut bits vals)) s) ∧
      (buildHuffLut bits vals).length = 256)

/-- R89, R91: which symbols have a code; no code is a prefix of another of its table, and no code is all ones. -/
def Obligations.HuffmanCodesArePrefixFree : Prop :=
  (∀ (t : HuffTable) (a b : Byte) (x y : List Bool), codeBits t a = some x → codeBits t b = some y →
    (x <+: y → a = b) ∧ false ∈ x) ∧
  (∀ (set : TableSet) (sym : Byte),
    ((codeBits (tableOf .dc set) sym).isSome = true ↔ sym.toNat ≤ 11) ∧
    ((codeBits (tableOf .ac set) sym).isSome = true ↔
      sym = 0x00#8 ∨ sym = 0xF0#8 ∨ (1 ≤ sym.toNat % 16 ∧ sym.toNat % 16 ≤ 10)))

/-- R108: a symbol with a code sends its code's bits, whole or cut at a failing write (R97); one without raises
HuffmanLengthError before any bit. -/
def Obligations.HuffmanEncodeSendsCodeOrRaises : Prop :=
  ∀ (sym : Byte) (t : HuffTable) (s : State),
    (∀ bits, codeBits t sym = some bits → PackerReady s →
      (SinkAcceptsBits bits s → exec (.huffmanEncode sym t) s = .next (returned .none (packed bits s))) ∧
      (∀ k, SinkCutsBits bits k s → exec (.huffmanEncode sym t) s = .next (returned .none (packedCut bits k s)))) ∧
    (codeBits t sym = none →
      exec (.huffmanEncode sym t) s =
        .next { s with busy := false, err := .huffmanLengthError, fatal := true, result := .none })

/-- R110, R111: `(size, bits)` of every integer. The rules use values of at most 33 bits (R112), whose size is 1 to 32;
that wider ones run the same pseudocode is the model's choice (log 26). -/
def Obligations.MagCategoryGivesSizeAndBits : Prop :=
  ∀ (v : Int) (s : State), ∃ size bits : Nat,
    exec (.magCategory v) s = .next (returned (.magnitude size bits) s) ∧
      (v = 0 → size = 0 ∧ bits = 0) ∧
      (v ≠ 0 → 1 ≤ size ∧ 2 ^ (size - 1) ≤ v.natAbs ∧ v.natAbs < 2 ^ size) ∧
      (0 < v → (bits : Int) = v) ∧ (v < 0 → (bits : Int) = v + 2 ^ size - 1)

/-- R107, R114, R115: the codes of EOB and ZRL in both AC tables, with no magnitude bits, whole or cut at a failing
write (R97). -/
def Obligations.EobAndZrlSendTheirCodes : Prop :=
  ∀ (ta : TableSet) (s : State), PackerReady s →
    (let bits := match ta with
        | .luma => [true, false, true, false]
        | .chroma => [false, false]
      (SinkAcceptsBits bits s → exec (.eob ta) s = .next (returned .none (packed bits s))) ∧
      (∀ k, SinkCutsBits bits k s → exec (.eob ta) s = .next (returned .none (packedCut bits k s)))) ∧
    (let bits := match ta with
        | .luma => [true, true, true, true, true, true, true, true, false, false, true]
        | .chroma => [true, true, true, true, true, true, true, false, true, false]
      (SinkAcceptsBits bits s → exec (.zrl ta) s = .next (returned .none (packed bits s))) ∧
      (∀ k, SinkCutsBits bits k s → exec (.zrl ta) s = .next (returned .none (packedCut bits k s))))

/-- R72, R112, R113: WRITE_BLOCK sends the coded block of the format, its codes in a row, and returns `block[0]`. R97 (f),
R97 (g): a failing write cuts it in the code that write belongs to; no later code runs and nothing is returned. -/
def Obligations.WriteBlockSendsCodedBlock : Prop :=
  ∀ (block : Block Coef) (prev : Coef) (td ta : TableSet) (s : State) (codes : List (List Bool)),
    blockCodes block prev td ta = some codes → PackerReady s →
    blockString block prev td ta = some codes.flatten ∧
    (SinkAcceptsBits codes.flatten s →
      exec (.writeBlock block prev td ta) s = .next (returned (.coef (block.getD 0 0#32)) (packed codes.flatten s))) ∧
    (∀ k, SinkCutsBits codes.flatten k s →
      exec (.writeBlock block prev td ta) s = .next (returned .none (cutCodes codes k s)))

/-- R117 (a), R117 (b), R117 (c): a block has a coded form exactly when its DC difference and its AC coefficients are
in range. -/
def Obligations.CodableBlocksAreTheOnesInRange : Prop :=
  ∀ (block : Block Coef) (prev : Coef) (td ta : TableSet),
    (blockString block prev td ta).isSome = true ↔
      ((block.getD 0 0#32).toInt - prev.toInt).natAbs ≤ 2047 ∧
      ∀ i, 1 ≤ i → i < 64 → (block.getD i 0#32).toInt.natAbs ≤ 1023

/-- R117: out of range, WRITE_BLOCK raises HuffmanLengthError: before any bit where the DC difference is at fault, and
in any case if the sink accepts all that was due before. -/
def Obligations.WriteBlockOutOfRangeRaises : Prop :=
  ∀ (block : Block Coef) (prev : Coef) (td ta : TableSet) (s : State),
    (2047 < ((block.getD 0 0#32).toInt - prev.toInt).natAbs →
      exec (.writeBlock block prev td ta) s =
        .next { s with busy := false, err := .huffmanLengthError, fatal := true, result := .none }) ∧
    (∀ i, 1 ≤ i → i < 64 → 1023 < (block.getD i 0#32).toInt.natAbs → (∀ a ∈ s.sinkAnswers, a = SinkAnswer.ok) →
      ∃ t, exec (.writeBlock block prev td ta) s = .next t ∧ t.err = .huffmanLengthError ∧ t.fatal = true ∧
        t.busy = false)

/-! ### The sampler and the colour transform -/

/-- R40, R121, R122, R123, R130: SAMPLE_BLOCK writes `samp` only. Each byte is the one at its offset, or the last of
the buffer past its end; one component is the gray channel itself, three are the colour transform of the pixel. The
model's choice: with an empty buffer the operation still completes (log 12), and an origin outside the operand range of
R123 is sampled like any other (log 30). -/
def Obligations.SampleBlockReadsImage : Prop :=
  ∀ (s : State) (x0 y0 : Nat), ∃ (samp : Triple (Block Byte)) (f : Nat),
    exec (.sampleBlock x0 y0) s = .next { s with samp := samp, freeCount := f, result := .none } ∧
    (0 < s.srcLen.toNat → f = s.freeCount ∧
      ∀ x y, x < 8 → y < 8 →
        let byte := fun k =>
          s.img.read (min (((y0 + y) * s.width.toNat + (x0 + x)) * bpp s.colorMode + k) (s.srcLen.toNat - 1))
        (s.ncomp = .one → samp.y.getD (8 * y + x) 0#8 = byte 0 ∧ samp.cb = s.samp.cb ∧ samp.cr = s.samp.cr) ∧
        (s.ncomp = .three →
          (samp.y.getD (8 * y + x) 0#8, samp.cb.getD (8 * y + x) 0#8, samp.cr.getD (8 * y + x) 0#8) =
            colorTransform s.params.colorArith (byte 0) (byte 1) (byte 2)))

/-- R126, R128 (b): the exact colour transform, with no clamp and no wrap. -/
def Obligations.ExactColorIsTruncatedFormula : Prop :=
  ∀ (r g b : Byte) (s : State), s.params.colorArith = .exact → ∃ y cb cr : Byte,
    exec (.colorTransform r g b) s = .next (returned (.ycc y cb cr) s) ∧
      (y.toNat : Int) = (2990 * r.toNat + 5870 * g.toNat + 1140 * b.toNat) / 10000 ∧
      (cb.toNat : Int) = (-1687 * r.toNat - 3313 * g.toNat + 5000 * b.toNat + 1280000) / 10000 ∧
      (cr.toNat : Int) = (5000 * r.toNat - 4187 * g.toNat - 813 * b.toNat + 1280000) / 10000

/-- R127: the binary32 transform completes, and its truncated sums (log 19) are bytes, so none is cut. `Cb` is that of
the printed formula of R126 for every triple, and `Y` and `Cr` are, or are one less. -/
def Obligations.Binary32ColorStaysInByteRange : Prop :=
  ∀ (r g b : Byte) (s : State), s.params.colorArith = .binary32 → ∃ y cb cr : Byte,
    exec (.colorTransform r g b) s = .next (returned (.ycc y cb cr) s) ∧
      (y.toNat : Int) = binaryY r g b ∧ (cb.toNat : Int) = binaryCb r g b ∧ (cr.toNat : Int) = binaryCr r g b ∧
      (let exactY : Int := (2990 * r.toNat + 5870 * g.toNat + 1140 * b.toNat) / 10000
      let exactCb : Int := (-1687 * r.toNat - 3313 * g.toNat + 5000 * b.toNat + 1280000) / 10000
      let exactCr : Int := (5000 * r.toNat - 4187 * g.toNat - 813 * b.toNat + 1280000) / 10000
      ((y.toNat : Int) = exactY ∨ (y.toNat : Int) = exactY - 1) ∧ (cb.toNat : Int) = exactCb ∧
        ((cr.toNat : Int) = exactCr ∨ (cr.toNat : Int) = exactCr - 1))

/-! ### The forward transform and the quantiser -/

/-- R132, R135, R136: FDCT writes `raw` only, and under the contract its DC entry is exact, a constant block has no
AC, and every AC entry is within the bound. Nothing more is known of it. -/
def Obligations.FdctMeetsItsContract : Prop :=
  ∀ (samp : Block Byte) (s : State), s.params.fdct = .contract → ∃ raw : Block Coef,
    exec (.fdct samp) s = .next { s with raw := raw, result := .none } ∧
      (raw.getD 0 0#32).toInt = ((samp.toList.map BitVec.toNat).sum : Int) - 8192 ∧
      -8192 ≤ (raw.getD 0 0#32).toInt ∧ (raw.getD 0 0#32).toInt ≤ 8128 ∧
      (∀ v, (∀ b ∈ samp.toList, b = v) → (raw.getD 0 0#32).toInt = 64 * ((v.toNat : Int) - 128) ∧
        ∀ i, 1 ≤ i → i < 64 → raw.getD i 0#32 = 0#32) ∧
      (∀ i, 1 ≤ i → i < 64 → (raw.getD i 0#32).toInt.natAbs ≤ 8184)

/-- R137: the reference instance meets R135 on every input. -/
def Obligations.ReferenceFdctIsExactAtDc : Prop :=
  ∀ (samp : Block Byte) (s : State), s.params.fdct = .reference → ∃ raw : Block Coef,
    exec (.fdct samp) s = .next { s with raw := raw, result := .none } ∧
      (raw.getD 0 0#32).toInt = ((samp.toList.map BitVec.toNat).sum : Int) - 8192 ∧
      (∀ v, (∀ b ∈ samp.toList, b = v) → ∀ i, 1 ≤ i → i < 64 → raw.getD i 0#32 = 0#32)

/-- R142, R143: QUANTIZE writes `q` only; each entry is the integer nearest to `n / t`, ties away from zero: in `trunc`
mode `n` is the quotient of `raw` by 8 toward zero and `t` the table entry, in `real` mode `n` is `raw` and `t` eight
times the entry. The model's choice: it completes on any table, and an entry 0, which R142 excludes, leaves only its own
result open (log 13). -/
def Obligations.QuantizeRoundsToNearest : Prop :=
  ∀ (raw : Block Coef) (table : Block Byte) (s : State), ∃ q : Block Coef,
    exec (.quantize raw table) s = .next { s with q := q, result := .none } ∧
      ∀ i, i < 64 → table.getD i 0#8 ≠ 0#8 →
        let n := match s.params.div8Mode with
          | .trunc => (raw.getD i 0#32).toInt.tdiv 8
          | .real => (raw.getD i 0#32).toInt
        let t : Int := match s.params.div8Mode with
          | .trunc => (table.getD i 0#8).toNat
          | .real => 8 * (table.getD i 0#8).toNat
        let v := (q.getD i 0#32).toInt
        (2 * (v * t - n)).natAbs ≤ t.natAbs ∧ ((2 * (v * t - n)).natAbs = t.natAbs → n.natAbs < (v * t).natAbs)

/-! ### The segment builder and the marker emissions -/

/-- R147, R148, R150, R154: the builders return their data, from their operands alone, and change nothing else. The
operand `comp` of R148 and R154 is the constant of R23 (log 17). -/
def Obligations.BuildersReturnSegmentData : Prop :=
  ∀ s : State,
    exec .buildApp0 s = .next (returned (.bytes [0x4A#8, 0x46#8, 0x49#8, 0x46#8, 0x00#8, 0x01#8, 0x02#8, 0x00#8,
      0x00#8, 0x01#8, 0x00#8, 0x01#8, 0x00#8, 0x00#8]) s) ∧
    (∀ h w : BitVec 16,
      exec (.buildSof0 h w .one) s = .next (returned (.bytes [0x08#8, h.extractLsb' 8 8, h.extractLsb' 0 8,
        w.extractLsb' 8 8, w.extractLsb' 0 8, 0x01#8, 0x01#8, 0x11#8, 0x00#8]) s) ∧
      exec (.buildSof0 h w .three) s = .next (returned (.bytes [0x08#8, h.extractLsb' 8 8, h.extractLsb' 0 8,
        w.extractLsb' 8 8, w.extractLsb' 0 8, 0x03#8, 0x01#8, 0x11#8, 0x00#8, 0x02#8, 0x11#8, 0x01#8, 0x03#8, 0x11#8,
        0x01#8]) s)) ∧
    (∀ (tq : TableSet) (table : Block Byte), ∃ d : List Byte,
      exec (.buildDqt tq table) s = .next (returned (.bytes d) s) ∧ d.length = 65 ∧
        d.getD 0 0#8 = (match tq with | .luma => 0x00#8 | .chroma => 0x01#8) ∧
        ∀ k, k < 64 → d.getD (1 + zigzag k) 0#8 = table.getD k 0#8) ∧
    exec (.buildSos .one) s = .next (returned (.bytes [0x01#8, 0x01#8, 0x00#8, 0x00#8, 0x3F#8, 0x00#8]) s) ∧
    exec (.buildSos .three) s = .next (returned (.bytes [0x03#8, 0x01#8, 0x00#8, 0x02#8, 0x11#8, 0x03#8, 0x11#8,
      0x00#8, 0x3F#8, 0x00#8]) s)

/-- R152: BUILD_DHT returns its data when the counts sum to the number of values; otherwise DhtCountMismatch. R152 names
the four specifications of R78 to R81; that any other runs the same pseudocode, also past the 179 bytes of R146, is the
model's choice (log 34). -/
def Obligations.BuildDhtReturnsDataOrRaises : Prop :=
  ∀ (cls : TableClass) (dest : TableSet) (bits : Counts) (vals : List Byte) (s : State),
    ((bits.toList.map BitVec.toNat).sum = vals.length →
      exec (.buildDht cls dest bits vals) s = .next (returned (.bytes
        ((match cls, dest with
          | .dc, .luma => 0x00#8
          | .dc, .chroma => 0x01#8
          | .ac, .luma => 0x10#8
          | .ac, .chroma => 0x11#8) :: bits.toList ++ vals)) s)) ∧
    ((bits.toList.map BitVec.toNat).sum ≠ vals.length →
      exec (.buildDht cls dest bits vals) s =
        .next { s with busy := false, err := .dhtCountMismatch, fatal := true, result := .none })

/-- R151: for every scan position `k`, byte `1 + k` of the DQT data is the entry that divided the coefficient coded at
position `k`. -/
def Obligations.DqtOrderIsScanOrder : Prop :=
  ∀ (mode : Div8Mode) (raw : Block Coef) (table : Block Byte) (tq : TableSet) (k : Nat), k < 64 →
    (dqtData tq table).getD (1 + k) 0#8 = table.getD (unzigzag k) 0#8 ∧
    (quantize mode raw table).getD (unzigzag k) 0#32 =
      quantizeEntry mode (raw.getD (unzigzag k) 0#32) ((dqtData tq table).getD (1 + k) 0#8) ∧
    ((dcOf (quantize mode raw table)) :: acInScanOrder (quantize mode raw table)).getD k 0#32 =
      (quantize mode raw table).getD (unzigzag k) 0#32

/-- R101: SOI, APP0 and EOI write their bytes, past the accumulator; a failing write cuts them where it falls (R100). -/
def Obligations.FixedMarkersWriteTheirBytes : Prop :=
  ∀ s : State,
    let app0 : List Byte := [0xFF#8, 0xE0#8, 0x00#8, 0x10#8, 0x4A#8, 0x46#8, 0x49#8, 0x46#8, 0x00#8, 0x01#8, 0x02#8,
      0x00#8, 0x00#8, 0x01#8, 0x00#8, 0x01#8, 0x00#8, 0x00#8]
    (SinkAccepts 2 s → exec .soi s = .next (returned .none (appended [0xFF#8, 0xD8#8] s)) ∧
      exec .eoi s = .next (returned .none (appended [0xFF#8, 0xD9#8] s))) ∧
    (SinkAccepts 18 s → exec .app0 s = .next (returned .none (appended app0 s))) ∧
    (∀ k, SinkFailsAfter k s →
      (k < 2 → exec .soi s = .next (returned .none (cutBytes [0xFF#8, 0xD8#8] k s)) ∧
        exec .eoi s = .next (returned .none (cutBytes [0xFF#8, 0xD9#8] k s))) ∧
      (k < 18 → exec .app0 s = .next (returned .none (cutBytes app0 k s))))

/-- R101: SOF0 and SOS write their bytes from HEIGHT, WIDTH and MODE; a failing write cuts them where it falls (R100). -/
def Obligations.FrameMarkersWriteTheirBytes : Prop :=
  ∀ s : State,
    let dims := [s.height.extractLsb' 8 8, s.height.extractLsb' 0 8, s.width.extractLsb' 8 8, s.width.extractLsb' 0 8]
    (s.mode = 0#2 ∨ s.mode = 1#2 →
      let sof0 := [0xFF#8, 0xC0#8, 0x00#8, 0x11#8, 0x08#8] ++ dims ++
        [0x03#8, 0x01#8, 0x11#8, 0x00#8, 0x02#8, 0x11#8, 0x01#8, 0x03#8, 0x11#8, 0x01#8]
      let sos := [0xFF#8, 0xDA#8, 0x00#8, 0x0C#8, 0x03#8, 0x01#8, 0x00#8, 0x02#8, 0x11#8, 0x03#8, 0x11#8, 0x00#8, 0x3F#8,
        0x00#8]
      (SinkAccepts 19 s → exec .sof0 s = .next (returned .none (appended sof0 s))) ∧
      (SinkAccepts 14 s → exec .sos s = .next (returned .none (appended sos s))) ∧
      (∀ k, SinkFailsAfter k s → (k < 19 → exec .sof0 s = .next (returned .none (cutBytes sof0 k s))) ∧
        (k < 14 → exec .sos s = .next (returned .none (cutBytes sos k s))))) ∧
    (s.mode = 2#2 ∨ s.mode = 3#2 →
      let sof0 := [0xFF#8, 0xC0#8, 0x00#8, 0x0B#8, 0x08#8] ++ dims ++ [0x01#8, 0x01#8, 0x11#8, 0x00#8]
      let sos := [0xFF#8, 0xDA#8, 0x00#8, 0x08#8, 0x01#8, 0x01#8, 0x00#8, 0x00#8, 0x3F#8, 0x00#8]
      (SinkAccepts 13 s → exec .sof0 s = .next (returned .none (appended sof0 s))) ∧
      (SinkAccepts 10 s → exec .sos s = .next (returned .none (appended sos s))) ∧
      (∀ k, SinkFailsAfter k s → (k < 13 → exec .sof0 s = .next (returned .none (cutBytes sof0 k s))) ∧
        (k < 10 → exec .sos s = .next (returned .none (cutBytes sos k s)))))

/-- R101, R153: DQT sends the table of its set, DHT the constant specification of its table; the counts agree with the
values, so DHT never raises DhtCountMismatch. A failing write cuts them where it falls (R100). -/
def Obligations.TableMarkersWriteTheirBytes : Prop :=
  ∀ (set : TableSet) (s : State),
    let dqt := [0xFF#8, 0xDB#8, 0x00#8, 0x43#8] ++ dqtData set (s.qt.get set)
    let dhtDc := [0xFF#8, 0xC4#8, 0x00#8, 0x1F#8] ++
      dhtBytes .dc set (huffBits (tableOf .dc set)) (huffVals (tableOf .dc set))
    let dhtAc := [0xFF#8, 0xC4#8, 0x00#8, 0xB5#8] ++
      dhtBytes .ac set (huffBits (tableOf .ac set)) (huffVals (tableOf .ac set))
    (SinkAccepts 69 s → exec (.dqt set) s = .next (returned .none (appended dqt s))) ∧
    (SinkAccepts 33 s → exec (.dht .dc set) s = .next (returned .none (appended dhtDc s))) ∧
    (SinkAccepts 183 s → exec (.dht .ac set) s = .next (returned .none (appended dhtAc s))) ∧
    (∀ k, SinkFailsAfter k s →
      (k < 69 → exec (.dqt set) s = .next (returned .none (cutBytes dqt k s))) ∧
      (k < 33 → exec (.dht .dc set) s = .next (returned .none (cutBytes dhtDc k s))) ∧
      (k < 183 → exec (.dht .ac set) s = .next (returned .none (cutBytes dhtAc k s))))

/-! ### ENCODE -/

/-- R173: if every write is accepted, an accepted encode whose symbols all have a code appends exactly `S`, and ends
as `Ok(())`. -/
def Obligations.EncodeWritesWholeStream : Prop :=
  ∀ (s : State) (S : List Byte), EncodeAccepted s → streamOf s = some S → SinkAccepts S.length s →
    ∃ t, exec .encode s = .next t ∧ t.out = s.out ++ S ∧ t.sinkAnswers = s.sinkAnswers.drop S.length ∧
      t.busy = false ∧ t.phase = .finalized ∧ t.err = .none ∧ t.fatal = false

/-- R46, R178, R181: if write number `k` of the stream fails, the sink holds the first `k` bytes of `S`, and the encode
has ended with SinkWriteFailure. -/
def Obligations.EncodeIsCutAtFailingWrite : Prop :=
  ∀ (s : State) (S : List Byte) (k : Nat), EncodeAccepted s → streamOf s = some S → k < S.length →
    SinkFailsAfter k s →
    ∃ t, exec .encode s = .next t ∧ t.out = s.out ++ S.take k ∧ t.sinkAnswers = s.sinkAnswers.drop (k + 1) ∧
      t.busy = false ∧ t.phase ≠ .finalized ∧ t.err = .sinkWriteFailure ∧ t.fatal = false

/-- R172, R178, R182, R214: an accepted encode always ends, finished with no error or aborted with the code of a sink
failure or of a symbol without a code; the tables, the registers and the image are as before. -/
def Obligations.EncodeAlwaysEnds : Prop :=
  ∀ s : State, EncodeAccepted s → ∃ t, exec .encode s = .next t ∧ t.busy = false ∧
    ((t.phase = .finalized ∧ t.err = .none ∧ t.fatal = false) ∨
      (t.phase ≠ .finalized ∧ t.err = .sinkWriteFailure ∧ t.fatal = false) ∨
      (t.phase ≠ .finalized ∧ t.err = .huffmanLengthError ∧ t.fatal = true)) ∧
    t.qt = s.qt ∧ t.cfgValid = s.cfgValid ∧ t.img = s.img ∧ t.width = s.width ∧ t.height = s.height ∧
    t.mode = s.mode ∧ t.srcLen = s.srcLen ∧ t.quality = s.quality

/-- R145, R182: with a transform inside its contract and no table entry 0 every symbol has a code, and no encode ends
in a fatal error. -/
def Obligations.ContractEncodeIsNeverFatal : Prop :=
  ∀ s t : State, EncodeAccepted s → s.params.fdct = .contract → TablesNonzero s →
    (streamOf s).isSome = true ∧ (exec .encode s = .next t → t.fatal = false)

/-- R155, R176: a frame with a zero dimension is accepted, whatever `SRC_LEN` is; it is its header and EOI, 330 bytes
for one component and 625 for three, and no block is sampled. -/
def Obligations.EmptyFrameIsHeaderAndEoi : Prop :=
  ∀ s : State, s.busy = false → s.fatal = false → s.cfgValid = true → (s.width = 0#16 ∨ s.height = 0#16) →
    (let total := match s.ncomp with | .one => 330 | .three => 625
    SinkAccepts total s →
    ∃ t, exec .encode s = .next t ∧ t.out = s.out ++ headerBytes s ++ [0xFF#8, 0xD9#8] ∧
      (headerBytes s ++ [0xFF#8, 0xD9#8]).length = total ∧ t.busy = false ∧ t.phase = .finalized ∧ t.err = .none ∧
      t.nbits = 7 ∧ t.acc = 0xFE000000#32 ∧ t.samp = s.samp ∧ t.raw = s.raw ∧ t.q = s.q)

/-- R164, R177, R208, R209: what an encode appends, and how it ends, does not depend on what earlier encodes left in
the accumulator, the predictors, the position, the phase, the error code or the block buffers. -/
def Obligations.EncodeIgnoresLeftovers : Prop :=
  ∀ s t : State, SameEncodeInputs s t → EncodeAccepted s →
    ∃ s' t' bs, exec .encode s = .next s' ∧ exec .encode t = .next t' ∧ s'.out = s.out ++ bs ∧
      t'.out = t.out ++ bs ∧ statusWord s' = statusWord t'

/-- R174 (log 4): the encode taken as one transition and the encode run one operation a step end in the same state, whatever
the sink answers. -/
def Obligations.FineStepsReachTheSameEnd : Prop :=
  ∀ s : State, EncodeAccepted s → s.input = [] →
    ∃ n : Nat, Host.Core.run Sys2Proof.core n (encodeStart s) = exec .encode s
end

