-- ==== Sys2Proof/Laws/State.lean ====
section
/-! SUPPORT. One lemma per field of State for each named update, so that no proof unfolds a record update. -/
namespace Sys2Proof.Machine
open Sys2Proof

/-! ### `raiseError` -/

@[simp] theorem raiseError_acc (e : ErrCode) (s : State) :
    (raiseError e s).acc = s.acc := rfl
@[simp] theorem raiseError_nbits (e : ErrCode) (s : State) :
    (raiseError e s).nbits = s.nbits := rfl
@[simp] theorem raiseError_pred (e : ErrCode) (s : State) :
    (raiseError e s).pred = s.pred := rfl
@[simp] theorem raiseError_samp (e : ErrCode) (s : State) :
    (raiseError e s).samp = s.samp := rfl
@[simp] theorem raiseError_raw (e : ErrCode) (s : State) :
    (raiseError e s).raw = s.raw := rfl
@[simp] theorem raiseError_q (e : ErrCode) (s : State) :
    (raiseError e s).q = s.q := rfl
@[simp] theorem raiseError_busy (e : ErrCode) (s : State) :
    (raiseError e s).busy = false := rfl
@[simp] theorem raiseError_phase (e : ErrCode) (s : State) :
    (raiseError e s).phase = s.phase := rfl
@[simp] theorem raiseError_y0 (e : ErrCode) (s : State) :
    (raiseError e s).y0 = s.y0 := rfl
@[simp] theorem raiseError_x0 (e : ErrCode) (s : State) :
    (raiseError e s).x0 = s.x0 := rfl
@[simp] theorem raiseError_c (e : ErrCode) (s : State) :
    (raiseError e s).c = s.c := rfl
@[simp] theorem raiseError_qt (e : ErrCode) (s : State) :
    (raiseError e s).qt = s.qt := rfl
@[simp] theorem raiseError_quality (e : ErrCode) (s : State) :
    (raiseError e s).quality = s.quality := rfl
@[simp] theorem raiseError_width (e : ErrCode) (s : State) :
    (raiseError e s).width = s.width := rfl
@[simp] theorem raiseError_height (e : ErrCode) (s : State) :
    (raiseError e s).height = s.height := rfl
@[simp] theorem raiseError_mode (e : ErrCode) (s : State) :
    (raiseError e s).mode = s.mode := rfl
@[simp] theorem raiseError_srcLen (e : ErrCode) (s : State) :
    (raiseError e s).srcLen = s.srcLen := rfl
@[simp] theorem raiseError_cfgValid (e : ErrCode) (s : State) :
    (raiseError e s).cfgValid = s.cfgValid := rfl
@[simp] theorem raiseError_err (e : ErrCode) (s : State) :
    (raiseError e s).err = e := rfl
@[simp] theorem raiseError_fatal (e : ErrCode) (s : State) :
    (raiseError e s).fatal = (s.fatal || e.isFatal) := rfl
@[simp] theorem raiseError_out (e : ErrCode) (s : State) :
    (raiseError e s).out = s.out := rfl
@[simp] theorem raiseError_img (e : ErrCode) (s : State) :
    (raiseError e s).img = s.img := rfl
@[simp] theorem raiseError_sinkAnswers (e : ErrCode) (s : State) :
    (raiseError e s).sinkAnswers = s.sinkAnswers := rfl
@[simp] theorem raiseError_input (e : ErrCode) (s : State) :
    (raiseError e s).input = s.input := rfl
@[simp] theorem raiseError_lastRead (e : ErrCode) (s : State) :
    (raiseError e s).lastRead = s.lastRead := rfl
@[simp] theorem raiseError_result (e : ErrCode) (s : State) :
    (raiseError e s).result = s.result := rfl
@[simp] theorem raiseError_seq (e : ErrCode) (s : State) :
    (raiseError e s).seq = s.seq := rfl
@[simp] theorem raiseError_sent (e : ErrCode) (s : State) :
    (raiseError e s).sent = s.sent := rfl
@[simp] theorem raiseError_freeCount (e : ErrCode) (s : State) :
    (raiseError e s).freeCount = s.freeCount := rfl
@[simp] theorem raiseError_params (e : ErrCode) (s : State) :
    (raiseError e s).params = s.params := rfl

/-! ### `clearError` -/

@[simp] theorem clearError_acc (s : State) :
    (clearError s).acc = s.acc := rfl
@[simp] theorem clearError_nbits (s : State) :
    (clearError s).nbits = s.nbits := rfl
@[simp] theorem clearError_pred (s : State) :
    (clearError s).pred = s.pred := rfl
@[simp] theorem clearError_samp (s : State) :
    (clearError s).samp = s.samp := rfl
@[simp] theorem clearError_raw (s : State) :
    (clearError s).raw = s.raw := rfl
@[simp] theorem clearError_q (s : State) :
    (clearError s).q = s.q := rfl
@[simp] theorem clearError_busy (s : State) :
    (clearError s).busy = s.busy := rfl
@[simp] theorem clearError_phase (s : State) :
    (clearError s).phase = s.phase := rfl
@[simp] theorem clearError_y0 (s : State) :
    (clearError s).y0 = s.y0 := rfl
@[simp] theorem clearError_x0 (s : State) :
    (clearError s).x0 = s.x0 := rfl
@[simp] theorem clearError_c (s : State) :
    (clearError s).c = s.c := rfl
@[simp] theorem clearError_qt (s : State) :
    (clearError s).qt = s.qt := rfl
@[simp] theorem clearError_quality (s : State) :
    (clearError s).quality = s.quality := rfl
@[simp] theorem clearError_width (s : State) :
    (clearError s).width = s.width := rfl
@[simp] theorem clearError_height (s : State) :
    (clearError s).height = s.height := rfl
@[simp] theorem clearError_mode (s : State) :
    (clearError s).mode = s.mode := rfl
@[simp] theorem clearError_srcLen (s : State) :
    (clearError s).srcLen = s.srcLen := rfl
@[simp] theorem clearError_cfgValid (s : State) :
    (clearError s).cfgValid = s.cfgValid := rfl
@[simp] theorem clearError_err (s : State) :
    (clearError s).err = .none := rfl
@[simp] theorem clearError_fatal (s : State) :
    (clearError s).fatal = s.fatal := rfl
@[simp] theorem clearError_out (s : State) :
    (clearError s).out = s.out := rfl
@[simp] theorem clearError_img (s : State) :
    (clearError s).img = s.img := rfl
@[simp] theorem clearError_sinkAnswers (s : State) :
    (clearError s).sinkAnswers = s.sinkAnswers := rfl
@[simp] theorem clearError_input (s : State) :
    (clearError s).input = s.input := rfl
@[simp] theorem clearError_lastRead (s : State) :
    (clearError s).lastRead = s.lastRead := rfl
@[simp] theorem clearError_result (s : State) :
    (clearError s).result = s.result := rfl
@[simp] theorem clearError_seq (s : State) :
    (clearError s).seq = s.seq := rfl
@[simp] theorem clearError_sent (s : State) :
    (clearError s).sent = s.sent := rfl
@[simp] theorem clearError_freeCount (s : State) :
    (clearError s).freeCount = s.freeCount := rfl
@[simp] theorem clearError_params (s : State) :
    (clearError s).params = s.params := rfl

/-! ### `configure` -/

@[simp] theorem configure_acc (s : State) :
    (configure s).acc = s.acc := rfl
@[simp] theorem configure_nbits (s : State) :
    (configure s).nbits = s.nbits := rfl
@[simp] theorem configure_pred (s : State) :
    (configure s).pred = s.pred := rfl
@[simp] theorem configure_samp (s : State) :
    (configure s).samp = s.samp := rfl
@[simp] theorem configure_raw (s : State) :
    (configure s).raw = s.raw := rfl
@[simp] theorem configure_q (s : State) :
    (configure s).q = s.q := rfl
@[simp] theorem configure_busy (s : State) :
    (configure s).busy = s.busy := rfl
@[simp] theorem configure_phase (s : State) :
    (configure s).phase = s.phase := rfl
@[simp] theorem configure_y0 (s : State) :
    (configure s).y0 = s.y0 := rfl
@[simp] theorem configure_x0 (s : State) :
    (configure s).x0 = s.x0 := rfl
@[simp] theorem configure_c (s : State) :
    (configure s).c = s.c := rfl
@[simp] theorem configure_qt (s : State) :
    (configure s).qt = ⟨buildQtable (stdQ .luma) s.quality, buildQtable (stdQ .chroma) s.quality⟩ := rfl
@[simp] theorem configure_quality (s : State) :
    (configure s).quality = s.quality := rfl
@[simp] theorem configure_width (s : State) :
    (configure s).width = s.width := rfl
@[simp] theorem configure_height (s : State) :
    (configure s).height = s.height := rfl
@[simp] theorem configure_mode (s : State) :
    (configure s).mode = s.mode := rfl
@[simp] theorem configure_srcLen (s : State) :
    (configure s).srcLen = s.srcLen := rfl
@[simp] theorem configure_cfgValid (s : State) :
    (configure s).cfgValid = true := rfl
@[simp] theorem configure_err (s : State) :
    (configure s).err = .none := rfl
@[simp] theorem configure_fatal (s : State) :
    (configure s).fatal = s.fatal := rfl
@[simp] theorem configure_out (s : State) :
    (configure s).out = s.out := rfl
@[simp] theorem configure_img (s : State) :
    (configure s).img = s.img := rfl
@[simp] theorem configure_sinkAnswers (s : State) :
    (configure s).sinkAnswers = s.sinkAnswers := rfl
@[simp] theorem configure_input (s : State) :
    (configure s).input = s.input := rfl
@[simp] theorem configure_lastRead (s : State) :
    (configure s).lastRead = s.lastRead := rfl
@[simp] theorem configure_result (s : State) :
    (configure s).result = s.result := rfl
@[simp] theorem configure_seq (s : State) :
    (configure s).seq = s.seq := rfl
@[simp] theorem configure_sent (s : State) :
    (configure s).sent = s.sent := rfl
@[simp] theorem configure_freeCount (s : State) :
    (configure s).freeCount = s.freeCount := rfl
@[simp] theorem configure_params (s : State) :
    (configure s).params = s.params := rfl

/-! ### `encodeStart` -/

@[simp] theorem encodeStart_acc (s : State) :
    (encodeStart s).acc = 0#32 := rfl
@[simp] theorem encodeStart_nbits (s : State) :
    (encodeStart s).nbits = 0 := rfl
@[simp] theorem encodeStart_pred (s : State) :
    (encodeStart s).pred = ⟨0#32, 0#32, 0#32⟩ := rfl
@[simp] theorem encodeStart_samp (s : State) :
    (encodeStart s).samp = s.samp := rfl
@[simp] theorem encodeStart_raw (s : State) :
    (encodeStart s).raw = s.raw := rfl
@[simp] theorem encodeStart_q (s : State) :
    (encodeStart s).q = s.q := rfl
@[simp] theorem encodeStart_busy (s : State) :
    (encodeStart s).busy = true := rfl
@[simp] theorem encodeStart_phase (s : State) :
    (encodeStart s).phase = .start := rfl
@[simp] theorem encodeStart_y0 (s : State) :
    (encodeStart s).y0 = 0 := rfl
@[simp] theorem encodeStart_x0 (s : State) :
    (encodeStart s).x0 = 0 := rfl
@[simp] theorem encodeStart_c (s : State) :
    (encodeStart s).c = .y := rfl
@[simp] theorem encodeStart_qt (s : State) :
    (encodeStart s).qt = s.qt := rfl
@[simp] theorem encodeStart_quality (s : State) :
    (encodeStart s).quality = s.quality := rfl
@[simp] theorem encodeStart_width (s : State) :
    (encodeStart s).width = s.width := rfl
@[simp] theorem encodeStart_height (s : State) :
    (encodeStart s).height = s.height := rfl
@[simp] theorem encodeStart_mode (s : State) :
    (encodeStart s).mode = s.mode := rfl
@[simp] theorem encodeStart_srcLen (s : State) :
    (encodeStart s).srcLen = s.srcLen := rfl
@[simp] theorem encodeStart_cfgValid (s : State) :
    (encodeStart s).cfgValid = s.cfgValid := rfl
@[simp] theorem encodeStart_err (s : State) :
    (encodeStart s).err = .none := rfl
@[simp] theorem encodeStart_fatal (s : State) :
    (encodeStart s).fatal = s.fatal := rfl
@[simp] theorem encodeStart_out (s : State) :
    (encodeStart s).out = s.out := rfl
@[simp] theorem encodeStart_img (s : State) :
    (encodeStart s).img = s.img := rfl
@[simp] theorem encodeStart_sinkAnswers (s : State) :
    (encodeStart s).sinkAnswers = s.sinkAnswers := rfl
@[simp] theorem encodeStart_input (s : State) :
    (encodeStart s).input = s.input := rfl
@[simp] theorem encodeStart_lastRead (s : State) :
    (encodeStart s).lastRead = s.lastRead := rfl
@[simp] theorem encodeStart_result (s : State) :
    (encodeStart s).result = s.result := rfl
@[simp] theorem encodeStart_seq (s : State) :
    (encodeStart s).seq = .header 0 := rfl
@[simp] theorem encodeStart_sent (s : State) :
    (encodeStart s).sent = 0 := rfl
@[simp] theorem encodeStart_freeCount (s : State) :
    (encodeStart s).freeCount = s.freeCount := rfl
@[simp] theorem encodeStart_params (s : State) :
    (encodeStart s).params = s.params := rfl

/-! ### `sampleBlock` -/

@[simp] theorem sampleBlock_acc (x0 y0 : Nat) (s : State) :
    (sampleBlock x0 y0 s).acc = s.acc := rfl
@[simp] theorem sampleBlock_nbits (x0 y0 : Nat) (s : State) :
    (sampleBlock x0 y0 s).nbits = s.nbits := rfl
@[simp] theorem sampleBlock_pred (x0 y0 : Nat) (s : State) :
    (sampleBlock x0 y0 s).pred = s.pred := rfl
@[simp] theorem sampleBlock_samp (x0 y0 : Nat) (s : State) :
    (sampleBlock x0 y0 s).samp = sampledBlocks s x0 y0 := rfl
@[simp] theorem sampleBlock_raw (x0 y0 : Nat) (s : State) :
    (sampleBlock x0 y0 s).raw = s.raw := rfl
@[simp] theorem sampleBlock_q (x0 y0 : Nat) (s : State) :
    (sampleBlock x0 y0 s).q = s.q := rfl
@[simp] theorem sampleBlock_busy (x0 y0 : Nat) (s : State) :
    (sampleBlock x0 y0 s).busy = s.busy := rfl
@[simp] theorem sampleBlock_phase (x0 y0 : Nat) (s : State) :
    (sampleBlock x0 y0 s).phase = s.phase := rfl
@[simp] theorem sampleBlock_y0 (x0 y0 : Nat) (s : State) :
    (sampleBlock x0 y0 s).y0 = s.y0 := rfl
@[simp] theorem sampleBlock_x0 (x0 y0 : Nat) (s : State) :
    (sampleBlock x0 y0 s).x0 = s.x0 := rfl
@[simp] theorem sampleBlock_c (x0 y0 : Nat) (s : State) :
    (sampleBlock x0 y0 s).c = s.c := rfl
@[simp] theorem sampleBlock_qt (x0 y0 : Nat) (s : State) :
    (sampleBlock x0 y0 s).qt = s.qt := rfl
@[simp] theorem sampleBlock_quality (x0 y0 : Nat) (s : State) :
    (sampleBlock x0 y0 s).quality = s.quality := rfl
@[simp] theorem sampleBlock_width (x0 y0 : Nat) (s : State) :
    (sampleBlock x0 y0 s).width = s.width := rfl
@[simp] theorem sampleBlock_height (x0 y0 : Nat) (s : State) :
    (sampleBlock x0 y0 s).height = s.height := rfl
@[simp] theorem sampleBlock_mode (x0 y0 : Nat) (s : State) :
    (sampleBlock x0 y0 s).mode = s.mode := rfl
@[simp] theorem sampleBlock_srcLen (x0 y0 : Nat) (s : State) :
    (sampleBlock x0 y0 s).srcLen = s.srcLen := rfl
@[simp] theorem sampleBlock_cfgValid (x0 y0 : Nat) (s : State) :
    (sampleBlock x0 y0 s).cfgValid = s.cfgValid := rfl
@[simp] theorem sampleBlock_err (x0 y0 : Nat) (s : State) :
    (sampleBlock x0 y0 s).err = s.err := rfl
@[simp] theorem sampleBlock_fatal (x0 y0 : Nat) (s : State) :
    (sampleBlock x0 y0 s).fatal = s.fatal := rfl
@[simp] theorem sampleBlock_out (x0 y0 : Nat) (s : State) :
    (sampleBlock x0 y0 s).out = s.out := rfl
@[simp] theorem sampleBlock_img (x0 y0 : Nat) (s : State) :
    (sampleBlock x0 y0 s).img = s.img := rfl
@[simp] theorem sampleBlock_sinkAnswers (x0 y0 : Nat) (s : State) :
    (sampleBlock x0 y0 s).sinkAnswers = s.sinkAnswers := rfl
@[simp] theorem sampleBlock_input (x0 y0 : Nat) (s : State) :
    (sampleBlock x0 y0 s).input = s.input := rfl
@[simp] theorem sampleBlock_lastRead (x0 y0 : Nat) (s : State) :
    (sampleBlock x0 y0 s).lastRead = s.lastRead := rfl
@[simp] theorem sampleBlock_result (x0 y0 : Nat) (s : State) :
    (sampleBlock x0 y0 s).result = s.result := rfl
@[simp] theorem sampleBlock_seq (x0 y0 : Nat) (s : State) :
    (sampleBlock x0 y0 s).seq = s.seq := rfl
@[simp] theorem sampleBlock_sent (x0 y0 : Nat) (s : State) :
    (sampleBlock x0 y0 s).sent = s.sent := rfl
@[simp] theorem sampleBlock_freeCount (x0 y0 : Nat) (s : State) :
    (sampleBlock x0 y0 s).freeCount = if s.srcLen = 0#36 then s.freeCount + 1 else s.freeCount := rfl
@[simp] theorem sampleBlock_params (x0 y0 : Nat) (s : State) :
    (sampleBlock x0 y0 s).params = s.params := rfl

/-! ### `fdctInto` -/

@[simp] theorem fdctInto_acc (samp : Block Byte) (s : State) :
    (fdctInto samp s).acc = s.acc := rfl
@[simp] theorem fdctInto_nbits (samp : Block Byte) (s : State) :
    (fdctInto samp s).nbits = s.nbits := rfl
@[simp] theorem fdctInto_pred (samp : Block Byte) (s : State) :
    (fdctInto samp s).pred = s.pred := rfl
@[simp] theorem fdctInto_samp (samp : Block Byte) (s : State) :
    (fdctInto samp s).samp = s.samp := rfl
@[simp] theorem fdctInto_raw (samp : Block Byte) (s : State) :
    (fdctInto samp s).raw = fdct s.params.fdct samp := rfl
@[simp] theorem fdctInto_q (samp : Block Byte) (s : State) :
    (fdctInto samp s).q = s.q := rfl
@[simp] theorem fdctInto_busy (samp : Block Byte) (s : State) :
    (fdctInto samp s).busy = s.busy := rfl
@[simp] theorem fdctInto_phase (samp : Block Byte) (s : State) :
    (fdctInto samp s).phase = s.phase := rfl
@[simp] theorem fdctInto_y0 (samp : Block Byte) (s : State) :
    (fdctInto samp s).y0 = s.y0 := rfl
@[simp] theorem fdctInto_x0 (samp : Block Byte) (s : State) :
    (fdctInto samp s).x0 = s.x0 := rfl
@[simp] theorem fdctInto_c (samp : Block Byte) (s : State) :
    (fdctInto samp s).c = s.c := rfl
@[simp] theorem fdctInto_qt (samp : Block Byte) (s : State) :
    (fdctInto samp s).qt = s.qt := rfl
@[simp] theorem fdctInto_quality (samp : Block Byte) (s : State) :
    (fdctInto samp s).quality = s.quality := rfl
@[simp] theorem fdctInto_width (samp : Block Byte) (s : State) :
    (fdctInto samp s).width = s.width := rfl
@[simp] theorem fdctInto_height (samp : Block Byte) (s : State) :
    (fdctInto samp s).height = s.height := rfl
@[simp] theorem fdctInto_mode (samp : Block Byte) (s : State) :
    (fdctInto samp s).mode = s.mode := rfl
@[simp] theorem fdctInto_srcLen (samp : Block Byte) (s : State) :
    (fdctInto samp s).srcLen = s.srcLen := rfl
@[simp] theorem fdctInto_cfgValid (samp : Block Byte) (s : State) :
    (fdctInto samp s).cfgValid = s.cfgValid := rfl
@[simp] theorem fdctInto_err (samp : Block Byte) (s : State) :
    (fdctInto samp s).err = s.err := rfl
@[simp] theorem fdctInto_fatal (samp : Block Byte) (s : State) :
    (fdctInto samp s).fatal = s.fatal := rfl
@[simp] theorem fdctInto_out (samp : Block Byte) (s : State) :
    (fdctInto samp s).out = s.out := rfl
@[simp] theorem fdctInto_img (samp : Block Byte) (s : State) :
    (fdctInto samp s).img = s.img := rfl
@[simp] theorem fdctInto_sinkAnswers (samp : Block Byte) (s : State) :
    (fdctInto samp s).sinkAnswers = s.sinkAnswers := rfl
@[simp] theorem fdctInto_input (samp : Block Byte) (s : State) :
    (fdctInto samp s).input = s.input := rfl
@[simp] theorem fdctInto_lastRead (samp : Block Byte) (s : State) :
    (fdctInto samp s).lastRead = s.lastRead := rfl
@[simp] theorem fdctInto_result (samp : Block Byte) (s : State) :
    (fdctInto samp s).result = s.result := rfl
@[simp] theorem fdctInto_seq (samp : Block Byte) (s : State) :
    (fdctInto samp s).seq = s.seq := rfl
@[simp] theorem fdctInto_sent (samp : Block Byte) (s : State) :
    (fdctInto samp s).sent = s.sent := rfl
@[simp] theorem fdctInto_freeCount (samp : Block Byte) (s : State) :
    (fdctInto samp s).freeCount = s.freeCount := rfl
@[simp] theorem fdctInto_params (samp : Block Byte) (s : State) :
    (fdctInto samp s).params = s.params := rfl

/-! ### `quantizeInto` -/

@[simp] theorem quantizeInto_acc (raw : Block Coef) (table : Block Byte) (s : State) :
    (quantizeInto raw table s).acc = s.acc := rfl
@[simp] theorem quantizeInto_nbits (raw : Block Coef) (table : Block Byte) (s : State) :
    (quantizeInto raw table s).nbits = s.nbits := rfl
@[simp] theorem quantizeInto_pred (raw : Block Coef) (table : Block Byte) (s : State) :
    (quantizeInto raw table s).pred = s.pred := rfl
@[simp] theorem quantizeInto_samp (raw : Block Coef) (table : Block Byte) (s : State) :
    (quantizeInto raw table s).samp = s.samp := rfl
@[simp] theorem quantizeInto_raw (raw : Block Coef) (table : Block Byte) (s : State) :
    (quantizeInto raw table s).raw = s.raw := rfl
@[simp] theorem quantizeInto_q (raw : Block Coef) (table : Block Byte) (s : State) :
    (quantizeInto raw table s).q = quantize s.params.div8Mode raw table := rfl
@[simp] theorem quantizeInto_busy (raw : Block Coef) (table : Block Byte) (s : State) :
    (quantizeInto raw table s).busy = s.busy := rfl
@[simp] theorem quantizeInto_phase (raw : Block Coef) (table : Block Byte) (s : State) :
    (quantizeInto raw table s).phase = s.phase := rfl
@[simp] theorem quantizeInto_y0 (raw : Block Coef) (table : Block Byte) (s : State) :
    (quantizeInto raw table s).y0 = s.y0 := rfl
@[simp] theorem quantizeInto_x0 (raw : Block Coef) (table : Block Byte) (s : State) :
    (quantizeInto raw table s).x0 = s.x0 := rfl
@[simp] theorem quantizeInto_c (raw : Block Coef) (table : Block Byte) (s : State) :
    (quantizeInto raw table s).c = s.c := rfl
@[simp] theorem quantizeInto_qt (raw : Block Coef) (table : Block Byte) (s : State) :
    (quantizeInto raw table s).qt = s.qt := rfl
@[simp] theorem quantizeInto_quality (raw : Block Coef) (table : Block Byte) (s : State) :
    (quantizeInto raw table s).quality = s.quality := rfl
@[simp] theorem quantizeInto_width (raw : Block Coef) (table : Block Byte) (s : State) :
    (quantizeInto raw table s).width = s.width := rfl
@[simp] theorem quantizeInto_height (raw : Block Coef) (table : Block Byte) (s : State) :
    (quantizeInto raw table s).height = s.height := rfl
@[simp] theorem quantizeInto_mode (raw : Block Coef) (table : Block Byte) (s : State) :
    (quantizeInto raw table s).mode = s.mode := rfl
@[simp] theorem quantizeInto_srcLen (raw : Block Coef) (table : Block Byte) (s : State) :
    (quantizeInto raw table s).srcLen = s.srcLen := rfl
@[simp] theorem quantizeInto_cfgValid (raw : Block Coef) (table : Block Byte) (s : State) :
    (quantizeInto raw table s).cfgValid = s.cfgValid := rfl
@[simp] theorem quantizeInto_err (raw : Block Coef) (table : Block Byte) (s : State) :
    (quantizeInto raw table s).err = s.err := rfl
@[simp] theorem quantizeInto_fatal (raw : Block Coef) (table : Block Byte) (s : State) :
    (quantizeInto raw table s).fatal = s.fatal := rfl
@[simp] theorem quantizeInto_out (raw : Block Coef) (table : Block Byte) (s : State) :
    (quantizeInto raw table s).out = s.out := rfl
@[simp] theorem quantizeInto_img (raw : Block Coef) (table : Block Byte) (s : State) :
    (quantizeInto raw table s).img = s.img := rfl
@[simp] theorem quantizeInto_sinkAnswers (raw : Block Coef) (table : Block Byte) (s : State) :
    (quantizeInto raw table s).sinkAnswers = s.sinkAnswers := rfl
@[simp] theorem quantizeInto_input (raw : Block Coef) (table : Block Byte) (s : State) :
    (quantizeInto raw table s).input = s.input := rfl
@[simp] theorem quantizeInto_lastRead (raw : Block Coef) (table : Block Byte) (s : State) :
    (quantizeInto raw table s).lastRead = s.lastRead := rfl
@[simp] theorem quantizeInto_result (raw : Block Coef) (table : Block Byte) (s : State) :
    (quantizeInto raw table s).result = s.result := rfl
@[simp] theorem quantizeInto_seq (raw : Block Coef) (table : Block Byte) (s : State) :
    (quantizeInto raw table s).seq = s.seq := rfl
@[simp] theorem quantizeInto_sent (raw : Block Coef) (table : Block Byte) (s : State) :
    (quantizeInto raw table s).sent = s.sent := rfl
@[simp] theorem quantizeInto_freeCount (raw : Block Coef) (table : Block Byte) (s : State) :
    (quantizeInto raw table s).freeCount = s.freeCount := rfl
@[simp] theorem quantizeInto_params (raw : Block Coef) (table : Block Byte) (s : State) :
    (quantizeInto raw table s).params = s.params := rfl

/-! ### `setPred` -/

@[simp] theorem setPred_acc (c : Comp) (v : Coef) (s : State) :
    (setPred c v s).acc = s.acc := rfl
@[simp] theorem setPred_nbits (c : Comp) (v : Coef) (s : State) :
    (setPred c v s).nbits = s.nbits := rfl
@[simp] theorem setPred_pred (c : Comp) (v : Coef) (s : State) :
    (setPred c v s).pred = s.pred.set c v := rfl
@[simp] theorem setPred_samp (c : Comp) (v : Coef) (s : State) :
    (setPred c v s).samp = s.samp := rfl
@[simp] theorem setPred_raw (c : Comp) (v : Coef) (s : State) :
    (setPred c v s).raw = s.raw := rfl
@[simp] theorem setPred_q (c : Comp) (v : Coef) (s : State) :
    (setPred c v s).q = s.q := rfl
@[simp] theorem setPred_busy (c : Comp) (v : Coef) (s : State) :
    (setPred c v s).busy = s.busy := rfl
@[simp] theorem setPred_phase (c : Comp) (v : Coef) (s : State) :
    (setPred c v s).phase = s.phase := rfl
@[simp] theorem setPred_y0 (c : Comp) (v : Coef) (s : State) :
    (setPred c v s).y0 = s.y0 := rfl
@[simp] theorem setPred_x0 (c : Comp) (v : Coef) (s : State) :
    (setPred c v s).x0 = s.x0 := rfl
@[simp] theorem setPred_c (c : Comp) (v : Coef) (s : State) :
    (setPred c v s).c = s.c := rfl
@[simp] theorem setPred_qt (c : Comp) (v : Coef) (s : State) :
    (setPred c v s).qt = s.qt := rfl
@[simp] theorem setPred_quality (c : Comp) (v : Coef) (s : State) :
    (setPred c v s).quality = s.quality := rfl
@[simp] theorem setPred_width (c : Comp) (v : Coef) (s : State) :
    (setPred c v s).width = s.width := rfl
@[simp] theorem setPred_height (c : Comp) (v : Coef) (s : State) :
    (setPred c v s).height = s.height := rfl
@[simp] theorem setPred_mode (c : Comp) (v : Coef) (s : State) :
    (setPred c v s).mode = s.mode := rfl
@[simp] theorem setPred_srcLen (c : Comp) (v : Coef) (s : State) :
    (setPred c v s).srcLen = s.srcLen := rfl
@[simp] theorem setPred_cfgValid (c : Comp) (v : Coef) (s : State) :
    (setPred c v s).cfgValid = s.cfgValid := rfl
@[simp] theorem setPred_err (c : Comp) (v : Coef) (s : State) :
    (setPred c v s).err = s.err := rfl
@[simp] theorem setPred_fatal (c : Comp) (v : Coef) (s : State) :
    (setPred c v s).fatal = s.fatal := rfl
@[simp] theorem setPred_out (c : Comp) (v : Coef) (s : State) :
    (setPred c v s).out = s.out := rfl
@[simp] theorem setPred_img (c : Comp) (v : Coef) (s : State) :
    (setPred c v s).img = s.img := rfl
@[simp] theorem setPred_sinkAnswers (c : Comp) (v : Coef) (s : State) :
    (setPred c v s).sinkAnswers = s.sinkAnswers := rfl
@[simp] theorem setPred_input (c : Comp) (v : Coef) (s : State) :
    (setPred c v s).input = s.input := rfl
@[simp] theorem setPred_lastRead (c : Comp) (v : Coef) (s : State) :
    (setPred c v s).lastRead = s.lastRead := rfl
@[simp] theorem setPred_result (c : Comp) (v : Coef) (s : State) :
    (setPred c v s).result = s.result := rfl
@[simp] theorem setPred_seq (c : Comp) (v : Coef) (s : State) :
    (setPred c v s).seq = s.seq := rfl
@[simp] theorem setPred_sent (c : Comp) (v : Coef) (s : State) :
    (setPred c v s).sent = s.sent := rfl
@[simp] theorem setPred_freeCount (c : Comp) (v : Coef) (s : State) :
    (setPred c v s).freeCount = s.freeCount := rfl
@[simp] theorem setPred_params (c : Comp) (v : Coef) (s : State) :
    (setPred c v s).params = s.params := rfl

/-! ### `settle` -/

@[simp] theorem settle_acc (s : State) :
    (settle s).acc = s.acc := rfl
@[simp] theorem settle_nbits (s : State) :
    (settle s).nbits = s.nbits := rfl
@[simp] theorem settle_pred (s : State) :
    (settle s).pred = s.pred := rfl
@[simp] theorem settle_samp (s : State) :
    (settle s).samp = s.samp := rfl
@[simp] theorem settle_raw (s : State) :
    (settle s).raw = s.raw := rfl
@[simp] theorem settle_q (s : State) :
    (settle s).q = s.q := rfl
@[simp] theorem settle_busy (s : State) :
    (settle s).busy = s.busy := rfl
@[simp] theorem settle_phase (s : State) :
    (settle s).phase = s.phase := rfl
@[simp] theorem settle_y0 (s : State) :
    (settle s).y0 = s.y0 := rfl
@[simp] theorem settle_x0 (s : State) :
    (settle s).x0 = s.x0 := rfl
@[simp] theorem settle_c (s : State) :
    (settle s).c = s.c := rfl
@[simp] theorem settle_qt (s : State) :
    (settle s).qt = s.qt := rfl
@[simp] theorem settle_quality (s : State) :
    (settle s).quality = s.quality := rfl
@[simp] theorem settle_width (s : State) :
    (settle s).width = s.width := rfl
@[simp] theorem settle_height (s : State) :
    (settle s).height = s.height := rfl
@[simp] theorem settle_mode (s : State) :
    (settle s).mode = s.mode := rfl
@[simp] theorem settle_srcLen (s : State) :
    (settle s).srcLen = s.srcLen := rfl
@[simp] theorem settle_cfgValid (s : State) :
    (settle s).cfgValid = s.cfgValid := rfl
@[simp] theorem settle_err (s : State) :
    (settle s).err = s.err := rfl
@[simp] theorem settle_fatal (s : State) :
    (settle s).fatal = s.fatal := rfl
@[simp] theorem settle_out (s : State) :
    (settle s).out = s.out := rfl
@[simp] theorem settle_img (s : State) :
    (settle s).img = s.img := rfl
@[simp] theorem settle_sinkAnswers (s : State) :
    (settle s).sinkAnswers = s.sinkAnswers := rfl
@[simp] theorem settle_input (s : State) :
    (settle s).input = s.input := rfl
@[simp] theorem settle_lastRead (s : State) :
    (settle s).lastRead = s.lastRead := rfl
@[simp] theorem settle_result (s : State) :
    (settle s).result = .none := rfl
@[simp] theorem settle_seq (s : State) :
    (settle s).seq = .idle := rfl
@[simp] theorem settle_sent (s : State) :
    (settle s).sent = s.sent := rfl
@[simp] theorem settle_freeCount (s : State) :
    (settle s).freeCount = s.freeCount := rfl
@[simp] theorem settle_params (s : State) :
    (settle s).params = s.params := rfl

/-! ### `opStart` -/

@[simp] theorem opStart_acc (s : State) :
    (opStart s).acc = s.acc := rfl
@[simp] theorem opStart_nbits (s : State) :
    (opStart s).nbits = s.nbits := rfl
@[simp] theorem opStart_pred (s : State) :
    (opStart s).pred = s.pred := rfl
@[simp] theorem opStart_samp (s : State) :
    (opStart s).samp = s.samp := rfl
@[simp] theorem opStart_raw (s : State) :
    (opStart s).raw = s.raw := rfl
@[simp] theorem opStart_q (s : State) :
    (opStart s).q = s.q := rfl
@[simp] theorem opStart_busy (s : State) :
    (opStart s).busy = s.busy := rfl
@[simp] theorem opStart_phase (s : State) :
    (opStart s).phase = s.phase := rfl
@[simp] theorem opStart_y0 (s : State) :
    (opStart s).y0 = s.y0 := rfl
@[simp] theorem opStart_x0 (s : State) :
    (opStart s).x0 = s.x0 := rfl
@[simp] theorem opStart_c (s : State) :
    (opStart s).c = s.c := rfl
@[simp] theorem opStart_qt (s : State) :
    (opStart s).qt = s.qt := rfl
@[simp] theorem opStart_quality (s : State) :
    (opStart s).quality = s.quality := rfl
@[simp] theorem opStart_width (s : State) :
    (opStart s).width = s.width := rfl
@[simp] theorem opStart_height (s : State) :
    (opStart s).height = s.height := rfl
@[simp] theorem opStart_mode (s : State) :
    (opStart s).mode = s.mode := rfl
@[simp] theorem opStart_srcLen (s : State) :
    (opStart s).srcLen = s.srcLen := rfl
@[simp] theorem opStart_cfgValid (s : State) :
    (opStart s).cfgValid = s.cfgValid := rfl
@[simp] theorem opStart_err (s : State) :
    (opStart s).err = s.err := rfl
@[simp] theorem opStart_fatal (s : State) :
    (opStart s).fatal = s.fatal := rfl
@[simp] theorem opStart_out (s : State) :
    (opStart s).out = s.out.take (s.out.length - s.sent) := rfl
@[simp] theorem opStart_img (s : State) :
    (opStart s).img = s.img := rfl
@[simp] theorem opStart_sinkAnswers (s : State) :
    (opStart s).sinkAnswers = s.sinkAnswers := rfl
@[simp] theorem opStart_input (s : State) :
    (opStart s).input = s.input := rfl
@[simp] theorem opStart_lastRead (s : State) :
    (opStart s).lastRead = s.lastRead := rfl
@[simp] theorem opStart_result (s : State) :
    (opStart s).result = s.result := rfl
@[simp] theorem opStart_seq (s : State) :
    (opStart s).seq = s.seq := rfl
@[simp] theorem opStart_sent (s : State) :
    (opStart s).sent = 0 := rfl
@[simp] theorem opStart_freeCount (s : State) :
    (opStart s).freeCount = s.freeCount := rfl
@[simp] theorem opStart_params (s : State) :
    (opStart s).params = s.params := rfl

/-! ### `behind` -/

@[simp] theorem behind_acc (s t : State) :
    (behind s t).acc = t.acc := rfl
@[simp] theorem behind_nbits (s t : State) :
    (behind s t).nbits = t.nbits := rfl
@[simp] theorem behind_pred (s t : State) :
    (behind s t).pred = t.pred := rfl
@[simp] theorem behind_samp (s t : State) :
    (behind s t).samp = t.samp := rfl
@[simp] theorem behind_raw (s t : State) :
    (behind s t).raw = t.raw := rfl
@[simp] theorem behind_q (s t : State) :
    (behind s t).q = t.q := rfl
@[simp] theorem behind_busy (s t : State) :
    (behind s t).busy = t.busy := rfl
@[simp] theorem behind_phase (s t : State) :
    (behind s t).phase = t.phase := rfl
@[simp] theorem behind_y0 (s t : State) :
    (behind s t).y0 = t.y0 := rfl
@[simp] theorem behind_x0 (s t : State) :
    (behind s t).x0 = t.x0 := rfl
@[simp] theorem behind_c (s t : State) :
    (behind s t).c = t.c := rfl
@[simp] theorem behind_qt (s t : State) :
    (behind s t).qt = t.qt := rfl
@[simp] theorem behind_quality (s t : State) :
    (behind s t).quality = t.quality := rfl
@[simp] theorem behind_width (s t : State) :
    (behind s t).width = t.width := rfl
@[simp] theorem behind_height (s t : State) :
    (behind s t).height = t.height := rfl
@[simp] theorem behind_mode (s t : State) :
    (behind s t).mode = t.mode := rfl
@[simp] theorem behind_srcLen (s t : State) :
    (behind s t).srcLen = t.srcLen := rfl
@[simp] theorem behind_cfgValid (s t : State) :
    (behind s t).cfgValid = t.cfgValid := rfl
@[simp] theorem behind_err (s t : State) :
    (behind s t).err = t.err := rfl
@[simp] theorem behind_fatal (s t : State) :
    (behind s t).fatal = t.fatal := rfl
@[simp] theorem behind_out (s t : State) :
    (behind s t).out = s.out ++ t.out.drop s.out.length := rfl
@[simp] theorem behind_img (s t : State) :
    (behind s t).img = t.img := rfl
@[simp] theorem behind_sinkAnswers (s t : State) :
    (behind s t).sinkAnswers = t.sinkAnswers := rfl
@[simp] theorem behind_input (s t : State) :
    (behind s t).input = t.input := rfl
@[simp] theorem behind_lastRead (s t : State) :
    (behind s t).lastRead = t.lastRead := rfl
@[simp] theorem behind_result (s t : State) :
    (behind s t).result = t.result := rfl
@[simp] theorem behind_seq (s t : State) :
    (behind s t).seq = t.seq := rfl
@[simp] theorem behind_sent (s t : State) :
    (behind s t).sent = t.sent := rfl
@[simp] theorem behind_freeCount (s t : State) :
    (behind s t).freeCount = t.freeCount := rfl
@[simp] theorem behind_params (s t : State) :
    (behind s t).params = t.params := rfl

/-! ### `oneByteOn` -/

@[simp] theorem oneByteOn_acc (s t : State) :
    (oneByteOn s t).acc = s.acc := rfl
@[simp] theorem oneByteOn_nbits (s t : State) :
    (oneByteOn s t).nbits = s.nbits := rfl
@[simp] theorem oneByteOn_pred (s t : State) :
    (oneByteOn s t).pred = s.pred := rfl
@[simp] theorem oneByteOn_samp (s t : State) :
    (oneByteOn s t).samp = s.samp := rfl
@[simp] theorem oneByteOn_raw (s t : State) :
    (oneByteOn s t).raw = s.raw := rfl
@[simp] theorem oneByteOn_q (s t : State) :
    (oneByteOn s t).q = s.q := rfl
@[simp] theorem oneByteOn_busy (s t : State) :
    (oneByteOn s t).busy = s.busy := rfl
@[simp] theorem oneByteOn_phase (s t : State) :
    (oneByteOn s t).phase = s.phase := rfl
@[simp] theorem oneByteOn_y0 (s t : State) :
    (oneByteOn s t).y0 = s.y0 := rfl
@[simp] theorem oneByteOn_x0 (s t : State) :
    (oneByteOn s t).x0 = s.x0 := rfl
@[simp] theorem oneByteOn_c (s t : State) :
    (oneByteOn s t).c = s.c := rfl
@[simp] theorem oneByteOn_qt (s t : State) :
    (oneByteOn s t).qt = s.qt := rfl
@[simp] theorem oneByteOn_quality (s t : State) :
    (oneByteOn s t).quality = s.quality := rfl
@[simp] theorem oneByteOn_width (s t : State) :
    (oneByteOn s t).width = s.width := rfl
@[simp] theorem oneByteOn_height (s t : State) :
    (oneByteOn s t).height = s.height := rfl
@[simp] theorem oneByteOn_mode (s t : State) :
    (oneByteOn s t).mode = s.mode := rfl
@[simp] theorem oneByteOn_srcLen (s t : State) :
    (oneByteOn s t).srcLen = s.srcLen := rfl
@[simp] theorem oneByteOn_cfgValid (s t : State) :
    (oneByteOn s t).cfgValid = s.cfgValid := rfl
@[simp] theorem oneByteOn_err (s t : State) :
    (oneByteOn s t).err = s.err := rfl
@[simp] theorem oneByteOn_fatal (s t : State) :
    (oneByteOn s t).fatal = s.fatal := rfl
@[simp] theorem oneByteOn_out (s t : State) :
    (oneByteOn s t).out = s.out ++ (t.out.drop s.out.length).take 1 := rfl
@[simp] theorem oneByteOn_img (s t : State) :
    (oneByteOn s t).img = s.img := rfl
@[simp] theorem oneByteOn_sinkAnswers (s t : State) :
    (oneByteOn s t).sinkAnswers = s.sinkAnswers := rfl
@[simp] theorem oneByteOn_input (s t : State) :
    (oneByteOn s t).input = s.input := rfl
@[simp] theorem oneByteOn_lastRead (s t : State) :
    (oneByteOn s t).lastRead = s.lastRead := rfl
@[simp] theorem oneByteOn_result (s t : State) :
    (oneByteOn s t).result = s.result := rfl
@[simp] theorem oneByteOn_seq (s t : State) :
    (oneByteOn s t).seq = s.seq := rfl
@[simp] theorem oneByteOn_sent (s t : State) :
    (oneByteOn s t).sent = s.sent + 1 := rfl
@[simp] theorem oneByteOn_freeCount (s t : State) :
    (oneByteOn s t).freeCount = s.freeCount := rfl
@[simp] theorem oneByteOn_params (s t : State) :
    (oneByteOn s t).params = s.params := rfl

/-! ### `appended` -/

@[simp] theorem appended_acc (bs : List Byte) (s : State) :
    (appended bs s).acc = s.acc := rfl
@[simp] theorem appended_nbits (bs : List Byte) (s : State) :
    (appended bs s).nbits = s.nbits := rfl
@[simp] theorem appended_pred (bs : List Byte) (s : State) :
    (appended bs s).pred = s.pred := rfl
@[simp] theorem appended_samp (bs : List Byte) (s : State) :
    (appended bs s).samp = s.samp := rfl
@[simp] theorem appended_raw (bs : List Byte) (s : State) :
    (appended bs s).raw = s.raw := rfl
@[simp] theorem appended_q (bs : List Byte) (s : State) :
    (appended bs s).q = s.q := rfl
@[simp] theorem appended_busy (bs : List Byte) (s : State) :
    (appended bs s).busy = s.busy := rfl
@[simp] theorem appended_phase (bs : List Byte) (s : State) :
    (appended bs s).phase = s.phase := rfl
@[simp] theorem appended_y0 (bs : List Byte) (s : State) :
    (appended bs s).y0 = s.y0 := rfl
@[simp] theorem appended_x0 (bs : List Byte) (s : State) :
    (appended bs s).x0 = s.x0 := rfl
@[simp] theorem appended_c (bs : List Byte) (s : State) :
    (appended bs s).c = s.c := rfl
@[simp] theorem appended_qt (bs : List Byte) (s : State) :
    (appended bs s).qt = s.qt := rfl
@[simp] theorem appended_quality (bs : List Byte) (s : State) :
    (appended bs s).quality = s.quality := rfl
@[simp] theorem appended_width (bs : List Byte) (s : State) :
    (appended bs s).width = s.width := rfl
@[simp] theorem appended_height (bs : List Byte) (s : State) :
    (appended bs s).height = s.height := rfl
@[simp] theorem appended_mode (bs : List Byte) (s : State) :
    (appended bs s).mode = s.mode := rfl
@[simp] theorem appended_srcLen (bs : List Byte) (s : State) :
    (appended bs s).srcLen = s.srcLen := rfl
@[simp] theorem appended_cfgValid (bs : List Byte) (s : State) :
    (appended bs s).cfgValid = s.cfgValid := rfl
@[simp] theorem appended_err (bs : List Byte) (s : State) :
    (appended bs s).err = s.err := rfl
@[simp] theorem appended_fatal (bs : List Byte) (s : State) :
    (appended bs s).fatal = s.fatal := rfl
@[simp] theorem appended_out (bs : List Byte) (s : State) :
    (appended bs s).out = s.out ++ bs := rfl
@[simp] theorem appended_img (bs : List Byte) (s : State) :
    (appended bs s).img = s.img := rfl
@[simp] theorem appended_sinkAnswers (bs : List Byte) (s : State) :
    (appended bs s).sinkAnswers = s.sinkAnswers.drop bs.length := rfl
@[simp] theorem appended_input (bs : List Byte) (s : State) :
    (appended bs s).input = s.input := rfl
@[simp] theorem appended_lastRead (bs : List Byte) (s : State) :
    (appended bs s).lastRead = s.lastRead := rfl
@[simp] theorem appended_result (bs : List Byte) (s : State) :
    (appended bs s).result = s.result := rfl
@[simp] theorem appended_seq (bs : List Byte) (s : State) :
    (appended bs s).seq = s.seq := rfl
@[simp] theorem appended_sent (bs : List Byte) (s : State) :
    (appended bs s).sent = s.sent := rfl
@[simp] theorem appended_freeCount (bs : List Byte) (s : State) :
    (appended bs s).freeCount = s.freeCount := rfl
@[simp] theorem appended_params (bs : List Byte) (s : State) :
    (appended bs s).params = s.params := rfl

/-! ### `cutBytes` -/

@[simp] theorem cutBytes_acc (bs : List Byte) (k : Nat) (s : State) :
    (cutBytes bs k s).acc = s.acc := rfl
@[simp] theorem cutBytes_nbits (bs : List Byte) (k : Nat) (s : State) :
    (cutBytes bs k s).nbits = s.nbits := rfl
@[simp] theorem cutBytes_pred (bs : List Byte) (k : Nat) (s : State) :
    (cutBytes bs k s).pred = s.pred := rfl
@[simp] theorem cutBytes_samp (bs : List Byte) (k : Nat) (s : State) :
    (cutBytes bs k s).samp = s.samp := rfl
@[simp] theorem cutBytes_raw (bs : List Byte) (k : Nat) (s : State) :
    (cutBytes bs k s).raw = s.raw := rfl
@[simp] theorem cutBytes_q (bs : List Byte) (k : Nat) (s : State) :
    (cutBytes bs k s).q = s.q := rfl
@[simp] theorem cutBytes_busy (bs : List Byte) (k : Nat) (s : State) :
    (cutBytes bs k s).busy = false := rfl
@[simp] theorem cutBytes_phase (bs : List Byte) (k : Nat) (s : State) :
    (cutBytes bs k s).phase = s.phase := rfl
@[simp] theorem cutBytes_y0 (bs : List Byte) (k : Nat) (s : State) :
    (cutBytes bs k s).y0 = s.y0 := rfl
@[simp] theorem cutBytes_x0 (bs : List Byte) (k : Nat) (s : State) :
    (cutBytes bs k s).x0 = s.x0 := rfl
@[simp] theorem cutBytes_c (bs : List Byte) (k : Nat) (s : State) :
    (cutBytes bs k s).c = s.c := rfl
@[simp] theorem cutBytes_qt (bs : List Byte) (k : Nat) (s : State) :
    (cutBytes bs k s).qt = s.qt := rfl
@[simp] theorem cutBytes_quality (bs : List Byte) (k : Nat) (s : State) :
    (cutBytes bs k s).quality = s.quality := rfl
@[simp] theorem cutBytes_width (bs : List Byte) (k : Nat) (s : State) :
    (cutBytes bs k s).width = s.width := rfl
@[simp] theorem cutBytes_height (bs : List Byte) (k : Nat) (s : State) :
    (cutBytes bs k s).height = s.height := rfl
@[simp] theorem cutBytes_mode (bs : List Byte) (k : Nat) (s : State) :
    (cutBytes bs k s).mode = s.mode := rfl
@[simp] theorem cutBytes_srcLen (bs : List Byte) (k : Nat) (s : State) :
    (cutBytes bs k s).srcLen = s.srcLen := rfl
@[simp] theorem cutBytes_cfgValid (bs : List Byte) (k : Nat) (s : State) :
    (cutBytes bs k s).cfgValid = s.cfgValid := rfl
@[simp] theorem cutBytes_err (bs : List Byte) (k : Nat) (s : State) :
    (cutBytes bs k s).err = .sinkWriteFailure := rfl
@[simp] theorem cutBytes_fatal (bs : List Byte) (k : Nat) (s : State) :
    (cutBytes bs k s).fatal = s.fatal := rfl
@[simp] theorem cutBytes_out (bs : List Byte) (k : Nat) (s : State) :
    (cutBytes bs k s).out = s.out ++ bs.take k := rfl
@[simp] theorem cutBytes_img (bs : List Byte) (k : Nat) (s : State) :
    (cutBytes bs k s).img = s.img := rfl
@[simp] theorem cutBytes_sinkAnswers (bs : List Byte) (k : Nat) (s : State) :
    (cutBytes bs k s).sinkAnswers = s.sinkAnswers.drop (k + 1) := rfl
@[simp] theorem cutBytes_input (bs : List Byte) (k : Nat) (s : State) :
    (cutBytes bs k s).input = s.input := rfl
@[simp] theorem cutBytes_lastRead (bs : List Byte) (k : Nat) (s : State) :
    (cutBytes bs k s).lastRead = s.lastRead := rfl
@[simp] theorem cutBytes_result (bs : List Byte) (k : Nat) (s : State) :
    (cutBytes bs k s).result = s.result := rfl
@[simp] theorem cutBytes_seq (bs : List Byte) (k : Nat) (s : State) :
    (cutBytes bs k s).seq = s.seq := rfl
@[simp] theorem cutBytes_sent (bs : List Byte) (k : Nat) (s : State) :
    (cutBytes bs k s).sent = s.sent := rfl
@[simp] theorem cutBytes_freeCount (bs : List Byte) (k : Nat) (s : State) :
    (cutBytes bs k s).freeCount = s.freeCount := rfl
@[simp] theorem cutBytes_params (bs : List Byte) (k : Nat) (s : State) :
    (cutBytes bs k s).params = s.params := rfl

/-! ### `returned` -/

@[simp] theorem returned_acc (r : OpResult) (s : State) :
    (returned r s).acc = s.acc := rfl
@[simp] theorem returned_nbits (r : OpResult) (s : State) :
    (returned r s).nbits = s.nbits := rfl
@[simp] theorem returned_pred (r : OpResult) (s : State) :
    (returned r s).pred = s.pred := rfl
@[simp] theorem returned_samp (r : OpResult) (s : State) :
    (returned r s).samp = s.samp := rfl
@[simp] theorem returned_raw (r : OpResult) (s : State) :
    (returned r s).raw = s.raw := rfl
@[simp] theorem returned_q (r : OpResult) (s : State) :
    (returned r s).q = s.q := rfl
@[simp] theorem returned_busy (r : OpResult) (s : State) :
    (returned r s).busy = s.busy := rfl
@[simp] theorem returned_phase (r : OpResult) (s : State) :
    (returned r s).phase = s.phase := rfl
@[simp] theorem returned_y0 (r : OpResult) (s : State) :
    (returned r s).y0 = s.y0 := rfl
@[simp] theorem returned_x0 (r : OpResult) (s : State) :
    (returned r s).x0 = s.x0 := rfl
@[simp] theorem returned_c (r : OpResult) (s : State) :
    (returned r s).c = s.c := rfl
@[simp] theorem returned_qt (r : OpResult) (s : State) :
    (returned r s).qt = s.qt := rfl
@[simp] theorem returned_quality (r : OpResult) (s : State) :
    (returned r s).quality = s.quality := rfl
@[simp] theorem returned_width (r : OpResult) (s : State) :
    (returned r s).width = s.width := rfl
@[simp] theorem returned_height (r : OpResult) (s : State) :
    (returned r s).height = s.height := rfl
@[simp] theorem returned_mode (r : OpResult) (s : State) :
    (returned r s).mode = s.mode := rfl
@[simp] theorem returned_srcLen (r : OpResult) (s : State) :
    (returned r s).srcLen = s.srcLen := rfl
@[simp] theorem returned_cfgValid (r : OpResult) (s : State) :
    (returned r s).cfgValid = s.cfgValid := rfl
@[simp] theorem returned_err (r : OpResult) (s : State) :
    (returned r s).err = s.err := rfl
@[simp] theorem returned_fatal (r : OpResult) (s : State) :
    (returned r s).fatal = s.fatal := rfl
@[simp] theorem returned_out (r : OpResult) (s : State) :
    (returned r s).out = s.out := rfl
@[simp] theorem returned_img (r : OpResult) (s : State) :
    (returned r s).img = s.img := rfl
@[simp] theorem returned_sinkAnswers (r : OpResult) (s : State) :
    (returned r s).sinkAnswers = s.sinkAnswers := rfl
@[simp] theorem returned_input (r : OpResult) (s : State) :
    (returned r s).input = s.input := rfl
@[simp] theorem returned_lastRead (r : OpResult) (s : State) :
    (returned r s).lastRead = s.lastRead := rfl
@[simp] theorem returned_result (r : OpResult) (s : State) :
    (returned r s).result = r := rfl
@[simp] theorem returned_seq (r : OpResult) (s : State) :
    (returned r s).seq = s.seq := rfl
@[simp] theorem returned_sent (r : OpResult) (s : State) :
    (returned r s).sent = s.sent := rfl
@[simp] theorem returned_freeCount (r : OpResult) (s : State) :
    (returned r s).freeCount = s.freeCount := rfl
@[simp] theorem returned_params (r : OpResult) (s : State) :
    (returned r s).params = s.params := rfl

end Sys2Proof.Machine
end

