-- ==== Sys2Proof/Laws/Run.lean ====
section
/-! SUPPORT. Sequencing of operations that may raise, and what an operation that sends bits or bytes can change: the
accumulator, the sink and its answers, and on a raise the flags. -/
namespace Sys2Proof.Machine
open Sys2Proof

/-! ### Sequencing -/

@[simp] theorem Run.bind_done {α β : Type} (v : α) (s : State) (k : α → State → Run β) :
    (Run.done v s).bind k = k v s := rfl

@[simp] theorem Run.bind_raised {α β : Type} (s : State) (k : α → State → Run β) :
    (Run.raised s : Run α).bind k = .raised s := rfl

theorem Run.bind_assoc {α β γ : Type} (m : Run α) (k : α → State → Run β) (l : β → State → Run γ) :
    (m.bind k).bind l = m.bind (fun v s => (k v s).bind l) := by
  cases m <;> rfl

theorem forEach_append {α : Type} (f : α → State → Run Unit) (as bs : List α) (s : State) :
    forEach f (as ++ bs) s = (forEach f as s).bind (fun _ s => forEach f bs s) := by
  induction as generalizing s with
  | nil => rfl
  | cons a as ih => simp only [List.cons_append, forEach, Run.bind_assoc, ih]

/-- The state an operation ends in, finished or raised. -/
def Run.last {α : Type} : Run α → State
  | .done _ s => s
  | .raised s => s

/-- A property of the state an operation ends in, whichever way it ends, carries through a sequence. -/
theorem Run.last_bind {α β : Type} {P : State → Prop} {m : Run α} {k : α → State → Run β} (hm : P m.last)
    (hk : ∀ v s, P s → P (k v s).last) : P (m.bind k).last := by
  cases m with
  | done v s => exact hk v s hm
  | raised s => exact hm

theorem Run.last_forEach {α : Type} {P : State → Prop} {f : α → State → Run Unit} (hf : ∀ a s, P s → P (f a s).last) :
    ∀ (as : List α) (s : State), P s → P (forEach f as s).last
  | [], _, h => h
  | a :: as, s, h => Run.last_bind (hf a s h) (fun _ t ht => Run.last_forEach hf as t ht)

/-! ### What sending can change -/

/-- `t` is `s` with the accumulator and the sink's answers changed and bytes appended to the sink. -/
def SentFrom (s t : State) : Prop :=
  ∃ (a : BitVec 32) (n : Nat) (bs : List Byte) (as : List SinkAnswer),
    t = { s with acc := a, nbits := n, out := s.out ++ bs, sinkAnswers := as }

theorem SentFrom.refl (s : State) : SentFrom s s := ⟨s.acc, s.nbits, [], s.sinkAnswers, by simp⟩

theorem SentFrom.trans {s t u : State} (h : SentFrom s t) (h' : SentFrom t u) : SentFrom s u := by
  obtain ⟨a, n, bs, as, rfl⟩ := h
  obtain ⟨a', n', bs', as', rfl⟩ := h'
  exact ⟨a', n', bs ++ bs', as', by simp⟩

/-- The errors an internal operation raises (R181, R182). -/
abbrev Raisable (e : ErrCode) : Prop := e = .sinkWriteFailure ∨ e = .huffmanLengthError ∨ e = .dhtCountMismatch

/-- The operation only sends; if it stops, it raises one of the three errors on what it has sent. -/
inductive Run.Sends {α : Type} (s : State) : Run α → Prop
  | done (v : α) {t : State} (h : SentFrom s t) : Run.Sends s (.done v t)
  | raised {e : ErrCode} {u : State} (he : Raisable e) (h : SentFrom s u) : Run.Sends s (.raised (raiseError e u))

theorem Run.sends_done {α : Type} (v : α) (s : State) : Run.Sends s (.done v s) := .done v (SentFrom.refl s)

theorem Run.sends_raise {α : Type} {e : ErrCode} (h : Raisable e) (s : State) : Run.Sends s (Run.raise e s : Run α) :=
  .raised h (SentFrom.refl s)

theorem Run.Sends.after {α : Type} {s t : State} {r : Run α} (h : SentFrom s t) (hr : r.Sends t) : r.Sends s := by
  cases hr with
  | done v hu => exact .done v (h.trans hu)
  | raised he hu => exact .raised he (h.trans hu)

theorem Run.Sends.bind {α β : Type} {s : State} {m : Run α} {k : α → State → Run β} (hm : m.Sends s)
    (hk : ∀ v t, (k v t).Sends t) : (m.bind k).Sends s := by
  cases hm with
  | done v ht => exact (hk v _).after ht
  | raised he hu => exact .raised he hu

theorem Run.sends_forEach {α : Type} {f : α → State → Run Unit} (hf : ∀ a s, (f a s).Sends s) :
    ∀ (as : List α) (s : State), (forEach f as s).Sends s
  | [], s => Run.sends_done () s
  | a :: as, s => (hf a s).bind (fun _ t => Run.sends_forEach hf as t)

theorem sinkByte_sends (b : Byte) (s : State) : (sinkByte b s).Sends s := by
  unfold sinkByte
  split
  · exact .done () ⟨s.acc, s.nbits, [b], s.sinkAnswers, rfl⟩
  · rename_i as h
    exact .done () ⟨s.acc, s.nbits, [b], as, rfl⟩
  · rename_i as h
    exact .raised (.inl rfl) ⟨s.acc, s.nbits, [], as, by simp⟩

theorem sinkBytes_sends (bs : List Byte) (s : State) : (sinkBytes bs s).Sends s := Run.sends_forEach sinkByte_sends bs s

theorem flushByte_sends (s : State) : (flushByte s).Sends s := by
  refine (sinkByte_sends _ s).bind fun _ t => Run.Sends.bind ?_ fun _ u => ?_
  · split
    · exact sinkByte_sends _ t
    · exact Run.sends_done () t
  · exact .done () ⟨u.acc <<< 8, u.nbits - 8, [], u.sinkAnswers, by simp⟩

theorem flushLoop_sends : ∀ (n : Nat) (s : State), (flushLoop n s).Sends s
  | 0, s => Run.sends_done () s
  | n + 1, s => by
    unfold flushLoop
    split
    · exact Run.sends_done () s
    · exact (flushByte_sends s).bind fun _ t => flushLoop_sends n t

theorem writeBits_sends (code : BitVec 16) (n : Nat) (s : State) : (writeBits code n s).Sends s := by
  unfold writeBits
  split
  · exact Run.sends_done () s
  · exact Run.Sends.after ⟨mergeBits s.acc s.nbits code n, s.nbits + n, [], s.sinkAnswers, by simp⟩
      (flushLoop_sends _ _)

theorem padByte_sends (s : State) : (padByte s).Sends s := writeBits_sends _ _ s

theorem writeSegment_sends (m : Byte) (d : Option (List Byte)) (s : State) : (writeSegment m d s).Sends s :=
  sinkBytes_sends _ s

theorem huffmanEncode_sends (sym : Byte) (t : HuffTable) (s : State) : (huffmanEncode sym t s).Sends s := by
  unfold huffmanEncode
  dsimp only
  split
  · exact Run.sends_raise (.inr (.inl rfl)) s
  · exact writeBits_sends _ _ s

theorem writeValue_sends (sym : Byte) (t : HuffTable) (v : Int) (s : State) : (writeValue sym t v s).Sends s :=
  (huffmanEncode_sends sym t s).bind fun _ u => writeBits_sends _ _ u

theorem zrl_sends (ta : TableSet) (s : State) : (zrl ta s).Sends s := huffmanEncode_sends _ _ s

theorem eob_sends (ta : TableSet) (s : State) : (eob ta s).Sends s := huffmanEncode_sends _ _ s

theorem writeAc_sends (ta : TableSet) (run : Nat) (v : Int) (s : State) : (writeAc ta run v s).Sends s := by
  refine Run.Sends.bind (Run.sends_forEach (fun _ t => zrl_sends ta t) _ s) fun _ t => ?_
  split
  · exact Run.sends_raise (.inr (.inl rfl)) t
  · exact writeValue_sends _ _ v t

theorem scanAc_sends (ta : TableSet) : ∀ (vs : List Coef) (run : Nat) (s : State), (scanAc ta vs run s).Sends s
  | [], run, s => by
    unfold scanAc
    split
    · exact eob_sends ta s
    · exact Run.sends_done () s
  | v :: vs, run, s => by
    unfold scanAc
    split
    · exact scanAc_sends ta vs (run + 1) s
    · exact (writeAc_sends ta run _ s).bind fun _ t => scanAc_sends ta vs 0 t

theorem writeBlock_sends (block : Block Coef) (prev : Coef) (td ta : TableSet) (s : State) :
    (writeBlock block prev td ta s).Sends s :=
  (writeValue_sends _ _ _ s).bind fun _ t => (scanAc_sends ta _ 0 t).bind fun _ u => Run.sends_done _ u

theorem dhtData_sends (cls : TableClass) (dest : TableSet) (bits : Counts) (vals : List Byte) (s : State) :
    (dhtData cls dest bits vals s).Sends s := by
  unfold dhtData
  split
  · exact Run.sends_raise (.inr (.inr rfl)) s
  · exact Run.sends_done _ s

theorem emitDht_sends (cls : TableClass) (dest : TableSet) (s : State) : (emitDht cls dest s).Sends s :=
  (dhtData_sends cls dest _ _ s).bind fun _ t => writeSegment_sends _ _ t

/-! ### Operations as instructions -/

/-- An operation that only sends, as an instruction: it completes with its value, or it raises. -/
theorem finish_sends {r : Run OpResult} {s t : State} (h : r.Sends s) (ht : finish r = .next t) :
    (∃ (v : OpResult) (u : State), SentFrom s u ∧ t = returned v u) ∨
      (∃ (e : ErrCode) (u : State), Raisable e ∧ SentFrom s u ∧ t = returned .none (raiseError e u)) := by
  cases h with
  | done v hu => exact .inl ⟨v, _, hu, (Host.Outcome.next.inj ht).symm⟩
  | raised he hu => exact .inr ⟨_, _, he, hu, (Host.Outcome.next.inj ht).symm⟩

theorem finishUnit_sends {r : Run Unit} {s t : State} (h : r.Sends s) (ht : finishUnit r = .next t) :
    (∃ (v : OpResult) (u : State), SentFrom s u ∧ t = returned v u) ∨
      (∃ (e : ErrCode) (u : State), Raisable e ∧ SentFrom s u ∧ t = returned .none (raiseError e u)) :=
  finish_sends (h.bind fun _ u => Run.sends_done _ u) ht

/-- An instruction that only sends: it completes, or raises, on a state it has only sent from. -/
def SendsTo (s t : State) : Prop :=
  (∃ (v : OpResult) (u : State), SentFrom s u ∧ t = returned v u) ∨
    (∃ (e : ErrCode) (u : State), Raisable e ∧ SentFrom s u ∧ t = returned .none (raiseError e u))

/-- Everything an instruction can do. -/
theorem exec_cases {i : Instr} {s t : State} (h : exec i s = .next t) :
    (i = .configure ∧ execConfigure s = .next t) ∨ (i = .encode ∧ execEncode s = .next t) ∨
    (∃ x y, i = .sampleBlock x y ∧ t = returned .none (sampleBlock x y s)) ∨
    (∃ b, i = .fdct b ∧ t = returned .none (fdctInto b s)) ∨
    (∃ b q, i = .quantize b q ∧ t = returned .none (quantizeInto b q s)) ∨
    (i ≠ .configure ∧ i ≠ .encode ∧ SendsTo s t) := by
  have pure : ∀ (v : OpResult), finish (.done v s) = .next t → SendsTo s t :=
    fun v hv => finish_sends (Run.sends_done v s) hv
  cases i with
  | configure => exact .inl ⟨rfl, h⟩
  | encode => exact .inr (.inl ⟨rfl, h⟩)
  | sampleBlock x y => exact .inr (.inr (.inl ⟨x, y, rfl, (Host.Outcome.next.inj h).symm⟩))
  | fdct b => exact .inr (.inr (.inr (.inl ⟨b, rfl, (Host.Outcome.next.inj h).symm⟩)))
  | quantize b q => exact .inr (.inr (.inr (.inr (.inl ⟨b, q, rfl, (Host.Outcome.next.inj h).symm⟩))))
  | writeSegment m d =>
    refine .inr (.inr (.inr (.inr (.inr ⟨by simp, by simp, ?_⟩))))
    simp only [exec, execWriteSegment] at h
    split at h
    · exact finishUnit_sends (writeSegment_sends m d s) h
    · cases h
  | _ =>
    refine .inr (.inr (.inr (.inr (.inr ⟨by simp, by simp, ?_⟩))))
    first
      | exact pure _ h
      | exact finishUnit_sends (sinkByte_sends _ s) h
      | exact finishUnit_sends (writeBits_sends _ _ s) h
      | exact finishUnit_sends (huffmanEncode_sends _ _ s) h
      | exact finish_sends ((writeBlock_sends _ _ _ _ s).bind fun _ u => Run.sends_done _ u) h
      | exact finish_sends ((dhtData_sends _ _ _ _ s).bind fun _ u => Run.sends_done _ u) h
      | exact finishUnit_sends (emitDht_sends _ _ s) h
      | exact finishUnit_sends (writeSegment_sends _ _ s) h

end Sys2Proof.Machine
end

