-- ==== Sys2Proof/Laws/Frame.lean ====
section
/-! SUPPORT. What no operation and no command changes, and the accumulator between operations. -/
namespace Sys2Proof.Machine
open Sys2Proof

/-! ### Everything an encode reads and never writes -/

/-- `t` agrees with `s` on the host's registers, the tables, the image, the inputs and the parameters, and its sink
holds what that of `s` held and more. -/
structure Keeps (s t : State) : Prop where
  img : t.img = s.img
  quality : t.quality = s.quality
  width : t.width = s.width
  height : t.height = s.height
  mode : t.mode = s.mode
  srcLen : t.srcLen = s.srcLen
  params : t.params = s.params
  input : t.input = s.input
  lastRead : t.lastRead = s.lastRead
  qt : t.qt = s.qt
  cfgValid : t.cfgValid = s.cfgValid
  out : ∃ bs, t.out = s.out ++ bs

theorem Keeps.refl (s : State) : Keeps s s := ⟨rfl, rfl, rfl, rfl, rfl, rfl, rfl, rfl, rfl, rfl, rfl, [], by simp⟩

theorem Keeps.trans {s t u : State} (h : Keeps s t) (h' : Keeps t u) : Keeps s u where
  img := h'.img.trans h.img
  quality := h'.quality.trans h.quality
  width := h'.width.trans h.width
  height := h'.height.trans h.height
  mode := h'.mode.trans h.mode
  srcLen := h'.srcLen.trans h.srcLen
  params := h'.params.trans h.params
  input := h'.input.trans h.input
  lastRead := h'.lastRead.trans h.lastRead
  qt := h'.qt.trans h.qt
  cfgValid := h'.cfgValid.trans h.cfgValid
  out := by
    obtain ⟨bs, hb⟩ := h.out
    obtain ⟨cs, hc⟩ := h'.out
    exact ⟨bs ++ cs, by rw [hc, hb, List.append_assoc]⟩

theorem SentFrom.keeps {s t : State} (h : SentFrom s t) : Keeps s t := by
  obtain ⟨a, n, bs, as, rfl⟩ := h
  exact ⟨rfl, rfl, rfl, rfl, rfl, rfl, rfl, rfl, rfl, rfl, rfl, bs, rfl⟩

theorem keeps_raiseError (e : ErrCode) (s : State) : Keeps s (raiseError e s) :=
  ⟨rfl, rfl, rfl, rfl, rfl, rfl, rfl, rfl, rfl, rfl, rfl, [], by simp⟩

theorem keeps_returned (r : OpResult) (s : State) : Keeps s (returned r s) :=
  ⟨rfl, rfl, rfl, rfl, rfl, rfl, rfl, rfl, rfl, rfl, rfl, [], by simp⟩

theorem Run.Sends.keeps {α : Type} {s : State} {r : Run α} (h : r.Sends s) : Keeps s r.last := by
  cases h with
  | done v ht => exact ht.keeps
  | raised _ hu => exact hu.keeps.trans (keeps_raiseError _ _)

theorem SendsTo.keeps {s t : State} (h : SendsTo s t) : Keeps s t := by
  obtain ⟨v, u, hu, rfl⟩ | ⟨e, u, _, hu, rfl⟩ := h
  · exact hu.keeps.trans (keeps_returned v u)
  · exact (hu.keeps.trans (keeps_raiseError e u)).trans (keeps_returned _ _)

/-- A sequence keeps what each of its parts keeps. -/
theorem Keeps.bind {α β : Type} {s : State} {m : Run α} {k : α → State → Run β} (hm : Keeps s m.last)
    (hk : ∀ v t, Keeps t (k v t).last) : Keeps s (m.bind k).last :=
  Run.last_bind (P := Keeps s) hm (fun v t ht => ht.trans (hk v t))

theorem Keeps.forEach {α : Type} {f : α → State → Run Unit} (hf : ∀ a s, Keeps s (f a s).last) (as : List α)
    (s : State) : Keeps s (forEach f as s).last :=
  Run.last_forEach (P := Keeps s) (fun a t ht => ht.trans (hf a t)) as s (Keeps.refl s)

theorem encodeComp_keeps (c : Comp) (s : State) : Keeps s (encodeComp c s).last := by
  refine Keeps.trans (t := quantizeInto (fdct s.params.fdct (s.samp.get c)) (s.qt.get (descriptor c).tq)
    (fdctInto (s.samp.get c) { s with c := c })) ?_
    (Keeps.bind (writeBlock_sends _ _ _ _ _).keeps (fun v t => ?_))
  · exact ⟨rfl, rfl, rfl, rfl, rfl, rfl, rfl, rfl, rfl, rfl, rfl, [], by simp⟩
  · exact ⟨rfl, rfl, rfl, rfl, rfl, rfl, rfl, rfl, rfl, rfl, rfl, [], by simp [Run.last]⟩

theorem encodePosition_keeps (p : Nat × Nat) (s : State) : Keeps s (encodePosition p s).last := by
  refine Keeps.trans (t := sampleBlock p.2 p.1 { s with y0 := p.1, x0 := p.2, c := .y }) ?_
    (Keeps.forEach encodeComp_keeps _ _)
  exact ⟨rfl, rfl, rfl, rfl, rfl, rfl, rfl, rfl, rfl, rfl, rfl, [], by simp⟩

theorem emitSoi_sends (s : State) : (emitSoi s).Sends s := by
  unfold emitSoi
  exact writeSegment_sends _ _ s

theorem emitApp0_sends (s : State) : (emitApp0 s).Sends s := by
  unfold emitApp0
  exact writeSegment_sends _ _ s

theorem emitSof0_sends (s : State) : (emitSof0 s).Sends s := by
  unfold emitSof0
  exact writeSegment_sends _ _ s

theorem emitSos_sends (s : State) : (emitSos s).Sends s := by
  unfold emitSos
  exact writeSegment_sends _ _ s

theorem emitEoi_sends (s : State) : (emitEoi s).Sends s := by
  unfold emitEoi
  exact writeSegment_sends _ _ s

theorem emitDqt_sends (tq : TableSet) (s : State) : (emitDqt tq s).Sends s := by
  unfold emitDqt
  exact writeSegment_sends _ _ s

theorem headerRuns_sends {n : NComp} {r : State → Run Unit} (hr : r ∈ headerRuns n) (s : State) : (r s).Sends s := by
  cases n <;> simp only [headerRuns, List.mem_cons, List.not_mem_nil, or_false] at hr
  · obtain h | h | h | h | h | h | h := hr <;> subst h
    exacts [emitSoi_sends s, emitApp0_sends s, emitSof0_sends s, emitDqt_sends .luma s, emitDht_sends .dc .luma s,
      emitDht_sends .ac .luma s, emitSos_sends s]
  · obtain h | h | h | h | h | h | h | h | h | h := hr <;> subst h
    exacts [emitSoi_sends s, emitApp0_sends s, emitSof0_sends s, emitDqt_sends .luma s, emitDqt_sends .chroma s,
      emitDht_sends .dc .luma s, emitDht_sends .ac .luma s, emitDht_sends .dc .chroma s, emitDht_sends .ac .chroma s,
      emitSos_sends s]

theorem emitHeaders_sends (n : NComp) (s : State) : (forEach (fun seg s => seg s) (headerRuns n) s).Sends s := by
  suffices ∀ (l : List (State → Run Unit)), (∀ r ∈ l, ∀ s, (r s).Sends s) → ∀ s,
      (forEach (fun seg s => seg s) l s).Sends s from this _ (fun r hr s => headerRuns_sends hr s) s
  intro l
  induction l with
  | nil => exact fun _ s => Run.sends_done () s
  | cons r l ih =>
    exact fun h s => (h r (by simp) s).bind (fun _ t => ih (fun r' hr' => h r' (by simp [hr'])) t)

theorem emitHeader_keeps (s : State) : Keeps s (emitHeader s).last :=
  Keeps.bind (emitHeaders_sends _ s).keeps
    (fun _ t => ⟨rfl, rfl, rfl, rfl, rfl, rfl, rfl, rfl, rfl, rfl, rfl, [], by simp [Run.last]⟩)

theorem encodeScan_keeps (s : State) : Keeps s (encodeScan s).last := by
  refine Keeps.trans (t := { s with phase := .scanningBlocks }) ?_ (Keeps.forEach encodePosition_keeps _ _)
  exact ⟨rfl, rfl, rfl, rfl, rfl, rfl, rfl, rfl, rfl, rfl, rfl, [], by simp⟩

theorem encodeEnd_keeps (s : State) : Keeps s (encodeEnd s).last :=
  Keeps.bind (padByte_sends s).keeps fun _ t => Keeps.bind (writeSegment_sends _ _ t).keeps
    (fun _ u => ⟨rfl, rfl, rfl, rfl, rfl, rfl, rfl, rfl, rfl, rfl, rfl, [], by simp [Run.last]⟩)

/-- What an accepted encode keeps. -/
theorem encodeRun_keeps (s : State) : Keeps s (encodeRun s).last := by
  refine Keeps.bind (Keeps.trans (t := encodeStart s) ?_ (emitHeader_keeps _)) fun _ t =>
    Keeps.bind (encodeScan_keeps t) fun _ u => encodeEnd_keeps u
  exact ⟨rfl, rfl, rfl, rfl, rfl, rfl, rfl, rfl, rfl, rfl, rfl, [], by simp⟩

theorem endState_keeps {s : State} {r : Run Unit} (h : Keeps s r.last) : Keeps s (endState r) := by
  refine h.trans ?_
  cases r <;> exact ⟨rfl, rfl, rfl, rfl, rfl, rfl, rfl, rfl, rfl, rfl, rfl, [], by simp [endState, Run.last]⟩

theorem execEncode_keeps {s t : State} (h : execEncode s = .next t) : Keeps s t := by
  unfold execEncode at h
  split at h <;> obtain rfl := Host.Outcome.next.inj h
  · exact endState_keeps (encodeRun_keeps s)
  · cases commandVerdict 0x02#8 s <;> exact ⟨rfl, rfl, rfl, rfl, rfl, rfl, rfl, rfl, rfl, rfl, rfl, [], by simp [turnAway]⟩

/-- Every instruction but CONFIGURE keeps all of it. -/
theorem exec_keeps {i : Instr} {s t : State} (hi : i ≠ .configure) (h : exec i s = .next t) : Keeps s t := by
  obtain ⟨rfl, _⟩ | ⟨rfl, he⟩ | ⟨x, y, rfl, rfl⟩ | ⟨b, rfl, rfl⟩ | ⟨b, q, rfl, rfl⟩ | ⟨_, _, hs⟩ := exec_cases h
  · exact absurd rfl hi
  · exact execEncode_keeps he
  · exact ⟨rfl, rfl, rfl, rfl, rfl, rfl, rfl, rfl, rfl, rfl, rfl, [], by simp⟩
  · exact ⟨rfl, rfl, rfl, rfl, rfl, rfl, rfl, rfl, rfl, rfl, rfl, [], by simp⟩
  · exact ⟨rfl, rfl, rfl, rfl, rfl, rfl, rfl, rfl, rfl, rfl, rfl, [], by simp⟩
  · exact hs.keeps

/-! ### The accumulator -/

theorem accClean_iff (s : State) : AccClean s ↔ ∀ i, i < 32 - s.nbits → s.acc.getLsbD i = false := Iff.rfl

theorem sinkByte_acc (b : Byte) (s : State) : (sinkByte b s).last.acc = s.acc ∧ (sinkByte b s).last.nbits = s.nbits := by
  unfold sinkByte
  split <;> exact ⟨rfl, rfl⟩

/-- A byte leaves the accumulator, or a write fails and it stays. -/
theorem flushByte_acc (s : State) :
    (∃ t, flushByte s = .done () t ∧ t.acc = s.acc <<< 8 ∧ t.nbits = s.nbits - 8) ∨
    (∃ t, flushByte s = .raised t ∧ t.acc = s.acc ∧ t.nbits = s.nbits) := by
  have h1 := sinkByte_acc (s.acc.extractLsb' 24 8) s
  unfold flushByte
  dsimp only
  cases hm : sinkByte (s.acc.extractLsb' 24 8) s with
  | raised t => exact .inr ⟨t, rfl, by simpa [hm, Run.last] using h1⟩
  | done v t =>
    simp only [hm, Run.last] at h1
    simp only [Run.bind_done]
    split
    · have h2 := sinkByte_acc 0x00#8 t
      cases hz : sinkByte 0x00#8 t with
      | raised u =>
        simp only [hz, Run.last] at h2
        exact .inr ⟨u, rfl, h2.1.trans h1.1, h2.2.trans h1.2⟩
      | done w u =>
        simp only [hz, Run.last] at h2
        exact .inl ⟨_, rfl, by rw [h2.1, h1.1], by rw [h2.2, h1.2]⟩
    · exact .inl ⟨_, rfl, by rw [h1.1], by rw [h1.2]⟩

theorem flushByte_clean {s : State} (h : AccClean s) : AccClean (flushByte s).last := by
  obtain ⟨t, ht, ha, hn⟩ | ⟨t, ht, ha, hn⟩ := flushByte_acc s
  · intro i hi
    simp only [ht, Run.last, ha, hn] at hi ⊢
    rw [BitVec.getLsbD_shiftLeft]
    by_cases h8 : i < 8
    · simp [h8]
    · simp [h8, h (i - 8) (by omega)]
  · intro i hi
    simp only [ht, Run.last, ha, hn] at hi ⊢
    exact h i hi

theorem flushLoop_clean : ∀ (n : Nat) {s : State}, AccClean s → AccClean (flushLoop n s).last
  | 0, _, h => h
  | n + 1, s, h => by
    unfold flushLoop
    split
    · exact h
    · exact Run.last_bind (P := AccClean) (flushByte_clean h) (fun _ t ht => flushLoop_clean n ht)

/-- With enough fuel the loop leaves at most 7 bits. -/
theorem flushLoop_nbits : ∀ (n : Nat) (s t : State), s.nbits ≤ n → flushLoop n s = .done () t → t.nbits ≤ 7
  | 0, s, t, hn, h => by
    cases h
    omega
  | n + 1, s, t, hn, h => by
    unfold flushLoop at h
    split at h
    · cases h
      omega
    · obtain ⟨u, hu, -, hub⟩ | ⟨u, hu, -, -⟩ := flushByte_acc s
      · rw [hu, Run.bind_done] at h
        exact flushLoop_nbits n u t (by omega) h
      · rw [hu] at h
        cases h

theorem mergeBits_clean {acc : BitVec 32} {n : Nat} (code : BitVec 16) (l : Nat)
    (h : ∀ i, i < 32 - n → acc.getLsbD i = false) : ∀ i, i < 32 - (n + l) → (mergeBits acc n code l).getLsbD i = false := by
  intro i hi
  unfold mergeBits
  rw [if_pos (by omega), BitVec.getLsbD_or, h i (by omega), BitVec.getLsbD_shiftLeft]
  simp [show i < 32 - n - l by omega]

theorem writeBits_clean (code : BitVec 16) (l : Nat) {s : State} (h : AccClean s) : AccClean (writeBits code l s).last := by
  unfold writeBits
  split
  · exact h
  · exact flushLoop_clean _ (s := { s with acc := mergeBits s.acc s.nbits code l, nbits := s.nbits + l })
      (mergeBits_clean code l h)

theorem writeBits_nbits {code : BitVec 16} {l : Nat} {s t : State} (h : s.nbits ≤ 7) (ht : writeBits code l s = .done () t) :
    t.nbits ≤ 7 := by
  unfold writeBits at ht
  split at ht
  · cases ht
    exact h
  · exact flushLoop_nbits _ _ t (Nat.le_refl _) ht

end Sys2Proof.Machine
end

