-- ==== Sys2Proof/Laws/BitString.lean ====
section
/-! SUPPORT. The width-free reading of R17 and the registers: bit strings as numbers, the accumulator as the bit string
of its pending bits, and one byte leaving it. -/
namespace Sys2Proof.Machine
open Sys2Proof

/-! ### Bit strings as numbers -/

theorem natOfBits_foldl (l : List Bool) (a : Nat) :
    l.foldl (fun a b => 2 * a + b.toNat) a = a * 2 ^ l.length + natOfBits l := by
  induction l generalizing a with
  | nil => simp [natOfBits]
  | cons b l ih =>
    rw [List.foldl_cons, ih, show natOfBits (b :: l) = (2 * 0 + b.toNat) * 2 ^ l.length + natOfBits l from ih _,
      List.length_cons, Nat.pow_succ]
    ring

theorem natOfBits_append (l m : List Bool) : natOfBits (l ++ m) = natOfBits l * 2 ^ m.length + natOfBits m := by
  rw [natOfBits, List.foldl_append, natOfBits_foldl]
  rfl

theorem natOfBits_cons (b : Bool) (l : List Bool) : natOfBits (b :: l) = b.toNat * 2 ^ l.length + natOfBits l := by
  rw [natOfBits, List.foldl_cons, natOfBits_foldl]
  simp

theorem natOfBits_lt (l : List Bool) : natOfBits l < 2 ^ l.length := by
  induction l with
  | nil => simp [natOfBits]
  | cons b l ih =>
    rw [natOfBits_cons, List.length_cons, Nat.pow_succ]
    cases b <;> simp <;> omega

/-- Bit `i` from the end of a bit string is bit `i` of its number. -/
theorem testBit_natOfBits : ∀ (l : List Bool) (i : Nat),
    (natOfBits l).testBit i = (decide (i < l.length) && l.getD (l.length - 1 - i) false)
  | [], i => by simp [natOfBits]
  | b :: l, i => by
    have hl := natOfBits_lt l
    rw [natOfBits_cons, Nat.mul_comm, List.length_cons, Nat.testBit_two_pow_mul_add _ hl, testBit_natOfBits l i]
    by_cases h : i < l.length
    · rw [if_pos h, show l.length + 1 - 1 - i = (l.length - 1 - i) + 1 by omega]
      simp [h, show i < l.length + 1 by omega]
    · rw [if_neg h]
      by_cases he : i = l.length
      · subst he
        cases b <;> simp
      · have : 1 ≤ i - l.length := by omega
        have hz : b.toNat.testBit (i - l.length) = false := by
          cases b
          · simp
          · exact Nat.testBit_lt_two_pow (Nat.lt_of_lt_of_le (by decide : 1 < 2 ^ 1) (Nat.pow_le_pow_right (by decide) this))
        rw [hz]
        simp [show ¬ i < l.length + 1 by omega]

@[simp] theorem length_bitsOf (n v : Nat) : (bitsOf n v).length = n := by simp [bitsOf]

@[simp] theorem length_pend (s : State) : (pend s).length = s.nbits := by simp [pend]

theorem natOfBits_bitsOf (n v : Nat) : natOfBits (bitsOf n v) = v % 2 ^ n := by
  apply Nat.eq_of_testBit_eq
  intro i
  rw [testBit_natOfBits, Nat.testBit_mod_two_pow, length_bitsOf]
  by_cases h : i < n
  · simp [bitsOf, h, show n - 1 - i < n by omega, show n - 1 - (n - 1 - i) = i by omega]
  · simp [h]

/-! ### The accumulator as a bit string (R15) -/

theorem getLsbD_accOf {l : List Bool} (h : l.length ≤ 32) (i : Nat) :
    (accOf l).getLsbD i = (decide (i < 32) && l.getD (31 - i) false) := by
  rw [accOf, BitVec.getLsbD_ofNat, Nat.testBit_mul_two_pow, testBit_natOfBits]
  by_cases hi : i < 32
  · by_cases hl : 32 - l.length ≤ i
    · simp [hi, hl, show i - (32 - l.length) < l.length by omega,
        show l.length - 1 - (i - (32 - l.length)) = 31 - i by omega]
    · simp [hi, hl, show l.length ≤ 31 - i by omega]
  · simp [hi]

/-- A clean accumulator is its pending bits. -/
theorem acc_eq_accOf_pend {s : State} (h : AccClean s) (hn : s.nbits ≤ 32) : s.acc = accOf (pend s) := by
  apply BitVec.eq_of_getLsbD_eq
  intro i hi
  rw [getLsbD_accOf (by simpa using hn)]
  by_cases hp : 31 - i < s.nbits
  · simp [pend, hi, hp, show 31 - (31 - i) = i by omega]
  · simp [pend, hp, h i (by omega)]

theorem accOf_clean {l : List Bool} (h : l.length ≤ 32) (i : Nat) (hi : i < 32 - l.length) :
    (accOf l).getLsbD i = false := by
  simp [getLsbD_accOf h, show l.length ≤ 31 - i by omega]

/-- Merging new bits is appending them (R17, R96). -/
theorem mergeBits_accOf {l : List Bool} (code : BitVec 16) (n : Nat) (h : l.length + n ≤ 32) :
    mergeBits (accOf l) l.length code n = accOf (l ++ bitsOf n code.toNat) := by
  apply BitVec.eq_of_getLsbD_eq
  intro i hi
  rw [mergeBits, if_pos h, BitVec.getLsbD_or, getLsbD_accOf (by omega), getLsbD_accOf (by simpa using h),
    BitVec.getLsbD_shiftLeft, BitVec.getLsbD_ofNat, Nat.testBit_mod_two_pow]
  by_cases h1 : 31 - i < l.length
  · simp [hi, h1, show ¬ i - (32 - l.length - n) < n by omega, List.getElem?_append_left h1]
  · rw [List.getD_append_right l _ false (31 - i) (by omega)]
    by_cases h2 : i < 32 - l.length - n
    · simp [h1, h2, bitsOf, show n ≤ 31 - i - l.length by omega]
    · have h3 : 31 - i - l.length < n := by omega
      simp [hi, h1, h2, h3, bitsOf, show i - (32 - l.length - n) < 32 by omega,
        show n - 1 - (31 - i - l.length) = i - (32 - l.length - n) by omega,
        show i - (32 - l.length - n) < n by omega]

theorem accOf_shift {l : List Bool} (h : l.length ≤ 32) : accOf l <<< 8 = accOf (l.drop 8) := by
  apply BitVec.eq_of_getLsbD_eq
  intro i hi
  rw [BitVec.getLsbD_shiftLeft, getLsbD_accOf h, getLsbD_accOf (by simp; omega)]
  by_cases h8 : i < 8
  · simp [hi, h8, show l.length ≤ 8 + (31 - i) by omega]
  · simp [hi, h8, show i - 8 < 32 by omega, show 31 - (i - 8) = 8 + (31 - i) by omega]

theorem accOf_top {l : List Bool} (h : l.length ≤ 32) (h8 : 8 ≤ l.length) :
    (accOf l).extractLsb' 24 8 = BitVec.ofNat 8 (natOfBits (l.take 8)) := by
  apply BitVec.eq_of_getLsbD_eq
  intro i hi
  rw [BitVec.getLsbD_extractLsb', getLsbD_accOf h, BitVec.getLsbD_ofNat, testBit_natOfBits]
  have hm : min 8 l.length = 8 := by omega
  simp [hi, hm, show 24 + i < 32 by omega, show 31 - (24 + i) = 7 - i by omega,
    show 7 - i < 8 by omega, show 7 - i < l.length by omega]

/-! ### Whole bytes of a bit string -/

theorem wholeBytes_short {l : List Bool} (h : l.length < 8) : wholeBytes l = [] := by
  simp [wholeBytes, Nat.div_eq_of_lt h]

theorem leftover_short {l : List Bool} (h : l.length < 8) : leftover l = l := by
  simp [leftover, Nat.div_eq_of_lt h]

theorem div8_drop {l : List Bool} (h : 8 ≤ l.length) : l.length / 8 = (l.drop 8).length / 8 + 1 := by
  rw [List.length_drop]
  omega

theorem wholeBytes_long {l : List Bool} (h : 8 ≤ l.length) :
    wholeBytes l = BitVec.ofNat 8 (natOfBits (l.take 8)) :: wholeBytes (l.drop 8) := by
  rw [wholeBytes, div8_drop h, List.range_succ_eq_map]
  simp [wholeBytes, Function.comp_def, Nat.mul_add, Nat.add_comm 8]

theorem leftover_long {l : List Bool} (h : 8 ≤ l.length) : leftover l = leftover (l.drop 8) := by
  rw [leftover, div8_drop h, leftover, List.drop_drop, Nat.mul_add, Nat.add_comm]

theorem length_leftover (l : List Bool) : (leftover l).length = l.length % 8 := by
  rw [leftover, List.length_drop]
  omega

theorem stuffed_append (a b : List Byte) : stuffed (a ++ b) = stuffed a ++ stuffed b := by simp [stuffed]

theorem packedBytes_short {l : List Bool} (h : l.length < 8) : packedBytes l = [] := by
  simp [packedBytes, wholeBytes_short h, stuffed]

theorem packedBytes_long {l : List Bool} (h : 8 ≤ l.length) :
    packedBytes l = stuffed [BitVec.ofNat 8 (natOfBits (l.take 8))] ++ packedBytes (l.drop 8) := by
  rw [packedBytes, wholeBytes_long h, packedBytes, ← List.singleton_append, stuffed_append]

/-- The whole bytes of a long bit string, and what is left, may be taken in two parts. -/
theorem packedBytes_append (l m : List Bool) :
    packedBytes (l ++ m) = packedBytes l ++ packedBytes (leftover l ++ m) := by
  induction hn : l.length / 8 generalizing l with
  | zero =>
    have h : l.length < 8 := by omega
    rw [packedBytes_short h, leftover_short h, List.nil_append]
  | succ n ih =>
    have h : 8 ≤ l.length := by omega
    have ih := ih (l.drop 8) (by rw [List.length_drop]; omega)
    rw [packedBytes_long h, packedBytes_long (l := l ++ m) (by simp; omega), leftover_long h,
      List.take_append_of_le_length h, List.drop_append_of_le_length h, ih, List.append_assoc]

theorem leftover_append (l m : List Bool) : leftover (l ++ m) = leftover (leftover l ++ m) := by
  induction hn : l.length / 8 generalizing l with
  | zero => rw [leftover_short (l := l) (by omega)]
  | succ n ih =>
    have h : 8 ≤ l.length := by omega
    have ih := ih (l.drop 8) (by rw [List.length_drop]; omega)
    rw [leftover_long (l := l ++ m) (by simp; omega), List.drop_append_of_le_length h, ih, leftover_long h]

end Sys2Proof.Machine
end

