-- ==== Sys2Proof/Laws/Emits.lean ====
section
/-! SUPPORT. Operations that write bytes: with every write accepted they append a known byte string and reach a known
state; with a write failing they append the bytes before it and raise. The two facts compose under sequencing. -/
namespace Sys2Proof.Machine
open Sys2Proof

/-- Write number `k` of the byte string `bs` failed. -/
structure CutAt (s : State) (bs : List Byte) (k : Nat) (t : State) : Prop where
  out : t.out = s.out ++ bs.take k
  sinkAnswers : t.sinkAnswers = s.sinkAnswers.drop (k + 1)
  busy : t.busy = false
  err : t.err = .sinkWriteFailure
  fatal : t.fatal = s.fatal
  phase : s.phase ≠ .finalized → t.phase ≠ .finalized

/-- `u` has the sink of `s`, its `fatal`, and a phase not nearer the end. -/
structure Beside (s u : State) : Prop where
  out : u.out = s.out
  sinkAnswers : u.sinkAnswers = s.sinkAnswers
  fatal : u.fatal = s.fatal
  phase : s.phase ≠ .finalized → u.phase ≠ .finalized

theorem Beside.refl (s : State) : Beside s s := ⟨rfl, rfl, rfl, id⟩

/-- The operation writes `bs`: accepted, it answers `v` and leaves `u` with `bs` appended. -/
structure Emits {α : Type} (s : State) (r : Run α) (bs : List Byte) (v : α) (u : State) : Prop where
  accepts : SinkAccepts bs.length s → r = .done v (appended bs u)
  fails : ∀ k, k < bs.length → SinkFailsAfter k s → ∃ t, r = .raised t ∧ CutAt s bs k t

theorem appended_nil (s : State) : appended [] s = s := by simp [appended]

theorem appended_appended (a b : List Byte) (s : State) : appended b (appended a s) = appended (a ++ b) s := by
  simp [appended]

/-- Going on to another state without writing. -/
theorem Emits.done {α : Type} (v : α) (s t : State) : Emits s (.done v t) [] v t :=
  ⟨fun _ => by rw [appended_nil], fun k hk => by simp at hk⟩

theorem Emits.pure {α : Type} (v : α) (s : State) : Emits s (.done v s) [] v s := Emits.done v s s

theorem sinkAccepts_append {m n : Nat} {s : State} {as : List SinkAnswer} (ha : as = s.sinkAnswers.drop m)
    (h : SinkAccepts (m + n) s) : SinkAccepts m s ∧ ∀ a ∈ as.take n, a = SinkAnswer.ok := by
  subst ha
  refine ⟨fun a hm => h a ?_, fun a hm => h a ?_⟩
  · rw [List.take_add]
    exact List.mem_append_left _ hm
  · rw [List.take_add]
    exact List.mem_append_right _ hm

/-- Writing one byte string and then another. -/
theorem Emits.bind {α β : Type} {s u w : State} {m : Run α} {k : α → State → Run β} {bs cs : List Byte} {v : α}
    {x : β} (hm : Emits s m bs v u) (hu : Beside s u) (hk : Emits (appended bs u) (k v (appended bs u)) cs x (appended bs w)) :
    Emits s (m.bind k) (bs ++ cs) x w := by
  have hd : (appended bs u).sinkAnswers = s.sinkAnswers.drop bs.length := by simp [hu.sinkAnswers]
  constructor
  · intro h
    rw [List.length_append] at h
    have h' := sinkAccepts_append hd h
    rw [hm.accepts h'.1, Run.bind_done, hk.accepts h'.2, appended_appended]
  · intro j hj hf
    rw [List.length_append] at hj
    by_cases hb : j < bs.length
    · obtain ⟨t, rfl, ht⟩ := hm.fails j hb hf
      refine ⟨t, rfl, ⟨?_, ht.sinkAnswers, ht.busy, ht.err, ht.fatal, ht.phase⟩⟩
      rw [ht.out, List.take_append_of_le_length (by omega)]
    · obtain ⟨n, rfl⟩ : ∃ n, j = bs.length + n := ⟨j - bs.length, by omega⟩
      have h' := sinkAccepts_append hd hf.1
      have hf' : SinkFailsAfter n (appended bs u) := ⟨h'.2, by rw [hd, List.getElem?_drop]; exact hf.2⟩
      obtain ⟨t, ht', ht⟩ := hk.fails n (by omega) hf'
      refine ⟨t, by rw [hm.accepts h'.1, Run.bind_done, ht'], ⟨?_, ?_, ht.busy, ht.err, ?_, ?_⟩⟩
      · rw [ht.out, appended_out, hu.out, List.take_append (l₁ := bs), List.take_of_length_le (l := bs) (by omega),
          show bs.length + n - bs.length = n by omega, List.append_assoc]
      · rw [ht.sinkAnswers, hd, List.drop_drop, Nat.add_assoc]
      · rw [ht.fatal, appended_fatal, hu.fatal]
      · exact fun hp => ht.phase (by rw [appended_phase]; exact hu.phase hp)

/-! ### The sink -/

theorem sinkByte_emits (b : Byte) (s : State) : Emits s (sinkByte b s) [b] () s := by
  constructor
  · intro h
    unfold sinkByte
    split
    · rename_i ha
      simp [appended, ha]
    · rename_i as ha
      simp [appended, ha]
    · rename_i as ha
      exact absurd (h .fail (by simp [ha])) (by simp)
  · intro k hk hf
    obtain rfl : k = 0 := by simpa using hk
    have h := hf.2
    unfold sinkByte
    split
    · rename_i ha
      simp [ha] at h
    · rename_i as ha
      simp [ha] at h
    · rename_i as ha
      exact ⟨_, rfl, ⟨by simp, by simp [ha], rfl, rfl, by simp [ErrCode.isFatal], by simp⟩⟩

/-- Several bytes (R45, R46). -/
theorem sinkBytes_emits (bs : List Byte) (s : State) : Emits s (sinkBytes bs s) bs () s := by
  induction bs generalizing s with
  | nil => exact Emits.pure () s
  | cons b bs ih =>
    exact Emits.bind (w := s) (sinkByte_emits b s) (Beside.refl s) (ih (appended [b] s))

/-- WRITE_SEGMENT (R64, R100). -/
theorem writeSegment_emits (m : Byte) (d : Option (List Byte)) (s : State) :
    Emits s (writeSegment m d s) (segmentBytes m d) () s := sinkBytes_emits _ s

/-! ### Bits through the accumulator -/

/-- The accumulator after the whole bytes of a bit string have left it. -/
def withBits (l : List Bool) (s : State) : State :=
  { s with acc := accOf (leftover l), nbits := (leftover l).length }

theorem packed_eq (bits : List Bool) (s : State) :
    packed bits s = appended (packedBytes (pend s ++ bits)) (withBits (pend s ++ bits) s) := rfl

theorem withBits_beside (l : List Bool) (s : State) : Beside s (withBits l s) := ⟨rfl, rfl, rfl, id⟩

/-- The pending bits of an accumulator that holds a bit string. -/
theorem pend_of_acc {s : State} {l : List Bool} (h : l.length ≤ 32) (ha : s.acc = accOf l) (hn : s.nbits = l.length) :
    pend s = l := by
  apply List.ext_getElem
  · simp [hn]
  · intro i h1 h2
    simp only [pend, List.getElem_map, List.getElem_range]
    rw [ha, getLsbD_accOf h]
    simp [show 31 - i < 32 by omega, show 31 - (31 - i) = i by omega, h2]

theorem pend_packed (bits : List Bool) (s : State) : pend (packed bits s) = leftover (pend s ++ bits) :=
  pend_of_acc (by rw [length_leftover]; omega) rfl rfl

theorem packed_ready (bits : List Bool) (s : State) : PackerReady (packed bits s) := by
  have h : (packed bits s).nbits = (leftover (pend s ++ bits)).length := rfl
  refine ⟨by rw [h, length_leftover]; omega, fun i hi => ?_⟩
  exact accOf_clean (by rw [length_leftover]; omega) i (by rwa [h] at hi)

/-- One byte leaves the accumulator that holds `l` (R96). -/
theorem flushByte_emits {s : State} {l : List Bool} (h : l.length ≤ 32) (h8 : 8 ≤ l.length) (ha : s.acc = accOf l)
    (hn : s.nbits = l.length) :
    Emits s (flushByte s) (stuffed [BitVec.ofNat 8 (natOfBits (l.take 8))]) ()
      { s with acc := accOf (l.drop 8), nbits := (l.drop 8).length } := by
  have hb : s.acc.extractLsb' 24 8 = BitVec.ofNat 8 (natOfBits (l.take 8)) := by rw [ha, accOf_top h h8]
  unfold flushByte
  rw [hb]
  generalize BitVec.ofNat 8 (natOfBits (l.take 8)) = b
  have hlast : ∀ bs : List Byte, Emits (appended bs s)
      (.done () { appended bs s with acc := (appended bs s).acc <<< 8, nbits := (appended bs s).nbits - 8 }) [] ()
      (appended bs { s with acc := accOf (l.drop 8), nbits := (l.drop 8).length }) := by
    intro bs
    have he : { appended bs s with acc := (appended bs s).acc <<< 8, nbits := (appended bs s).nbits - 8 } =
        appended bs { s with acc := accOf (l.drop 8), nbits := (l.drop 8).length } := by
      simp [appended, ha, accOf_shift h, hn]
    rw [he]
    exact Emits.done () _ _
  have hs : stuffed [b] = [b] ++ (if b = 0xFF#8 then [0x00#8] else []) := by
    unfold stuffed
    by_cases h : b = 0xFF#8 <;> simp [h]
  rw [hs]
  refine Emits.bind (sinkByte_emits b s) (Beside.refl s) ?_
  rw [show (if b = 0xFF#8 then [0x00#8] else ([] : List Byte)) =
    (if b = 0xFF#8 then [0x00#8] else ([] : List Byte)) ++ [] by simp]
  refine Emits.bind (v := ()) (u := appended [b] s) ?_ (Beside.refl _) ?_
  · split
    · exact sinkByte_emits 0x00#8 _
    · exact Emits.pure () _
  · rw [appended_appended]
    rw [appended_appended]
    exact hlast _

/-- The loop of R96 on an accumulator that holds `l`. -/
theorem flushLoop_emits : ∀ (n : Nat) {s : State} {l : List Bool}, l.length ≤ n → l.length ≤ 32 → s.acc = accOf l →
    s.nbits = l.length → Emits s (flushLoop n s) (packedBytes l) () (withBits l s)
  | 0, s, l, hn, _, ha, hb => by
    obtain rfl : l = [] := List.length_eq_zero_iff.mp (by omega)
    have : withBits [] s = s := by
      simp [withBits, leftover_short (l := []) (by simp), ← ha, ← hb]
    rw [this]
    exact Emits.pure () s
  | n + 1, s, l, hn, h, ha, hb => by
    unfold flushLoop
    by_cases h8 : l.length < 8
    · have : withBits l s = s := by simp [withBits, leftover_short h8, ← ha, ← hb]
      rw [if_pos (by omega), packedBytes_short h8, this]
      exact Emits.pure () s
    · rw [if_neg (by omega), packedBytes_long (by omega)]
      have hw : withBits l s = withBits (l.drop 8) { s with acc := accOf (l.drop 8), nbits := (l.drop 8).length } := by
        simp [withBits, leftover_long (l := l) (by omega)]
      rw [hw]
      refine Emits.bind (flushByte_emits h (by omega) ha hb) ⟨rfl, rfl, rfl, id⟩ ?_
      exact flushLoop_emits n (by rw [List.length_drop]; omega) (by rw [List.length_drop]; omega) rfl rfl

/-- The operation sends a bit string through the packer. -/
def SendsBits {α : Type} (s : State) (r : Run α) (bits : List Bool) (v : α) : Prop :=
  Emits s r (packedBytes (pend s ++ bits)) v (withBits (pend s ++ bits) s)

theorem withBits_pend {s : State} (h : PackerReady s) : withBits (pend s) s = s := by
  have hp := acc_eq_accOf_pend h.2 (by have := h.1; omega)
  have hl : leftover (pend s) = pend s := leftover_short (by rw [length_pend]; have := h.1; omega)
  simp [withBits, hl, ← hp]

theorem SendsBits.pure {α : Type} (v : α) {s : State} (h : PackerReady s) : SendsBits s (.done v s) [] v := by
  rw [SendsBits, List.append_nil, packedBytes_short (by rw [length_pend]; have := h.1; omega), withBits_pend h]
  exact Emits.pure v s

/-- Sending one bit string and then another sends the two in a row. -/
theorem SendsBits.bind {α β : Type} {s : State} {m : Run α} {k : α → State → Run β} {a b : List Bool} {v : α} {x : β}
    (hm : SendsBits s m a v) (hk : ∀ t, PackerReady t → SendsBits t (k v t) b x) : SendsBits s (m.bind k) (a ++ b) x := by
  rw [SendsBits, ← List.append_assoc, packedBytes_append (pend s ++ a) b]
  refine Emits.bind hm (withBits_beside _ s) ?_
  have h := hk (packed a s) (packed_ready a s)
  rw [SendsBits, pend_packed] at h
  have hw : withBits (leftover (pend s ++ a) ++ b) (packed a s) =
      appended (packedBytes (pend s ++ a)) (withBits (pend s ++ a ++ b) s) := by
    simp only [withBits, packed_eq, appended, leftover_append (pend s ++ a) b]
  rw [hw] at h
  exact h

/-- WRITE_BITS sends the `n` low bits of its code (R17, R96). -/
theorem writeBits_sendsBits (code : BitVec 16) {n : Nat} (hn : n ≤ 16) {s : State} (h : PackerReady s) :
    SendsBits s (writeBits code n s) (bitsOf n code.toNat) () := by
  unfold writeBits
  split
  · rename_i hz
    subst hz
    exact SendsBits.pure () h
  · have hl : (pend s ++ bitsOf n code.toNat).length ≤ 32 := by
      have := h.1
      simp
      omega
    have ha : mergeBits s.acc s.nbits code n = accOf (pend s ++ bitsOf n code.toNat) := by
      rw [acc_eq_accOf_pend h.2 (by have := h.1; omega)]
      have := mergeBits_accOf (l := pend s) code n (by simpa using hl)
      rwa [length_pend] at this
    have := flushLoop_emits (s.nbits + n) (s := { s with acc := mergeBits s.acc s.nbits code n, nbits := s.nbits + n })
      (l := pend s ++ bitsOf n code.toNat) (by simp) hl ha (by simp)
    exact ⟨fun hs => this.accepts hs, fun k hk hf => by
      obtain ⟨t, h1, h2⟩ := this.fails k hk hf
      exact ⟨t, h1, ⟨h2.out, h2.sinkAnswers, h2.busy, h2.err, h2.fatal, h2.phase⟩⟩⟩

/-- PAD_BYTE sends seven ones (R99). -/
theorem padByte_sendsBits {s : State} (h : PackerReady s) : SendsBits s (padByte s) (bitsOf 7 0x7F) () :=
  writeBits_sendsBits 0x7F#16 (by decide) h

end Sys2Proof.Machine
end

