-- ==== Sys2Proof/Laws/Cut.lean ====
section
/-! SUPPORT. What a failing write leaves of the operations that send bits (R97 (f), R97 (g)): one WRITE_BITS, and
several in a row. -/
namespace Sys2Proof.Machine
open Sys2Proof

/-! ### One WRITE_BITS -/

theorem length_stuffed_one (b : Byte) : (stuffed [b]).length = if b = 0xFF#8 then 2 else 1 := by
  unfold stuffed
  by_cases h : b = 0xFF#8 <;> simp [h]

theorem sinkByte_accepted {b : Byte} {s : State} (h : SinkAccepts 1 s) : sinkByte b s = .done () (appended [b] s) :=
  (sinkByte_emits b s).accepts h

theorem sinkByte_failed {b : Byte} {s : State} (h : SinkFailsAfter 0 s) :
    sinkByte b s = .raised { s with sinkAnswers := s.sinkAnswers.drop 1, busy := false, err := .sinkWriteFailure } := by
  have h2 := h.2
  unfold sinkByte
  split
  · rename_i ha
    simp [ha] at h2
  · rename_i as ha
    simp [ha] at h2
  · rename_i as ha
    simp [Run.raise, raiseError, ha, ErrCode.isFatal]

/-- A byte leaving the accumulator is cut: it stays there, whichever of its writes failed. -/
theorem flushByte_cut {s : State} {k : Nat} (hk : k < (stuffed [s.acc.extractLsb' 24 8]).length)
    (hf : SinkFailsAfter k s) :
    flushByte s = .raised { s with
      out := s.out ++ (stuffed [s.acc.extractLsb' 24 8]).take k
      sinkAnswers := s.sinkAnswers.drop (k + 1)
      busy := false
      err := .sinkWriteFailure } := by
  unfold flushByte
  generalize s.acc.extractLsb' 24 8 = b at hk ⊢
  rw [length_stuffed_one] at hk
  cases k with
  | zero => simp [sinkByte_failed hf]
  | succ k =>
    have hb : b = 0xFF#8 := by
      by_contra hb
      simp [hb] at hk
    obtain rfl : k = 0 := by simp [hb] at hk; omega
    have h1 : SinkFailsAfter 0 (appended [b] s) := ⟨by simp [SinkAccepts], by simpa using hf.2⟩
    dsimp only
    rw [sinkByte_accepted hf.1, Run.bind_done, if_pos hb, sinkByte_failed h1]
    simp [hb, stuffed, appended]

/-- The loop of R96 on an accumulator that holds `l`, cut at write number `k`. -/
theorem flushLoop_cut : ∀ (n : Nat) {s : State} {l : List Bool} {k : Nat}, l.length ≤ n → l.length ≤ 32 →
    s.acc = accOf l → s.nbits = l.length → k < (packedBytes l).length → SinkFailsAfter k s →
    flushLoop n s = .raised { s with
      acc := accOf (l.drop (8 * bytesOut (wholeBytes l) k))
      nbits := (l.drop (8 * bytesOut (wholeBytes l) k)).length
      out := s.out ++ (packedBytes l).take k
      sinkAnswers := s.sinkAnswers.drop (k + 1)
      busy := false
      err := .sinkWriteFailure }
  | 0, s, l, k, hn, _, _, _, hk, _ => by
    obtain rfl : l = [] := List.length_eq_zero_iff.mp (by omega)
    rw [packedBytes_short (by simp)] at hk
    simp at hk
  | n + 1, s, l, k, hn, h, ha, hb, hk, hf => by
    by_cases h8 : l.length < 8
    · rw [packedBytes_short h8] at hk
      simp at hk
    have hw := wholeBytes_long (l := l) (by omega)
    have hp := packedBytes_long (l := l) (by omega)
    have htop : s.acc.extractLsb' 24 8 = BitVec.ofNat 8 (natOfBits (l.take 8)) := by rw [ha, accOf_top h (by omega)]
    have he := flushByte_emits (s := s) h (by omega) ha hb
    unfold flushLoop
    rw [if_neg (by omega), hw, hp]
    rw [hp, List.length_append] at hk
    rw [← htop] at hk he ⊢
    generalize hbyte : s.acc.extractLsb' 24 8 = b at hk he ⊢
    by_cases hcut : k < (stuffed [b]).length
    · rw [flushByte_cut (by rwa [hbyte]) hf, hbyte, Run.bind_raised, bytesOut, if_neg (by omega),
        List.take_append_of_le_length (by omega)]
      simp [ha, hb]
    · obtain ⟨j, rfl⟩ : ∃ j, k = (stuffed [b]).length + j := ⟨k - (stuffed [b]).length, by omega⟩
      have hacc := sinkAccepts_append rfl hf.1
      rw [he.accepts hacc.1, Run.bind_done,
        flushLoop_cut n (l := l.drop 8) (k := j) (by rw [List.length_drop]; omega) (by rw [List.length_drop]; omega)
          rfl rfl (by omega) ⟨hacc.2, by simpa [appended, List.getElem?_drop] using hf.2⟩,
        bytesOut, if_pos (by omega), show (stuffed [b]).length + j - (stuffed [b]).length = j by omega,
        List.take_append, List.take_of_length_le (l := stuffed [b]) (by omega)]
      simp [appended, List.drop_drop, Nat.mul_add, Nat.add_comm 8, Nat.add_assoc]

/-- WRITE_BITS, cut at write number `k` (R97 (f), R97 (g)). -/
theorem writeBits_cut (code : BitVec 16) {n : Nat} (hn : n ≤ 16) {s : State} {k : Nat} (h : PackerReady s)
    (hc : SinkCutsBits (bitsOf n code.toNat) k s) :
    writeBits code n s = .raised (packedCut (bitsOf n code.toNat) k s) := by
  have h7 := h.1
  have hl : (pend s ++ bitsOf n code.toNat).length ≤ 32 := by
    simp
    omega
  have ha : mergeBits s.acc s.nbits code n = accOf (pend s ++ bitsOf n code.toNat) := by
    rw [acc_eq_accOf_pend h.2 (by omega)]
    have := mergeBits_accOf (l := pend s) code n (by simpa using hl)
    rwa [length_pend] at this
  unfold writeBits
  split
  · rename_i hz
    subst hz
    have h0 := hc.1
    rw [packedBytes_short (by simp; omega)] at h0
    simp at h0
  · exact flushLoop_cut (s.nbits + n) (s := { s with acc := mergeBits s.acc s.nbits code n, nbits := s.nbits + n })
      (by simp) hl ha (by simp) hc.1 hc.2

/-! ### Several in a row -/

/-- Sending two bit strings is sending the two in a row. -/
theorem packed_packed (a b : List Bool) (s : State) : packed b (packed a s) = packed (a ++ b) s := by
  have hp := pend_packed a s
  unfold packed at hp ⊢
  dsimp only at hp ⊢
  rw [hp, ← List.append_assoc, leftover_append (pend s ++ a) b, packedBytes_append (pend s ++ a) b]
  simp [List.drop_drop]

theorem packed_nil {s : State} (h : PackerReady s) : packed [] s = s := by
  have h7 := h.1
  rw [packed_eq, List.append_nil, withBits_pend h, packedBytes_short (by rw [length_pend]; omega), appended_nil]

/-- The writes of two bit strings in a row. -/
theorem length_packedBytes_append (a b : List Bool) (s : State) :
    (packedBytes (pend s ++ (a ++ b))).length =
      (packedBytes (pend s ++ a)).length + (packedBytes (pend (packed a s) ++ b)).length := by
  rw [← List.append_assoc, packedBytes_append, List.length_append, pend_packed]

/-- A cut in the first codes leaves the later ones out. -/
theorem cutCodes_append_left : ∀ (as bs : List (List Bool)) (k : Nat) {s : State}, PackerReady s →
    k < (packedBytes (pend s ++ as.flatten)).length → cutCodes (as ++ bs) k s = cutCodes as k s
  | [], bs, k, s, h, hk => by
    rw [List.flatten_nil, List.append_nil, packedBytes_short (by rw [length_pend]; have := h.1; omega)] at hk
    simp at hk
  | c :: cs, bs, k, s, h, hk => by
    rw [List.flatten_cons, length_packedBytes_append] at hk
    rw [List.cons_append, cutCodes, cutCodes]
    split
    · rfl
    · exact cutCodes_append_left cs bs _ (packed_ready c s) (by omega)

/-- A cut behind the first codes leaves their whole effect. -/
theorem cutCodes_append_right : ∀ (as bs : List (List Bool)) (k : Nat) {s : State}, PackerReady s →
    cutCodes (as ++ bs) ((packedBytes (pend s ++ as.flatten)).length + k) s = cutCodes bs k (packed as.flatten s)
  | [], bs, k, s, h => by
    rw [List.flatten_nil, packed_nil h, List.append_nil, packedBytes_short (by rw [length_pend]; have := h.1; omega)]
    simp
  | c :: cs, bs, k, s, h => by
    rw [List.flatten_cons, length_packedBytes_append, List.cons_append, cutCodes, if_neg (by omega), ← packed_packed]
    rw [show ∀ x y : Nat, x + y + k - x = y + k by omega]
    exact cutCodes_append_right cs bs k (packed_ready c s)

/-- The operation sends the codes `cs`, one WRITE_BITS each: accepted, it answers `v`; with a write failing, it is cut in
the code that write belongs to. -/
structure SendsCodes {α : Type} (s : State) (r : Run α) (cs : List (List Bool)) (v : α) : Prop where
  sends : SendsBits s r cs.flatten v
  cut : ∀ k, SinkCutsBits cs.flatten k s → r = .raised (cutCodes cs k s)

theorem SendsCodes.pure {α : Type} (v : α) {s : State} (h : PackerReady s) : SendsCodes s (.done v s) [] v :=
  ⟨SendsBits.pure v h, fun k hk => by
    have hk := hk.1
    rw [List.flatten_nil, List.append_nil, packedBytes_short (by rw [length_pend]; have := h.1; omega)] at hk
    simp at hk⟩

theorem SendsCodes.bind {α β : Type} {s : State} {m : Run α} {k : α → State → Run β} {as bs : List (List Bool)} {v : α}
    {x : β} (h : PackerReady s) (hm : SendsCodes s m as v) (hk : ∀ t, PackerReady t → SendsCodes t (k v t) bs x) :
    SendsCodes s (m.bind k) (as ++ bs) x := by
  constructor
  · rw [List.flatten_append]
    exact SendsBits.bind hm.sends fun t ht => (hk t ht).sends
  · intro j hj
    obtain ⟨hlt, hf⟩ := hj
    rw [List.flatten_append, length_packedBytes_append] at hlt
    by_cases hcut : j < (packedBytes (pend s ++ as.flatten)).length
    · rw [hm.cut j ⟨hcut, hf⟩, Run.bind_raised, cutCodes_append_left as bs j h hcut]
    · obtain ⟨i, rfl⟩ : ∃ i, j = (packedBytes (pend s ++ as.flatten)).length + i := ⟨j - (packedBytes (pend s ++ as.flatten)).length, by omega⟩
      have hacc := sinkAccepts_append (as := (packed as.flatten s).sinkAnswers) rfl hf.1
      have hf' : SinkFailsAfter i (packed as.flatten s) := ⟨hacc.2, by
        rw [packed_eq, appended_sinkAnswers]
        simpa [withBits, List.getElem?_drop] using hf.2⟩
      rw [hm.sends.accepts hacc.1, Run.bind_done, ← packed_eq,
        (hk _ (packed_ready as.flatten s)).cut i ⟨by omega, hf'⟩, cutCodes_append_right as bs i h]

/-- One WRITE_BITS. -/
theorem writeBits_sendsCodes (code : BitVec 16) {n : Nat} (hn : n ≤ 16) {s : State} (h : PackerReady s) :
    SendsCodes s (writeBits code n s) [bitsOf n code.toNat] () := by
  refine ⟨by simpa using writeBits_sendsBits code hn h, fun k hk => ?_⟩
  rw [List.flatten_singleton] at hk
  rw [cutCodes, if_pos hk.1]
  exact writeBits_cut code hn h hk

end Sys2Proof.Machine
end

