-- ==== Sys2Proof/Laws/Coder.lean ====
section
/-! SUPPORT. The coefficient coder sends the codes of the format, one by one and as one bit string. -/
namespace Sys2Proof.Machine
open Sys2Proof

/-! ### Magnitudes -/

theorem bitlen_le {n k : Nat} (h : n < 2 ^ k) : bitlen n ≤ k := by
  unfold bitlen
  split
  · omega
  · rename_i hn
    exact (Nat.log2_lt hn).mpr h

theorem bitlen_bounds {n : Nat} (h : n ≠ 0) : 1 ≤ bitlen n ∧ 2 ^ (bitlen n - 1) ≤ n ∧ n < 2 ^ bitlen n := by
  rw [bitlen, if_neg h]
  exact ⟨by omega, Nat.log2_self_le h, Nat.lt_log2_self⟩

theorem bitsOf_ofNat16 {n : Nat} (h : n ≤ 16) (m : Nat) : bitsOf n (BitVec.ofNat 16 m).toNat = bitsOf n m := by
  apply List.ext_getElem (by simp)
  intro i h1 h2
  rw [length_bitsOf] at h1
  simp only [bitsOf, List.getElem_map, List.getElem_range, BitVec.toNat_ofNat]
  rw [Nat.testBit_mod_two_pow]
  simp [show n - 1 - i < 16 by omega]

/-- A difference of two coefficients has at most 32 magnitude bits. -/
theorem magSize_dcDiff (block : Block Coef) (prev : Coef) : magSize (dcDiff block prev) ≤ 32 := by
  apply bitlen_le
  have h1 := (dcOf block).toInt_lt
  have h2 := (dcOf block).le_toInt
  have h3 := prev.toInt_lt
  have h4 := prev.le_toInt
  unfold dcDiff
  simp at *
  omega

/-! ### Symbols -/

/-- A symbol with a code sends it (R108). -/
theorem huffmanEncode_sendsCodes {sym : Byte} {t : HuffTable} {bits : List Bool} (hc : codeBits t sym = some bits)
    {s : State} (h : PackerReady s) : SendsCodes s (huffmanEncode sym t s) [bits] () := by
  unfold codeBits at hc
  split at hc
  · rename_i hl
    obtain rfl := Option.some.inj hc
    unfold huffmanEncode
    rw [if_neg (by omega)]
    exact writeBits_sendsCodes _ hl h
  · cases hc

/-- A symbol without a code raises before any bit (R108). -/
theorem huffmanEncode_raises {sym : Byte} {t : HuffTable} (hc : codeBits t sym = none) (s : State) :
    huffmanEncode sym t s = .raise .huffmanLengthError s := by
  unfold codeBits at hc
  split at hc
  · cases hc
  · unfold huffmanEncode
    rw [if_pos (by omega)]

/-- The DC tables have codes for small categories only (R89). -/
theorem codeBits_dc_size : ∀ (td : TableSet) (n : Fin 256), (codeBits (tableOf .dc td) (BitVec.ofNat 8 n.val)).isSome = true →
    n.val ≤ 11 := by
  intro td
  cases td <;> decide +kernel

/-- A symbol's code and the magnitude bits it announces. -/
theorem writeValue_sendsCodes {sym : Byte} {t : HuffTable} {v : Int} {bits : List Bool} (hc : codeBits t sym = some bits)
    (hv : magSize v ≤ 16) {s : State} (h : PackerReady s) :
    SendsCodes s (writeValue sym t v s) [bits, magString v] () := by
  refine SendsCodes.bind (as := [bits]) (bs := [magString v]) h (huffmanEncode_sendsCodes hc h) fun u hu => ?_
  have := writeBits_sendsCodes (BitVec.ofNat 16 (magBits v)) hv hu
  rwa [bitsOf_ofNat16 hv] at this

theorem dcCodes_sends {td : TableSet} {v : Int} {cs : List (List Bool)} (hc : dcCodes td v = some cs)
    (hv : magSize v ≤ 255) {s : State} (h : PackerReady s) :
    SendsCodes s (writeValue (BitVec.ofNat 8 (magSize v)) (tableOf .dc td) v s) cs () := by
  unfold dcCodes at hc
  cases hd : codeBits (tableOf .dc td) (BitVec.ofNat 8 (magSize v)) with
  | none => simp [hd] at hc
  | some c =>
    have h11 := codeBits_dc_size td ⟨magSize v, by omega⟩ (by simp [hd])
    simp only [hd, Option.bind_eq_bind, Option.bind_some, Option.pure_def, Option.some.injEq] at hc
    subst hc
    exact writeValue_sendsCodes hd (by simp at h11; omega) h

theorem zrlTimes_sendsCodes {ta : TableSet} : ∀ {n : Nat} {cs : List (List Bool)}, zrlCodes ta n = some cs →
    ∀ {s : State}, PackerReady s → SendsCodes s (zrlTimes ta n s) cs ()
  | 0, cs, hc, s, h => by
    obtain rfl := Option.some.inj hc
    exact SendsCodes.pure () h
  | n + 1, cs, hc, s, h => by
    unfold zrlCodes at hc
    cases hz : codeBits (tableOf .ac ta) 0xF0#8 with
    | none => simp [hz] at hc
    | some z =>
      cases hs : zrlCodes ta n with
      | none => simp [hs] at hc
      | some zs =>
        simp only [hz, hs, Option.bind_eq_bind, Option.bind_some, Option.pure_def, Option.some.injEq] at hc
        subst hc
        exact SendsCodes.bind (as := [z]) h (huffmanEncode_sendsCodes hz h) fun u hu => zrlTimes_sendsCodes hs hu

theorem writeAc_sendsCodes {ta : TableSet} {run : Nat} {v : Int} {cs : List (List Bool)}
    (hc : acItemCodes ta run v = some cs) {s : State} (h : PackerReady s) : SendsCodes s (writeAc ta run v s) cs () := by
  unfold acItemCodes at hc
  cases hz : zrlCodes ta (run / 16) with
  | none => simp [hz] at hc
  | some zs =>
    simp only [hz, Option.bind_eq_bind, Option.bind_some] at hc
    split at hc
    · cases hc
    · rename_i hv
      cases hd : codeBits (tableOf .ac ta) (nibbles (run % 16) (magSize v)) with
      | none => simp [hd] at hc
      | some c =>
        simp only [hd, Option.bind_some, Option.pure_def, Option.some.injEq] at hc
        subst hc
        refine SendsCodes.bind h (zrlTimes_sendsCodes hz h) fun u hu => ?_
        rw [if_neg hv]
        exact writeValue_sendsCodes hd (by omega) hu

theorem scanAc_sendsCodes {ta : TableSet} : ∀ {vs : List Coef} {run : Nat} {cs : List (List Bool)},
    acCodes ta vs run = some cs → ∀ {s : State}, PackerReady s → SendsCodes s (scanAc ta vs run s) cs ()
  | [], run, cs, hc, s, h => by
    unfold acCodes at hc
    unfold scanAc
    split
    · rename_i hr
      rw [if_pos hr] at hc
      cases he : codeBits (tableOf .ac ta) 0x00#8 with
      | none => simp [he] at hc
      | some e =>
        simp only [he, Option.bind_eq_bind, Option.bind_some, Option.pure_def, Option.some.injEq] at hc
        subst hc
        exact huffmanEncode_sendsCodes he h
    · rename_i hr
      rw [if_neg hr] at hc
      obtain rfl := Option.some.inj hc
      exact SendsCodes.pure () h
  | v :: vs, run, cs, hc, s, h => by
    unfold acCodes at hc
    unfold scanAc
    split
    · rename_i hv
      rw [if_pos hv] at hc
      exact scanAc_sendsCodes hc h
    · rename_i hv
      rw [if_neg hv] at hc
      cases hi : acItemCodes ta run v.toInt with
      | none => simp [hi] at hc
      | some item =>
        cases hs : acCodes ta vs 0 with
        | none => simp [hs] at hc
        | some rest =>
          simp only [hi, hs, Option.bind_eq_bind, Option.bind_some, Option.pure_def, Option.some.injEq] at hc
          subst hc
          exact SendsCodes.bind h (writeAc_sendsCodes hi h) fun u hu => scanAc_sendsCodes hs hu

/-- WRITE_BLOCK sends the codes of the block (R72, R113). -/
theorem writeBlock_sendsCodes {block : Block Coef} {prev : Coef} {td ta : TableSet} {cs : List (List Bool)}
    (hc : blockCodes block prev td ta = some cs) {s : State} (h : PackerReady s) :
    SendsCodes s (writeBlock block prev td ta s) cs (dcOf block) := by
  unfold blockCodes at hc
  cases hd : dcCodes td (dcDiff block prev) with
  | none => simp [hd] at hc
  | some d =>
    cases ha : acCodes ta (acInScanOrder block) 0 with
    | none => simp [ha] at hc
    | some a =>
      simp only [hd, ha, Option.bind_eq_bind, Option.bind_some, Option.pure_def, Option.some.injEq] at hc
      subst hc
      refine SendsCodes.bind h (dcCodes_sends hd (by have := magSize_dcDiff block prev; omega) h) fun u hu => ?_
      rw [← List.append_nil a]
      exact SendsCodes.bind hu (scanAc_sendsCodes ha hu) fun w hw => SendsCodes.pure _ hw

/-- The coded block is its codes in a row. -/
theorem blockString_eq {block : Block Coef} {prev : Coef} {td ta : TableSet} {bits : List Bool} :
    blockString block prev td ta = some bits ↔ ∃ cs, blockCodes block prev td ta = some cs ∧ cs.flatten = bits := by
  simp [blockString, Option.bind_eq_some_iff]

/-- WRITE_BLOCK sends the coded block (R72, R113). -/
theorem writeBlock_sendsBits {block : Block Coef} {prev : Coef} {td ta : TableSet} {bits : List Bool}
    (hc : blockString block prev td ta = some bits) {s : State} (h : PackerReady s) :
    SendsBits s (writeBlock block prev td ta s) bits (dcOf block) := by
  obtain ⟨cs, hs, rfl⟩ := blockString_eq.mp hc
  exact (writeBlock_sendsCodes hs h).sends

end Sys2Proof.Machine
end

