-- ==== Sys2Proof/Laws/Decode.lean ====
section
/-! SUPPORT. Operands as bytes and back: numbers, items, arrays and lists. -/
namespace Sys2Proof
open Sys2Proof

theorem bytesToNat_append (a : List Byte) (b : Byte) : bytesToNat (a ++ [b]) = bytesToNat a * 256 + b.toNat := by
  simp [bytesToNat]

theorem length_natToBytes (n v : Nat) : (natToBytes n v).length = n := by simp [natToBytes]

theorem natToBytes_succ (n v : Nat) : natToBytes (n + 1) v = natToBytes n (v / 256) ++ [BitVec.ofNat 8 v] := by
  rw [natToBytes, List.range_succ, List.map_append]
  congr 1
  · apply List.map_congr_left
    intro i hi
    rw [List.mem_range] at hi
    rw [Nat.shiftRight_eq_div_pow, Nat.shiftRight_eq_div_pow, Nat.div_div_eq_div_mul,
      show n + 1 - 1 - i = (n - 1 - i) + 1 by omega, Nat.mul_add, Nat.pow_add, Nat.mul_comm]
  · simp

theorem bytesToNat_natToBytes (n v : Nat) : bytesToNat (natToBytes n v) = v % 256 ^ n := by
  induction n generalizing v with
  | zero => simp [natToBytes, bytesToNat, Nat.mod_one]
  | succ n ih =>
    have h : v % 256 ^ (n + 1) = v % 256 + 256 * (v / 256 % 256 ^ n) := by
      rw [Nat.pow_succ, Nat.mul_comm (256 ^ n) 256, Nat.mod_mul]
    rw [natToBytes_succ, bytesToNat_append, ih, BitVec.toNat_ofNat, h]
    omega

theorem natToBytes_bytesToNat (bs : List Byte) : natToBytes bs.length (bytesToNat bs) = bs := by
  induction bs using List.reverseRecOn with
  | nil => rfl
  | append_singleton bs b ih =>
    have hb := b.isLt
    have h : (bytesToNat bs * 256 + b.toNat) / 256 = bytesToNat bs := by omega
    rw [List.length_append, List.length_singleton, natToBytes_succ, bytesToNat_append, h, ih]
    congr 2
    apply BitVec.eq_of_toNat_eq
    simp only [BitVec.toNat_ofNat]
    omega

theorem bytesToNat_lt (bs : List Byte) : bytesToNat bs < 256 ^ bs.length := by
  have h := bytesToNat_natToBytes bs.length (bytesToNat bs)
  rw [natToBytes_bytesToNat] at h
  rw [h]
  exact Nat.mod_lt _ (by positivity)

theorem Fixed.ext_toList {n : Nat} {α : Type} {v w : Fixed n α} (h : v.toList = w.toList) : v = w := by
  cases v
  cases w
  subst h
  rfl

/-- An array is read back from its items. -/
theorem Fixed.ofFn_getD {n : Nat} {α : Type} (v : Fixed n α) (d : α) : Fixed.ofFn n (fun i => v.toList.getD i d) = v := by
  apply Fixed.ext_toList
  apply List.ext_getElem (by simp [Fixed.ofFn, v.length_eq])
  intro i h1 h2
  simp [Fixed.ofFn, h2]

/-- Items whose bytes are read back one by one are read back together. -/
theorem getMany_flatMap {α : Type} {p : List Byte → Except DecodeError (α × List Byte)} {f : α → List Byte}
    (hp : ∀ a w, p (f a ++ w) = .ok (a, w)) (as : List α) (w : List Byte) :
    getMany p as.length (as.flatMap f ++ w) = .ok (as, w) := by
  induction as with
  | nil => rfl
  | cons a as ih =>
    rw [List.length_cons, getMany, List.flatMap_cons, List.append_assoc, hp]
    simp only [bind, Except.bind, ih, pure, Except.pure]

theorem getMany_bytes (bs w : List Byte) : getMany getByte bs.length (bs ++ w) = .ok (bs, w) := by
  have h := getMany_flatMap (p := getByte) (f := fun b => [b]) (fun _ _ => rfl) bs w
  simpa using h

theorem getNat_natToBytes {n v : Nat} (h : v < 256 ^ n) (w : List Byte) : getNat n (natToBytes n v ++ w) = .ok (v, w) := by
  have hm := getMany_bytes (natToBytes n v) w
  rw [length_natToBytes] at hm
  rw [getNat, hm]
  simp [bind, Except.bind, pure, Except.pure, bytesToNat_natToBytes, Nat.mod_eq_of_lt h]

theorem getCoef_coefBytes (c : Coef) (w : List Byte) : getCoef (coefBytes c ++ w) = .ok (c, w) := by
  rw [getCoef, coefBytes, getNat_natToBytes (Nat.lt_of_lt_of_le c.isLt (by decide))]
  simp [bind, Except.bind, pure, Except.pure]

theorem getHalf_halfBytes (h : BitVec 16) (w : List Byte) : getHalf (halfBytes h ++ w) = .ok (h, w) := by
  rw [getHalf, halfBytes, getNat_natToBytes (Nat.lt_of_lt_of_le h.isLt (by decide))]
  simp [bind, Except.bind, pure, Except.pure]

theorem getFixed_bytes {n : Nat} (v : Fixed n Byte) (d : Byte) (w : List Byte) :
    getFixed n d getByte (v.toList ++ w) = .ok (v, w) := by
  have hm := getMany_bytes v.toList w
  rw [v.length_eq] at hm
  rw [getFixed, hm]
  simp only [bind, Except.bind, pure, Except.pure, Fixed.ofFn_getD]

theorem getFixed_coefs {n : Nat} (v : Fixed n Coef) (d : Coef) (w : List Byte) :
    getFixed n d getCoef (v.toList.flatMap coefBytes ++ w) = .ok (v, w) := by
  have hm := getMany_flatMap getCoef_coefBytes v.toList w
  rw [v.length_eq] at hm
  rw [getFixed, hm]
  simp only [bind, Except.bind, pure, Except.pure, Fixed.ofFn_getD]

theorem getList_listBytes {d : List Byte} (h : d.length < 65536) (w : List Byte) : getList (listBytes d ++ w) = .ok (d, w) := by
  rw [getList, listBytes, List.append_assoc, getNat_natToBytes (by omega)]
  exact getMany_bytes d w

/-- The bytes of a two's complement number read back as it. -/
theorem getMag_bytes {v : Int} (h : magInRange v = true) (w : List Byte) :
    getMag (natToBytes 5 (BitVec.ofInt 40 v).toNat ++ w) = .ok (v, w) := by
  have hv : (BitVec.ofNat 40 (BitVec.ofInt 40 v).toNat).toInt = v := by
    rw [BitVec.ofNat_toNat, BitVec.setWidth_eq, BitVec.toInt_ofInt]
    simp only [magInRange, Bool.and_eq_true, decide_eq_true_eq] at h
    exact Int.bmod_eq_of_le (by omega) (by omega)
  rw [getMag, getNat_natToBytes (Nat.lt_of_lt_of_le (BitVec.isLt _) (by decide))]
  simp only [bind, Except.bind, hv]
  rfl

theorem getSet_code (s : TableSet) (w : List Byte) : getSet (s.code :: w) = .ok (s, w) := by cases s <;> rfl

theorem getClass_code (k : TableClass) (w : List Byte) : getClass (k.code :: w) = .ok (k, w) := by cases k <;> rfl

theorem getTable_code (t : HuffTable) (w : List Byte) : getTable (t.code :: w) = .ok (t, w) := by cases t <;> rfl

theorem getNComp_selector (n : NComp) (w : List Byte) : getNComp (n.selector :: w) = .ok (n, w) := by cases n <;> rfl

theorem getLength_byte (n : Fin 17) (w : List Byte) : getLength (BitVec.ofNat 8 n.val :: w) = .ok (n, w) := by
  have hn : (BitVec.ofNat 8 n.val).toNat = n.val := by
    rw [BitVec.toNat_ofNat]
    omega
  simp [getLength, getByte, bind, Except.bind, hn, pure, Except.pure]

theorem getData_dataBytes {d : Option (List Byte)} (h : segmentDataOk d = true) (w : List Byte) :
    getData (dataBytes d ++ w) = .ok (d, w) := by
  cases d with
  | none => rfl
  | some d =>
    have hl : d.length ≤ 65533 := by simpa [segmentDataOk] using h
    simp only [getData, dataBytes, List.cons_append, getByte, bind, Except.bind, BitVec.reduceEq, if_true, if_false,
      getList_listBytes (show d.length < 65536 by omega), hl]
    rfl

theorem getOrigin_bytes {x : Nat} (h : originOk x = true) (w : List Byte) : getOrigin (natToBytes 2 x ++ w) = .ok (x, w) := by
  have hx : x < 65536 := by simpa [originOk] using h
  exact getNat_natToBytes (by omega) w

end Sys2Proof
end

