-- ==== Sys2Proof/Laws/Memory.lean ====
section
/-! SUPPORT. The image memory: every operation keeps the canonical form, and a read after a write. -/
namespace Sys2Proof.Machine
open Sys2Proof

/-- The read of a cell list, which `Memory.read` is of its own cells. -/
def readCells (a : Nat) : List Host.Cell → Byte
  | [] => Memory.unlisted
  | (x, v) :: r => if x = a then v else readCells a r

theorem read_eq_readCells (m : Memory) (a : Nat) : m.read a = readCells a m.cells := by
  obtain ⟨l⟩ := m
  induction l with
  | nil => rfl
  | cons c r ih =>
    obtain ⟨x, v⟩ := c
    simp only [Memory.read, List.find?_cons, readCells] at ih ⊢
    by_cases h : x = a
    · simp [h]
    · simp [h, ih, beq_false_of_ne h]

/-- A canonical list says nothing of the offsets below its first one. -/
theorem readCells_below {lo a : Nat} : ∀ {l : List Host.Cell}, cellsOk lo l = true → a < lo →
    readCells a l = Memory.unlisted
  | [], _, _ => rfl
  | (x, v) :: r, h, ha => by
    simp only [cellsOk, Bool.and_eq_true, decide_eq_true_eq] at h
    have hx : x ≠ a := by omega
    simpa [readCells, hx] using readCells_below h.2 (by omega)

theorem cellsOk_mono {lo lo' : Nat} (hl : lo' ≤ lo) : ∀ {l : List Host.Cell}, cellsOk lo l = true → cellsOk lo' l = true
  | [], _ => rfl
  | (x, v) :: r, h => by
    simp only [cellsOk, Bool.and_eq_true, decide_eq_true_eq] at h ⊢
    exact ⟨⟨⟨by omega, h.1.1.2⟩, h.1.2⟩, h.2⟩

/-- A write keeps the canonical form. -/
theorem putCell_ok {a : Nat} (b : Byte) (ha : a < imageSpace) : ∀ {lo : Nat} {l : List Host.Cell}, lo ≤ a →
    cellsOk lo l = true → cellsOk lo (putCell a b l) = true
  | lo, [], hl, _ => by
    unfold putCell
    split <;> simp_all [cellsOk]
  | lo, (x, v) :: r, hl, h => by
    simp only [cellsOk, Bool.and_eq_true, decide_eq_true_eq] at h
    obtain ⟨⟨⟨h1, h2⟩, h3⟩, h4⟩ := h
    unfold putCell
    split
    · split
      · simp [cellsOk, h1, h2, h3, h4]
      · rename_i hax hb
        simp [cellsOk, hl, ha, hb, h2, h3, h4, Nat.succ_le_of_lt hax]
    · split
      · rename_i hax
        subst hax
        split
        · exact cellsOk_mono (by omega) h4
        · rename_i hb
          simp [cellsOk, h1, h2, hb, h4]
      · have := putCell_ok b ha (lo := x + 1) (l := r) (by omega) h4
        simp [cellsOk, h1, h2, h3, this]

/-- Reading the offset just written. -/
theorem readCells_putCell_same {a : Nat} (b : Byte) : ∀ {lo : Nat} {l : List Host.Cell}, cellsOk lo l = true →
    readCells a (putCell a b l) = b
  | lo, [], _ => by
    unfold putCell
    split <;> simp_all [readCells]
  | lo, (x, v) :: r, h => by
    simp only [cellsOk, Bool.and_eq_true, decide_eq_true_eq] at h
    unfold putCell
    split
    · rename_i hax
      split
      · rename_i hb
        have hx : x ≠ a := by omega
        simp [readCells, hx, hb, readCells_below h.2 (show a < x + 1 by omega)]
      · simp [readCells]
    · split
      · rename_i hax
        subst hax
        split
        · rename_i hb
          rw [hb, readCells_below h.2 (by omega)]
        · simp [readCells]
      · have hx : x ≠ a := by omega
        simpa [readCells, hx] using readCells_putCell_same b h.2

/-- Reading another offset. -/
theorem readCells_putCell_other {a c : Nat} (b : Byte) (hc : c ≠ a) : ∀ l : List Host.Cell,
    readCells c (putCell a b l) = readCells c l
  | [] => by
    unfold putCell
    split <;> simp [readCells, Ne.symm hc]
  | (x, v) :: r => by
    unfold putCell
    split
    · split <;> simp [readCells, Ne.symm hc]
    · split
      · rename_i hax
        subst hax
        split <;> simp [readCells, Ne.symm hc]
      · simp [readCells, readCells_putCell_other b hc r]

theorem Memory.write_wf {m : Memory} {a : Nat} (b : Byte) (ha : a < imageSpace) (h : m.wf = true) :
    (m.write a b).wf = true := putCell_ok b ha (Nat.zero_le a) h

theorem Memory.read_write_same {m : Memory} (a : Nat) (b : Byte) (h : m.wf = true) : (m.write a b).read a = b := by
  rw [read_eq_readCells]
  exact readCells_putCell_same b h

theorem Memory.read_write_other (m : Memory) {a c : Nat} (b : Byte) (hc : c ≠ a) : (m.write a b).read c = m.read c := by
  rw [read_eq_readCells, read_eq_readCells]
  exact readCells_putCell_other b hc m.cells

theorem Memory.place_wf : ∀ {m : Memory} {base : Nat} (data : List Byte), base + data.length ≤ imageSpace →
    m.wf = true → (m.place base data).wf = true
  | _, _, [], _, h => h
  | m, base, b :: bs, hb, h => by
    rw [List.length_cons] at hb
    exact Memory.place_wf bs (by omega) (Memory.write_wf b (by omega) h)

theorem Memory.place_read_below : ∀ (m : Memory) {base a : Nat} (data : List Byte), a < base →
    (m.place base data).read a = m.read a
  | _, _, _, [], _ => rfl
  | m, base, a, b :: bs, h => by
    rw [Memory.place, Memory.place_read_below (m.write base b) bs (by omega), Memory.read_write_other _ _ (by omega)]

theorem Memory.place_read_above : ∀ (m : Memory) {base a : Nat} (data : List Byte), base + data.length ≤ a →
    (m.place base data).read a = m.read a
  | _, _, _, [], _ => rfl
  | m, base, a, b :: bs, h => by
    rw [List.length_cons] at h
    rw [Memory.place, Memory.place_read_above (m.write base b) bs (by omega), Memory.read_write_other _ _ (by omega)]

/-- Each byte placed reads back at its offset. -/
theorem Memory.place_read : ∀ {m : Memory} {base : Nat} (data : List Byte), base + data.length ≤ imageSpace →
    m.wf = true → ∀ k, k < data.length → (m.place base data).read (base + k) = data.getD k 0#8
  | _, _, [], _, _, k, hk => by simp at hk
  | m, base, b :: bs, hb, h, k, hk => by
    rw [List.length_cons] at hb hk
    have hw := Memory.write_wf (m := m) (a := base) b (by omega) h
    cases k with
    | zero =>
      rw [Memory.place, Memory.place_read_below _ bs (by omega)]
      exact Memory.read_write_same base b h
    | succ k =>
      have := Memory.place_read (m := m.write base b) (base := base + 1) bs (by omega) hw k (by omega)
      rw [Memory.place, show base + (k + 1) = base + 1 + k by omega, this]
      rfl

/-- The image memory of the reset state is in canonical form. -/
theorem reset_img_wf : State.reset.img.wf = true := rfl

end Sys2Proof.Machine
end

