-- ==== Sys2Proof/Laws/PerInstr.lean ====
section
/-! SUPPORT. A family of facts about the instruction as syntax, one lemma per constructor: its code fixes its row. Words
that begin with the code of an instruction decode to nothing but instructions of the same row (R60, R65, R86). -/
namespace Sys2Proof.Laws.CodeFixesRow
open Sys2Proof

/-- Whatever follows the code of `i`, an instruction decoded from it has the code of `i`. -/
def Statement (i : Instr) : Prop :=
  ∀ (w rest : List Byte) (j : Instr), decode (i.codeBytes ++ w) = .ok (j, rest) → j.codeBytes = i.codeBytes

/-- An operand read before the rest of an instruction does not change its code. -/
theorem code_of_bind {α : Type} {x : Except DecodeError (α × List Byte)}
    {f : α × List Byte → Except DecodeError (Instr × List Byte)} {code : List Byte} {r : Instr × List Byte}
    (h : (x >>= f) = .ok r) (hf : ∀ p q, f p = .ok q → q.1.codeBytes = code) : r.1.codeBytes = code := by
  cases x with
  | error e => cases h
  | ok p => exact hf p r h

theorem decode_cons (tag : Byte) (w : List Byte) : decode (tag :: w) = decodeFrom tag w := rfl

theorem decode_marker (m : Byte) (w : List Byte) : decode (0xFF#8 :: m :: w) = decodeMarker m w := rfl

theorem configure : Statement (.configure) := by
  intro w rest j h
  simp only [Instr.codeBytes, List.cons_append, List.nil_append, decode_cons, decodeFrom, BitVec.reduceEq, reduceIte] at h
  cases h
  rfl

theorem encode : Statement (.encode) := by
  intro w rest j h
  simp only [Instr.codeBytes, List.cons_append, List.nil_append, decode_cons, decodeFrom, BitVec.reduceEq, reduceIte] at h
  cases h
  rfl

theorem sinkByte : ∀ b, Statement (.sinkByte b) := by
  intro b w rest j h
  simp only [Instr.codeBytes, List.cons_append, List.nil_append, decode_cons, decodeFrom, decodeCoding, decodeBuilding, BitVec.reduceEq, reduceIte,
    BitVec.reduceToNat, Nat.reduceLT] at h
  refine code_of_bind h fun _ _ h => ?_
  cases h
  rfl

theorem writeBits : ∀ code n, Statement (.writeBits code n) := by
  intro code n w rest j h
  simp only [Instr.codeBytes, List.cons_append, List.nil_append, decode_cons, decodeFrom, decodeCoding, decodeBuilding, BitVec.reduceEq, reduceIte,
    BitVec.reduceToNat, Nat.reduceLT] at h
  refine code_of_bind h fun _ _ h => ?_
  refine code_of_bind h fun _ _ h => ?_
  cases h
  rfl

theorem padByte : Statement (.padByte) := by
  intro w rest j h
  simp only [Instr.codeBytes, List.cons_append, List.nil_append, decode_cons, decodeFrom, decodeCoding, decodeBuilding, BitVec.reduceEq, reduceIte,
    BitVec.reduceToNat, Nat.reduceLT] at h
  cases h
  rfl

theorem writeSegment : ∀ m d, Statement (.writeSegment m d) := by
  intro m d w rest j h
  simp only [Instr.codeBytes, List.cons_append, List.nil_append, decode_cons, decodeFrom, decodeCoding, decodeBuilding, BitVec.reduceEq, reduceIte,
    BitVec.reduceToNat, Nat.reduceLT] at h
  refine code_of_bind h fun _ _ h => ?_
  refine code_of_bind h fun _ _ h => ?_
  cases h
  rfl

theorem buildHuffLut : ∀ bits vals, Statement (.buildHuffLut bits vals) := by
  intro bits vals w rest j h
  simp only [Instr.codeBytes, List.cons_append, List.nil_append, decode_cons, decodeFrom, decodeCoding, decodeBuilding, BitVec.reduceEq, reduceIte,
    BitVec.reduceToNat, Nat.reduceLT] at h
  refine code_of_bind h fun _ _ h => ?_
  refine code_of_bind h fun _ _ h => ?_
  cases h
  rfl

theorem huffmanEncode : ∀ sym t, Statement (.huffmanEncode sym t) := by
  intro sym t w rest j h
  simp only [Instr.codeBytes, List.cons_append, List.nil_append, decode_cons, decodeFrom, decodeCoding, decodeBuilding, BitVec.reduceEq, reduceIte,
    BitVec.reduceToNat, Nat.reduceLT] at h
  refine code_of_bind h fun _ _ h => ?_
  refine code_of_bind h fun _ _ h => ?_
  cases h
  rfl

theorem magCategory : ∀ v, Statement (.magCategory v) := by
  intro v w rest j h
  simp only [Instr.codeBytes, List.cons_append, List.nil_append, decode_cons, decodeFrom, decodeCoding, decodeBuilding, BitVec.reduceEq, reduceIte,
    BitVec.reduceToNat, Nat.reduceLT] at h
  refine code_of_bind h fun _ _ h => ?_
  cases h
  rfl

theorem writeBlock : ∀ block prev td ta, Statement (.writeBlock block prev td ta) := by
  intro block prev td ta w rest j h
  simp only [Instr.codeBytes, List.cons_append, List.nil_append, decode_cons, decodeFrom, decodeCoding, decodeBuilding, BitVec.reduceEq, reduceIte,
    BitVec.reduceToNat, Nat.reduceLT] at h
  refine code_of_bind h fun _ _ h => ?_
  refine code_of_bind h fun _ _ h => ?_
  refine code_of_bind h fun _ _ h => ?_
  refine code_of_bind h fun _ _ h => ?_
  cases h
  rfl

theorem sampleBlock : ∀ x0 y0, Statement (.sampleBlock x0 y0) := by
  intro x0 y0 w rest j h
  simp only [Instr.codeBytes, List.cons_append, List.nil_append, decode_cons, decodeFrom, decodeCoding, decodeBuilding, BitVec.reduceEq, reduceIte,
    BitVec.reduceToNat, Nat.reduceLT] at h
  refine code_of_bind h fun _ _ h => ?_
  refine code_of_bind h fun _ _ h => ?_
  cases h
  rfl

theorem colorTransform : ∀ r g b, Statement (.colorTransform r g b) := by
  intro r g b w rest j h
  simp only [Instr.codeBytes, List.cons_append, List.nil_append, decode_cons, decodeFrom, decodeCoding, decodeBuilding, BitVec.reduceEq, reduceIte,
    BitVec.reduceToNat, Nat.reduceLT] at h
  refine code_of_bind h fun _ _ h => ?_
  refine code_of_bind h fun _ _ h => ?_
  refine code_of_bind h fun _ _ h => ?_
  cases h
  rfl

theorem fdct : ∀ samp, Statement (.fdct samp) := by
  intro samp w rest j h
  simp only [Instr.codeBytes, List.cons_append, List.nil_append, decode_cons, decodeFrom, decodeCoding, decodeBuilding, BitVec.reduceEq, reduceIte,
    BitVec.reduceToNat, Nat.reduceLT] at h
  refine code_of_bind h fun _ _ h => ?_
  cases h
  rfl

theorem buildQtable : ∀ std quality, Statement (.buildQtable std quality) := by
  intro std quality w rest j h
  simp only [Instr.codeBytes, List.cons_append, List.nil_append, decode_cons, decodeFrom, decodeCoding, decodeBuilding, BitVec.reduceEq, reduceIte,
    BitVec.reduceToNat, Nat.reduceLT] at h
  refine code_of_bind h fun _ _ h => ?_
  refine code_of_bind h fun _ _ h => ?_
  cases h
  rfl

theorem quantize : ∀ raw table, Statement (.quantize raw table) := by
  intro raw table w rest j h
  simp only [Instr.codeBytes, List.cons_append, List.nil_append, decode_cons, decodeFrom, decodeCoding, decodeBuilding, BitVec.reduceEq, reduceIte,
    BitVec.reduceToNat, Nat.reduceLT] at h
  refine code_of_bind h fun _ _ h => ?_
  refine code_of_bind h fun _ _ h => ?_
  cases h
  rfl

theorem buildApp0 : Statement (.buildApp0) := by
  intro w rest j h
  simp only [Instr.codeBytes, List.cons_append, List.nil_append, decode_cons, decodeFrom, decodeCoding, decodeBuilding, BitVec.reduceEq, reduceIte,
    BitVec.reduceToNat, Nat.reduceLT] at h
  cases h
  rfl

theorem buildSof0 : ∀ h w n, Statement (.buildSof0 h w n) := by
  intro h w n w rest j h
  simp only [Instr.codeBytes, List.cons_append, List.nil_append, decode_cons, decodeFrom, decodeCoding, decodeBuilding, BitVec.reduceEq, reduceIte,
    BitVec.reduceToNat, Nat.reduceLT] at h
  refine code_of_bind h fun _ _ h => ?_
  refine code_of_bind h fun _ _ h => ?_
  refine code_of_bind h fun _ _ h => ?_
  cases h
  rfl

theorem buildDqt : ∀ tq table, Statement (.buildDqt tq table) := by
  intro tq table w rest j h
  simp only [Instr.codeBytes, List.cons_append, List.nil_append, decode_cons, decodeFrom, decodeCoding, decodeBuilding, BitVec.reduceEq, reduceIte,
    BitVec.reduceToNat, Nat.reduceLT] at h
  refine code_of_bind h fun _ _ h => ?_
  refine code_of_bind h fun _ _ h => ?_
  cases h
  rfl

theorem buildDht : ∀ cls dest bits vals, Statement (.buildDht cls dest bits vals) := by
  intro cls dest bits vals w rest j h
  simp only [Instr.codeBytes, List.cons_append, List.nil_append, decode_cons, decodeFrom, decodeCoding, decodeBuilding, BitVec.reduceEq, reduceIte,
    BitVec.reduceToNat, Nat.reduceLT] at h
  refine code_of_bind h fun _ _ h => ?_
  refine code_of_bind h fun _ _ h => ?_
  refine code_of_bind h fun _ _ h => ?_
  refine code_of_bind h fun _ _ h => ?_
  cases h
  rfl

theorem buildSos : ∀ n, Statement (.buildSos n) := by
  intro n w rest j h
  simp only [Instr.codeBytes, List.cons_append, List.nil_append, decode_cons, decodeFrom, decodeCoding, decodeBuilding, BitVec.reduceEq, reduceIte,
    BitVec.reduceToNat, Nat.reduceLT] at h
  refine code_of_bind h fun _ _ h => ?_
  cases h
  rfl

theorem soi : Statement (.soi) := by
  intro w rest j h
  simp only [Instr.codeBytes, List.cons_append, List.nil_append, decode_marker, decodeMarker, BitVec.reduceEq, reduceIte] at h
  cases h
  rfl

theorem app0 : Statement (.app0) := by
  intro w rest j h
  simp only [Instr.codeBytes, List.cons_append, List.nil_append, decode_marker, decodeMarker, BitVec.reduceEq, reduceIte] at h
  cases h
  rfl

theorem sof0 : Statement (.sof0) := by
  intro w rest j h
  simp only [Instr.codeBytes, List.cons_append, List.nil_append, decode_marker, decodeMarker, BitVec.reduceEq, reduceIte] at h
  cases h
  rfl

theorem dqt : ∀ s, Statement (.dqt s) := by
  intro s w rest j h
  simp only [Instr.codeBytes, List.cons_append, List.nil_append, decode_marker, decodeMarker, BitVec.reduceEq, reduceIte] at h
  refine code_of_bind h fun _ _ h => ?_
  cases h
  rfl

theorem dht : ∀ cls dest, Statement (.dht cls dest) := by
  intro cls dest w rest j h
  simp only [Instr.codeBytes, List.cons_append, List.nil_append, decode_marker, decodeMarker, BitVec.reduceEq, reduceIte] at h
  refine code_of_bind h fun _ _ h => ?_
  refine code_of_bind h fun _ _ h => ?_
  cases h
  rfl

theorem sos : Statement (.sos) := by
  intro w rest j h
  simp only [Instr.codeBytes, List.cons_append, List.nil_append, decode_marker, decodeMarker, BitVec.reduceEq, reduceIte] at h
  cases h
  rfl

theorem eoi : Statement (.eoi) := by
  intro w rest j h
  simp only [Instr.codeBytes, List.cons_append, List.nil_append, decode_marker, decodeMarker, BitVec.reduceEq, reduceIte] at h
  cases h
  rfl

theorem eob : ∀ ta, Statement (.eob ta) := by
  intro ta w rest j h
  simp only [Instr.codeBytes, List.cons_append, List.nil_append, decode_cons, decodeFrom, BitVec.reduceEq, reduceIte] at h
  refine code_of_bind h fun _ _ h => ?_
  cases h
  rfl

theorem zrl : ∀ ta, Statement (.zrl ta) := by
  intro ta w rest j h
  simp only [Instr.codeBytes, List.cons_append, List.nil_append, decode_cons, decodeFrom, BitVec.reduceEq, reduceIte] at h
  refine code_of_bind h fun _ _ h => ?_
  cases h
  rfl

end Sys2Proof.Laws.CodeFixesRow
end

