-- ==== Sys2Proof/Laws/Ready.lean ====
section
/-! SUPPORT. From at most 7 pending bits behind a clean accumulator every operation that sends leaves the same, or a sink
failure cut it (R16, R97 (g), R97 (h), R212). -/
namespace Sys2Proof.Machine
open Sys2Proof

/-! ### The sink's answers an operation used -/

theorem SinkAccepts.add {m n : Nat} {s t : State} (h : SinkAccepts m s) (ht : t.sinkAnswers = s.sinkAnswers.drop m)
    (h' : SinkAccepts n t) : SinkAccepts (m + n) s := by
  intro a ha
  rw [List.take_add, List.mem_append] at ha
  rw [SinkAccepts, ht] at h'
  exact ha.elim (h a) (h' a)

theorem SinkFailsAfter.add {m n : Nat} {s t : State} (h : SinkAccepts m s) (ht : t.sinkAnswers = s.sinkAnswers.drop m)
    (h' : SinkFailsAfter n t) : SinkFailsAfter (m + n) s :=
  ⟨h.add ht h'.1, by rw [← List.getElem?_drop, ← ht]; exact h'.2⟩

/-- `t` has used `m` answers of the sink of `s`, all of them ok. -/
abbrev Accepted (m : Nat) (s t : State) : Prop := SinkAccepts m s ∧ t.sinkAnswers = s.sinkAnswers.drop m

/-- The last answer `t` has used of the sink of `s` is a failure, the only one. -/
abbrev Failed (s t : State) : Prop := ∃ k, SinkFailsAfter k s ∧ t.sinkAnswers = s.sinkAnswers.drop (k + 1)

theorem Accepted.refl (s : State) : Accepted 0 s s := ⟨fun _ ha => by simp at ha, by simp⟩

theorem Accepted.trans {m n : Nat} {s t u : State} (h : Accepted m s t) (h' : Accepted n t u) : Accepted (m + n) s u :=
  ⟨h.1.add h.2 h'.1, by rw [h'.2, h.2, List.drop_drop]⟩

theorem Accepted.failed {m : Nat} {s t u : State} (h : Accepted m s t) (h' : Failed t u) : Failed s u := by
  obtain ⟨k, hk, hu⟩ := h'
  exact ⟨m + k, hk.add h.1 h.2, by rw [hu, h.2, List.drop_drop, Nat.add_assoc]⟩

/-- An operation whose only error is a failing write: it has used accepting answers, or raised at the failing one. -/
inductive Answered {α : Type} (s : State) : Run α → Prop
  | done (v : α) {t : State} {m : Nat} (h : Accepted m s t) : Answered s (.done v t)
  | raised {t : State} (h : Failed s t) (err : t.err = .sinkWriteFailure) (idle : t.busy = false) : Answered s (.raised t)

theorem Answered.pure {α : Type} (v : α) {s t : State} (h : t.sinkAnswers = s.sinkAnswers) : Answered s (.done v t) :=
  .done v (m := 0) ⟨fun _ ha => by simp at ha, by simp [h]⟩

theorem Answered.bind {α β : Type} {s : State} {m : Run α} {k : α → State → Run β} (hm : Answered s m)
    (hk : ∀ v t, Answered t (k v t)) : Answered s (m.bind k) := by
  cases hm with
  | done v h =>
    rw [Run.bind_done]
    generalize hr : k v _ = r
    have hr := hr ▸ hk v _
    cases hr with
    | done w h' => exact .done w (h.trans h')
    | raised h' e b => exact .raised (h.failed h') e b
  | raised h e b => exact .raised h e b

theorem sinkByte_answered (b : Byte) (s : State) : Answered s (sinkByte b s) := by
  unfold sinkByte
  split
  · exact .pure () rfl
  · rename_i as h
    exact .done () (m := 1) ⟨fun a ha => by simpa [h] using ha, by simp [h]⟩
  · rename_i as h
    exact .raised ⟨0, ⟨fun _ ha => by simp at ha, by simp [h]⟩, by simp [h]⟩ rfl rfl

theorem flushByte_answered (s : State) : Answered s (flushByte s) := by
  refine (sinkByte_answered _ s).bind fun _ t => Answered.bind ?_ fun _ u => .pure () rfl
  split
  · exact sinkByte_answered _ t
  · exact .pure () rfl

theorem flushLoop_answered : ∀ (n : Nat) (s : State), Answered s (flushLoop n s)
  | 0, _ => .pure () rfl
  | n + 1, s => by
    unfold flushLoop
    split
    · exact .pure () rfl
    · exact (flushByte_answered s).bind fun _ t => flushLoop_answered n t

theorem writeBits_answered (c : BitVec 16) (n : Nat) (s : State) : Answered s (writeBits c n s) := by
  unfold writeBits
  split
  · exact .pure () rfl
  · have h := flushLoop_answered (s.nbits + n) { s with acc := mergeBits s.acc s.nbits c n, nbits := s.nbits + n }
    dsimp only
    generalize flushLoop _ _ = r at h
    cases h with
    | done v h => exact .done v h
    | raised h e b => exact .raised h e b

/-! ### How an operation that began with the packer ready has ended -/

/-- It has finished with the packer ready, or raised: then too at most 7 bits are pending, unless a write of its own
failed. -/
inductive ReadyRun {α : Type} (s : State) : Run α → Prop
  | done (v : α) {t : State} {m : Nat} (h : PackerReady t) (used : Accepted m s t) : ReadyRun s (.done v t)
  | raised {t : State} (clean : AccClean t) (idle : t.busy = false)
      (bits : t.nbits ≤ 7 ∨ (t.err = .sinkWriteFailure ∧ Failed s t)) : ReadyRun s (.raised t)

theorem ReadyRun.pure {α : Type} (v : α) {s : State} (h : PackerReady s) : ReadyRun s (.done v s) :=
  .done v h (Accepted.refl s)

theorem ReadyRun.bind {α β : Type} {s : State} {m : Run α} {k : α → State → Run β} (hm : ReadyRun s m)
    (hk : ∀ v t, PackerReady t → ReadyRun t (k v t)) : ReadyRun s (m.bind k) := by
  cases hm with
  | done v h used =>
    rw [Run.bind_done]
    generalize hr : k v _ = r
    have hr := hr ▸ hk v _ h
    cases hr with
    | done w h' used' => exact .done w h' (used.trans used')
    | raised a b c => exact .raised a b (c.imp id fun d => ⟨d.1, used.failed d.2⟩)
  | raised a b c => exact .raised a b c

theorem ReadyRun.forEach {α : Type} {f : α → State → Run Unit} : ∀ (as : List α),
    (∀ a ∈ as, ∀ t, PackerReady t → ReadyRun t (f a t)) → ∀ s, PackerReady s → ReadyRun s (forEach f as s)
  | [], _, _, h => .pure () h
  | a :: as, hf, s, h =>
    ReadyRun.bind (hf a (by simp) s h) (fun _ t g => ReadyRun.forEach as (fun b hb => hf b (by simp [hb])) t g)

/-! ### The operations -/

theorem writeBits_ready (c : BitVec 16) (n : Nat) {s : State} (h : PackerReady s) : ReadyRun s (writeBits c n s) := by
  have hc := writeBits_clean c n h.2
  have ha := writeBits_answered c n s
  cases hr : writeBits c n s with
  | done v t =>
    rw [hr] at hc ha
    cases ha with
    | done _ used => exact .done v ⟨writeBits_nbits h.1 hr, hc⟩ used
  | raised t =>
    rw [hr] at hc ha
    cases ha with
    | raised hf e b => exact .raised hc b (.inr ⟨e, hf⟩)

theorem huffmanEncode_ready (sym : Byte) (t : HuffTable) {s : State} (h : PackerReady s) :
    ReadyRun s (huffmanEncode sym t s) := by
  unfold huffmanEncode
  dsimp only
  split
  · exact .raised h.2 rfl (.inl h.1)
  · exact writeBits_ready _ _ h

theorem writeValue_ready (sym : Byte) (t : HuffTable) (v : Int) {s : State} (h : PackerReady s) :
    ReadyRun s (writeValue sym t v s) :=
  (huffmanEncode_ready sym t h).bind fun _ _ g => writeBits_ready _ _ g

theorem writeAc_ready (ta : TableSet) (run : Nat) (v : Int) {s : State} (h : PackerReady s) :
    ReadyRun s (writeAc ta run v s) := by
  refine ReadyRun.bind (ReadyRun.forEach _ (fun _ _ t g => huffmanEncode_ready _ _ g) s h) fun _ t g => ?_
  split
  · exact .raised g.2 rfl (.inl g.1)
  · exact writeValue_ready _ _ v g

theorem scanAc_ready (ta : TableSet) : ∀ (vs : List Coef) (run : Nat) {s : State}, PackerReady s →
    ReadyRun s (scanAc ta vs run s)
  | [], run, s, h => by
    unfold scanAc
    split
    · exact huffmanEncode_ready _ _ h
    · exact .pure () h
  | v :: vs, run, s, h => by
    unfold scanAc
    split
    · exact scanAc_ready ta vs (run + 1) h
    · exact (writeAc_ready ta run _ h).bind fun _ _ g => scanAc_ready ta vs 0 g

theorem writeBlock_ready (block : Block Coef) (prev : Coef) (td ta : TableSet) {s : State} (h : PackerReady s) :
    ReadyRun s (writeBlock block prev td ta s) :=
  (writeValue_ready _ _ _ h).bind fun _ _ g => (scanAc_ready ta _ 0 g).bind fun _ _ f => .pure _ f

theorem sinkByte_ready (b : Byte) {s : State} (h : PackerReady s) : ReadyRun s (sinkByte b s) := by
  have ha := sinkByte_acc b s
  have hc : AccClean (sinkByte b s).last := by
    rw [AccClean, ha.1, ha.2]
    exact h.2
  have hn : (sinkByte b s).last.nbits ≤ 7 := by
    rw [ha.2]
    exact h.1
  have hs := sinkByte_answered b s
  cases hr : sinkByte b s with
  | done v t =>
    rw [hr] at hc hn hs
    cases hs with
    | done _ used => exact .done v ⟨hn, hc⟩ used
  | raised t =>
    rw [hr] at hc hn hs
    cases hs with
    | raised _ _ b => exact .raised hc b (.inl hn)

theorem writeSegment_ready (m : Byte) (d : Option (List Byte)) {s : State} (h : PackerReady s) :
    ReadyRun s (writeSegment m d s) := ReadyRun.forEach _ (fun b _ _ g => sinkByte_ready b g) s h

theorem dhtData_ready (cls : TableClass) (dest : TableSet) (bits : Counts) (vals : List Byte) {s : State}
    (h : PackerReady s) : ReadyRun s (dhtData cls dest bits vals s) := by
  unfold dhtData
  split
  · exact .raised h.2 rfl (.inl h.1)
  · exact .pure _ h

theorem emitDht_ready (cls : TableClass) (dest : TableSet) {s : State} (h : PackerReady s) :
    ReadyRun s (emitDht cls dest s) :=
  (dhtData_ready cls dest _ _ h).bind fun _ _ g => writeSegment_ready _ _ g

end Sys2Proof.Machine
end

