-- ==== Sys2Proof/Laws/Step.lean ====
section
/-! SUPPORT. Everything one step can do: the cases of an input and of the sequencer. -/
namespace Sys2Proof.Machine
open Sys2Proof

/-! ### The sequencer -/

/-- The sequencer issues internal operations only (R94). -/
theorem seqInstr_internal {s : State} {i : Instr} (h : seqInstr s = some i) : i ≠ .configure ∧ i ≠ .encode := by
  unfold seqInstr at h
  split at h
  · cases h
  · have hm := List.mem_of_getElem? h
    unfold headerPlan at hm
    constructor <;> (rintro rfl; split at hm <;> simp at hm)
  all_goals cases h <;> exact ⟨by simp, by simp⟩

/-- An operation that is not begun starts where the machine stands. -/
@[simp] theorem opStart_of_sent_zero {s : State} (h : s.sent = 0) : opStart s = s := by
  cases s
  simp_all [opStart]

/-- The operation in progress has one beginning, wherever between two writes the machine stands. -/
theorem opStart_oneByteOn {s t : State} (h : s.out.length < t.out.length) : opStart (oneByteOn s t) = opStart s := by
  have hl : ((t.out.drop s.out.length).take 1).length = 1 := by
    rw [List.length_take, List.length_drop]
    omega
  have hn : s.out.length + 1 - (s.sent + 1) = s.out.length - s.sent := by omega
  simp only [opStart, oneByteOn, List.length_append, hl, hn]
  rw [List.take_append_of_le_length (by omega)]

/-- Behind a state that only appended stands that state. -/
theorem behind_of_prefix {s t : State} {bs : List Byte} (h : t.out = s.out ++ bs) : behind s t = t := by
  cases t
  simp_all [behind]

/-- Moving on writes the sequencer's own state and the predictors, and nothing of the packer, the sink or the error. -/
theorem advance_frame (s : State) :
    (advance s).acc = s.acc ∧ (advance s).nbits = s.nbits ∧ (advance s).out = s.out ∧ (advance s).sent = s.sent ∧
      (advance s).sinkAnswers = s.sinkAnswers ∧ (advance s).err = s.err ∧ (advance s).fatal = s.fatal := by
  have hp : ∀ s : State, (nextPosition s).acc = s.acc ∧ (nextPosition s).nbits = s.nbits ∧ (nextPosition s).out = s.out ∧
      (nextPosition s).sent = s.sent ∧ (nextPosition s).sinkAnswers = s.sinkAnswers ∧ (nextPosition s).err = s.err ∧
      (nextPosition s).fatal = s.fatal := by
    intro s
    unfold nextPosition
    split
    · simp
    · split <;> simp
  have hb : ∀ s : State, (afterBlock s).acc = s.acc ∧ (afterBlock s).nbits = s.nbits ∧ (afterBlock s).out = s.out ∧
      (afterBlock s).sent = s.sent ∧ (afterBlock s).sinkAnswers = s.sinkAnswers ∧ (afterBlock s).err = s.err ∧
      (afterBlock s).fatal = s.fatal := by
    intro s
    unfold afterBlock
    split
    · simp
    · exact hp s
  unfold advance
  split
  · simp
  · split <;> simp
  · split <;> simp
  · simp
  · simp
  · simp
  · rw [(hb _).1, (hb _).2.1, (hb _).2.2.1, (hb _).2.2.2.1, (hb _).2.2.2.2.1, (hb _).2.2.2.2.2.1, (hb _).2.2.2.2.2.2]
    unfold storePred
    split <;> simp
  · simp
  · simp

@[simp] theorem moveOn_out (s : State) : (moveOn s).out = s.out := by
  unfold moveOn
  split
  · exact (advance_frame s).2.2.1
  · rfl

/-- The sequencer rests, moves on without an operation, or runs one. -/
theorem sequencer_cases {s t : State} (h : sequencer s = .next t) :
    (s.busy = false ∧ t = s) ∨ (s.busy = true ∧ seqInstr s = none ∧ t = advance s) ∨
    (s.busy = true ∧ ∃ i u, seqInstr s = some i ∧ exec i (opStart s) = .next u ∧ t = moveOn (behind s u)) := by
  unfold sequencer at h
  split at h
  · rename_i hb
    split at h
    · rename_i hi
      exact .inr (.inl ⟨hb, hi, (Host.Outcome.next.inj h).symm⟩)
    · rename_i i hi
      split at h
      · rename_i u hu
        exact .inr (.inr ⟨hb, i, u, hi, hu, (Host.Outcome.next.inj h).symm⟩)
      · cases h
      · cases h
  · rename_i hb
    exact .inl ⟨by simpa using hb, (Host.Outcome.next.inj h).symm⟩

/-- The finer step ends the operation, or puts one byte of it in the sink. -/
theorem untilSinkWrite_cases {s t : State} (h : untilSinkWrite s = .next t) :
    ∃ u, sequencer s = .next u ∧ ((answersLeft s u ≤ 1 ∧ t = u) ∨ (1 < answersLeft s u ∧ t = oneByteOn s u)) := by
  unfold untilSinkWrite at h
  split at h
  · rename_i u hu
    have h := (Host.Outcome.next.inj h).symm
    split at h
    · exact ⟨u, hu, .inl ⟨‹_›, h⟩⟩
    · exact ⟨u, hu, .inr ⟨by omega, h⟩⟩
  · cases h
  · cases h

/-! ### Steps -/

/-- The state with its next input used up. -/
abbrev afterInput (es : List Event) (s : State) : State := { s with input := es }

/-- A step serves one input, or, with none pending, runs the sequencer. -/
theorem step_cases {s t : State} (h : step s = .next t) :
    (∃ u, (s.input = [] ∧ u = s ∨ ∃ es, s.input = .tick :: es ∧ u = afterInput es s) ∧ sequencer u = .next t) ∨
    (∃ es, s.input = .sinkWrite :: es ∧ untilSinkWrite (afterInput es s) = .next t) ∨
    (∃ w es, s.input = .write w :: es ∧ t = hostWrite w (afterInput es s)) ∨
    (∃ r es, s.input = .read r :: es ∧ t = { afterInput es s with lastRead := readReg r (afterInput es s) }) ∨
    (∃ base data es, s.input = .place base data :: es ∧ s.busy = false ∧ base + data.length ≤ imageSpace ∧
      t = { afterInput es s with img := s.img.place base data }) ∨
    (∃ n es, s.input = .reset n :: es ∧ t = resetBlock n (afterInput es s)) ∨
    (∃ w i rest es, s.input = .issue w :: es ∧ decode w = .ok (i, rest) ∧
      (s.busy = true → i = .configure ∨ i = .encode) ∧ exec i (afterInput es s) = .next t) := by
  unfold step serveNext at h
  split at h
  · rename_i hi
    exact .inl ⟨s, .inl ⟨hi, rfl⟩, h⟩
  · rename_i e es hi
    cases e with
    | tick => exact .inl ⟨_, .inr ⟨es, hi, rfl⟩, h⟩
    | sinkWrite => exact .inr (.inl ⟨es, hi, h⟩)
    | write w => exact .inr (.inr (.inl ⟨w, es, hi, (Host.Outcome.next.inj h).symm⟩))
    | read r => exact .inr (.inr (.inr (.inl ⟨r, es, hi, (Host.Outcome.next.inj h).symm⟩)))
    | place base data =>
      simp only [serve, placeImage] at h
      split at h
      · cases h
      · rename_i hb
        split at h
        · rename_i hl
          exact .inr (.inr (.inr (.inr (.inl
            ⟨base, data, es, hi, by simpa using hb, hl, (Host.Outcome.next.inj h).symm⟩))))
        · cases h
    | reset n => exact .inr (.inr (.inr (.inr (.inr (.inl ⟨n, es, hi, (Host.Outcome.next.inj h).symm⟩)))))
    | issue w =>
      simp only [serve, issueWord] at h
      split at h
      · rename_i i rest hd
        split at h
        · cases h
        · rename_i hb
          refine .inr (.inr (.inr (.inr (.inr (.inr ⟨w, i, rest, es, hi, hd, fun hs => ?_, h⟩)))))
          by_contra hc
          exact hb ⟨hs, fun hi => hc (.inl hi), fun hi => hc (.inr hi)⟩
      · cases h

/-! ### Commands -/

/-- What becomes of a command. -/
theorem commandVerdict_cases (k : BitVec 8) (s : State) :
    (commandVerdict k s = .ignored ∧ s.busy = true) ∨
    (commandVerdict k s = .locked ∧ s.busy = false ∧ s.fatal = true) ∨
    (∃ e, commandVerdict k s = .refused e ∧ s.busy = false ∧ s.fatal = false ∧ e ≠ .none) ∨
    (commandVerdict k s = .accepted ∧ s.busy = false ∧ s.fatal = false ∧
      (k = 0x01#8 ∨ k = 0x02#8 ∧ s.cfgValid = true ∧
        (s.params.strictLen = true → frameBytes s ≤ s.srcLen.toNat) ∧
        (s.width ≠ 0#16 → s.height ≠ 0#16 → s.srcLen ≠ 0#36))) := by
  unfold commandVerdict
  split
  · rename_i hb
    exact .inl ⟨rfl, hb⟩
  · rename_i hb
    have hb : s.busy = false := by simpa using hb
    split
    · rename_i hf
      exact .inr (.inl ⟨rfl, hb, hf⟩)
    · rename_i hf
      have hf : s.fatal = false := by simpa using hf
      split
      · rename_i hk
        exact .inr (.inr (.inr ⟨rfl, hb, hf, .inl hk⟩))
      · split
        · rename_i hk
          split
          · exact .inr (.inr (.inl ⟨_, rfl, hb, hf, by simp⟩))
          · rename_i hc
            split
            · exact .inr (.inr (.inl ⟨_, rfl, hb, hf, by simp⟩))
            · rename_i hl
              split
              · exact .inr (.inr (.inl ⟨_, rfl, hb, hf, by simp⟩))
              · rename_i he
                refine .inr (.inr (.inr ⟨rfl, hb, hf, .inr ⟨hk, by simpa using hc, ?_, ?_⟩⟩))
                · intro hs
                  simpa [hs] using hl
                · exact fun hw hh hz => he ⟨hz, hw, hh⟩
        · exact .inr (.inr (.inl ⟨_, rfl, hb, hf, by simp⟩))

end Sys2Proof.Machine
end

