-- ==== Sys2Proof/Tests/Slice0.lean ====
section
/-! SUPPORT. Tests of the model against the spec, and a witness for the hypotheses of every statement. Expected values
come from spec/95_test_vectors.md (the vector is named) and from the encodings of spec/30_encoding.md. -/
namespace Sys2Proof.Tests
open Sys2Proof Sys2Proof.Machine

set_option Elab.async false

/-! ### Helpers -/

def bytes (l : List Nat) : List Byte := l.map (BitVec.ofNat 8)

/-- The state an instruction reaches, or the state itself where it stops. -/
def ran (i : Instr) (s : State) : State :=
  match exec i s with
  | .next t => t
  | .fault _ => s
  | .refused _ => s

def stepped (s : State) : State :=
  match step s with
  | .next t => t
  | .fault _ => s
  | .refused _ => s

def isNext : Host.Outcome State Fault Refusal → Bool
  | .next _ => true
  | .fault _ => false
  | .refused _ => false

def refusalOf : Host.Outcome State Fault Refusal → Option Refusal
  | .next _ => none
  | .fault _ => none
  | .refused r => some r

def faultOf : Host.Outcome State Fault Refusal → Option Fault
  | .next _ => none
  | .fault f => some f
  | .refused _ => none

def lutOf : OpResult → List LutEntry
  | .lut l => l
  | _ => []

def bytesOf : OpResult → List Byte
  | .bytes d => d
  | .table t => t.toList
  | _ => []

def decoded (w : List Nat) : Option (Instr × List Byte) :=
  match decode (bytes w) with
  | .ok r => some r
  | .error _ => none

def rejected (w : List Nat) : Option DecodeError :=
  match decode (bytes w) with
  | .ok _ => none
  | .error e => some e

/-- A block with one value at one natural position and another elsewhere. -/
def blockWith (i : Nat) (v d : Coef) : Block Coef := Fixed.ofFn 64 (fun k => if k = i then v else d)

def flat (b : Byte) : Block Byte := Fixed.ofFn 64 (fun _ => b)

def noCoefs : Block Coef := Fixed.ofFn 64 (fun _ => 0#32)

/-- Program P1: a gray frame of one pixel, value 200, at quality 50, configured. -/
def p1 : State :=
  { State.reset with
    quality := 50#8, width := 1#16, height := 1#16, mode := 2#2, srcLen := 1#36, img := ⟨[(0, 0xC8#8)]⟩, cfgValid := true,
    qt := ⟨stdQ .luma, stdQ .chroma⟩ }

/-- `p1` with an encode begun. -/
def p1Busy : State := encodeStart p1

/-! ### WellFormed: each check refuses an ill-formed term -/

theorem test_wf_segment (n : Nat) (hn : n = 65534) : (Instr.writeSegment 0xFE#8 (some (List.replicate n 0#8))).wf = false := by
  simp [Instr.wf, segmentDataOk]
  omega

theorem test_wf_segment_longest (n : Nat) (hn : n = 65533) : (Instr.writeSegment 0xFE#8 (some (List.replicate n 0#8))).wf = true := by
  simp [Instr.wf, segmentDataOk]
  omega

theorem test_wf_lut_symbols (n : Nat) (hn : n = 65536) : (Instr.buildHuffLut (counts []) (List.replicate n 0#8)).wf = false := by
  simp [Instr.wf, symbolListOk]
  omega

theorem test_wf_dht_symbols (n : Nat) (hn : n = 65536) : (Instr.buildDht .dc .luma (counts []) (List.replicate n 0#8)).wf = false := by
  simp [Instr.wf, symbolListOk]
  omega

theorem test_wf_mag : (Instr.magCategory (2 ^ 39)).wf = false ∧ (Instr.magCategory (-(2 ^ 39) - 1)).wf = false := by decide

theorem test_wf_origin : (Instr.sampleBlock 65536 0).wf = false ∧ (Instr.sampleBlock 0 65536).wf = false := by decide

/-! ### Decoding: one word for every constructor, from R60, R65 and R86; operand bytes by log 1 -/

theorem test_decode_commands : decoded [0x01] = some (.configure, []) ∧ decoded [0x02] = some (.encode, []) := by
  decide +kernel

theorem test_decode_packer :
    decoded [0x10, 0xAB] = some (.sinkByte 0xAB#8, []) ∧
    decoded [0x11, 0x12, 0x34, 0x10, 0x99] = some (.writeBits 0x1234#16 16, [0x99#8]) ∧
    decoded [0x12] = some (.padByte, []) ∧
    decoded [0x13, 0xD8, 0x00] = some (.writeSegment 0xD8#8 none, []) ∧
    decoded [0x13, 0xFE, 0x01, 0x00, 0x02, 0xAA, 0xBB] = some (.writeSegment 0xFE#8 (some [0xAA#8, 0xBB#8]), []) := by
  decide +kernel

theorem test_decode_coder :
    decoded ([0x20] ++ (List.range 16) ++ [0x00, 0x01, 0x77]) =
      some (.buildHuffLut (counts (List.range 16)) [0x77#8], []) ∧
    decoded [0x21, 0xF0, 0x03] = some (.huffmanEncode 0xF0#8 .acChroma, []) ∧
    decoded [0x22, 0xFF, 0xFF, 0xFF, 0xFF, 0xFE] = some (.magCategory (-2), []) ∧
    decoded ([0x23, 0xFF, 0xFF, 0xFF, 0xF9] ++ List.replicate 252 0 ++ [0x00, 0x00, 0x01, 0x02, 0x00, 0x01]) =
      some (.writeBlock (blockWith 0 (BitVec.ofInt 32 (-7)) 0#32) 258#32 .luma .chroma, []) := by decide +kernel

theorem test_decode_sampler :
    decoded [0x30, 0x00, 0x08, 0xFF, 0xF8] = some (.sampleBlock 8 65528, []) ∧
    decoded [0x31, 0x01, 0x02, 0x03] = some (.colorTransform 1#8 2#8 3#8, []) := by decide +kernel

theorem test_decode_quantizer :
    decoded ([0x40] ++ List.range 64) = some (.fdct (byteBlock (List.range 64)), []) ∧
    decoded ([0x41] ++ List.range 64 ++ [0x4B]) = some (.buildQtable (byteBlock (List.range 64)) 75#8, []) ∧
    decoded ([0x42, 0x00, 0x00, 0x12, 0x00] ++ List.replicate 252 0 ++ List.range 64) =
      some (.quantize (blockWith 0 4608#32 0#32) (byteBlock (List.range 64)), []) := by decide +kernel

theorem test_decode_builders :
    decoded [0x50] = some (.buildApp0, []) ∧
    decoded [0x51, 0x01, 0x02, 0x03, 0x04, 0x01] = some (.buildSof0 0x0102#16 0x0304#16 .three, []) ∧
    decoded ([0x52, 0x01] ++ List.range 64) = some (.buildDqt .chroma (byteBlock (List.range 64)), []) ∧
    decoded ([0x53, 0x01, 0x00] ++ List.range 16 ++ [0x00, 0x00]) =
      some (.buildDht .ac .luma (counts (List.range 16)) [], []) ∧
    decoded [0x54, 0x00] = some (.buildSos .one, []) := by decide +kernel

theorem test_decode_markers :
    decoded [0xFF, 0xD8] = some (.soi, []) ∧ decoded [0xFF, 0xE0] = some (.app0, []) ∧
    decoded [0xFF, 0xC0] = some (.sof0, []) ∧ decoded [0xFF, 0xDB, 0x01] = some (.dqt .chroma, []) ∧
    decoded [0xFF, 0xC4, 0x01, 0x00] = some (.dht .ac .luma, []) ∧ decoded [0xFF, 0xDA] = some (.sos, []) ∧
    decoded [0xFF, 0xD9] = some (.eoi, []) := by decide +kernel

theorem test_decode_symbols :
    decoded [0x00, 0x01] = some (.eob .chroma, []) ∧ decoded [0xF0, 0x00] = some (.zrl .luma, []) := by decide +kernel

/-- R87, R97 (c), R100 (b): what the decoder refuses, each by its name. -/
theorem test_decode_rejects :
    rejected [] = some .truncated ∧ rejected [0x03] = some (.unknownTag 0x03#8) ∧
    rejected [0xFF, 0xD0] = some (.unknownMarker 0xD0#8) ∧ rejected [0xF0, 0x02] = some (.badSelector 0x02#8) ∧
    rejected [0x11, 0x00, 0x00, 0x11] = some (.lengthAbove16 0x11#8) := by decide +kernel

/-- R110, R123: every value of MAG_CATEGORY and every origin of SAMPLE_BLOCK is an operand (log 26, log 30). -/
theorem test_decode_every_value :
    decoded [0x22, 0x7F, 0xFF, 0xFF, 0xFF, 0xFF] = some (.magCategory (2 ^ 39 - 1), []) ∧
    decoded [0x22, 0x80, 0x00, 0x00, 0x00, 0x00] = some (.magCategory (-(2 ^ 39)), []) ∧
    decoded [0x30, 0x00, 0x04, 0xFF, 0xFF] = some (.sampleBlock 4 65535, []) := by decide +kernel

/-- A table word is issued as the next step's input. -/
theorem test_fetch_word : stepped (State.reset.withFetchWord 16 0xFFD8) = ran .soi State.reset := by decide +kernel

/-! ### Bit packer (vectors 2.1) -/

theorem test_sink_byte : (ran (.sinkByte 0xFF#8) State.reset).out = [0xFF#8] := by decide +kernel

theorem test_sink_byte_fails :
    let t := ran (.sinkByte 0x55#8) { p1Busy with sinkAnswers := [.fail] }
    t.out = [] ∧ t.err = .sinkWriteFailure ∧ t.busy = false ∧ t.fatal = false := by decide +kernel

/-- BP10. -/
theorem test_write_bits_widest :
    let t := ran (.writeBits 0xFFFF#16 16) (ran (.writeBits 0x7F#16 7) State.reset)
    t.out = bytes [0xFF, 0x00, 0xFF, 0x00] ∧ t.acc = 0xFE000000#32 ∧ t.nbits = 7 := by decide +kernel

/-- BP7, BP14. -/
theorem test_write_bits_order :
    let t := ran (.writeBits 0b100100#16 6) (ran (.writeBits 0b1110#16 4) State.reset)
    t.out = [0xE9#8] ∧ t.nbits = 2 ∧ (ran (.writeBits 0xFFFF#16 3) State.reset).acc = 0xE0000000#32 := by decide +kernel

/-- PB0, PB5. -/
theorem test_pad_byte :
    let t := ran .padByte (ran (.writeBits 0#16 5) State.reset)
    t.out = [0x07#8] ∧ t.nbits = 4 ∧ t.acc = 0xF0000000#32 ∧ (ran .padByte State.reset).out = [] ∧
      (ran .padByte State.reset).nbits = 7 := by decide +kernel

theorem test_write_segment :
    (ran (.writeSegment 0xDA#8 (some (bytes [0x01, 0x01, 0x00, 0x00, 0x3F, 0x00]))) State.reset).out =
      bytes [0xFF, 0xDA, 0x00, 0x08, 0x01, 0x01, 0x00, 0x00, 0x3F, 0x00] ∧
    (ran (.writeSegment 0xFE#8 (some [])) State.reset).out = bytes [0xFF, 0xFE, 0x00, 0x02] := by decide +kernel

theorem test_write_segment_too_long (n : Nat) (hn : n = 65534) :
    refusalOf (exec (.writeSegment 0xFE#8 (some (List.replicate n 0#8))) State.reset) =
      some (.segmentTooLong n) := by
  simp [exec, execWriteSegment, segmentDataOk, refusalOf, show ¬ n ≤ 65533 by omega]

/-! ### Coefficient coder (vectors 2.2 to 2.4) -/

/-- R82: entry 6 of DC_LUMA is `1110`; symbol 12 has no code. -/
theorem test_build_huff_lut :
    let l := lutOf (ran (.buildHuffLut (huffBits .dcLuma) (huffVals .dcLuma)) State.reset).result
    l.getD 6 noCode = ⟨4, 0b1110#16⟩ ∧ l.getD 12 ⟨0, 0#16⟩ = ⟨17, 0#16⟩ ∧ l.length = 256 := by decide +kernel

/-- Symbol `F1` in AC_LUMA: `1111111111110101`. -/
theorem test_huffman_encode : (ran (.huffmanEncode 0xF1#8 .acLuma) State.reset).out = bytes [0xFF, 0x00, 0xF5] := by
  decide +kernel

theorem test_huffman_encode_no_code :
    let t := ran (.huffmanEncode 0x0B#8 .acLuma) p1Busy
    t.err = .huffmanLengthError ∧ t.fatal = true ∧ t.busy = false ∧ t.nbits = 0 ∧ t.out = [] := by decide +kernel

theorem test_mag_category :
    (ran (.magCategory (-8)) State.reset).result = .magnitude 4 0b0111 ∧
    (ran (.magCategory 32768) State.reset).result = .magnitude 16 32768 ∧
    (ran (.magCategory (-2047)) State.reset).result = .magnitude 11 0 ∧
    (ran (.magCategory (2 ^ 32)) State.reset).result = .magnitude 33 (2 ^ 32) ∧
    (ran (.magCategory 0) State.reset).result = .magnitude 0 0 := by decide +kernel

/-- WB1. -/
def wb1 : Block Coef :=
  Fixed.ofFn 64 (fun i =>
    if i = 0 then 5#32 else if i = 1 then BitVec.ofInt 32 (-1) else if i = 33 then 3#32
    else if i = 63 then BitVec.ofInt 32 (-2) else 0#32)

theorem test_write_block_wb1 :
    let t := ran (.writeBlock wb1 3#32 .luma .luma) State.reset
    t.out = bytes [0x70, 0xFF, 0x00, 0x3B, 0xFF, 0x00, 0xCF, 0xF9, 0xFF, 0x00, 0xD0] ∧ pend t = [false, true] ∧
      t.result = .coef 5#32 := by decide +kernel

/-- WB3. -/
def wb3 : Block Coef :=
  Fixed.ofFn 64 (fun i =>
    if i = 0 then BitVec.ofInt 32 (-7) else if i = 1 then 1#32 else if i = 8 then BitVec.ofInt 32 (-3)
    else if i = 2 then 1023#32 else if i = 3 then BitVec.ofInt 32 (-1023) else 0#32)

theorem test_write_block_wb3 :
    let t := ran (.writeBlock wb3 10#32 .chroma .chroma) State.reset
    t.out = bytes [0xF3, 0x9C, 0x3F, 0xE4, 0x3F, 0xFF, 0x00, 0xF4, 0x00] ∧ pend t = [false, false, false, false] ∧
      t.result = .coef (BitVec.ofInt 32 (-7)) := by decide +kernel

/-- WB10: the two DC bits are sent, and then symbol `0B` has no code. -/
theorem test_write_block_wb10 :
    let t := ran (.writeBlock (blockWith 1 1024#32 0#32) 0#32 .luma .luma) State.reset
    t.err = .huffmanLengthError ∧ t.fatal = true ∧ pend t = [false, false] := by decide +kernel

theorem test_eob_zrl :
    pend (ran (.eob .luma) State.reset) = [true, false, true, false] ∧
    (ran (.zrl .luma) State.reset).out = [0xFF#8, 0x00#8] ∧ pend (ran (.zrl .luma) State.reset) = [false, false, true] ∧
    (ran (.zrl .chroma) State.reset).out = [0xFE#8] := by decide +kernel

/-! ### Sampler and colour transform (vectors 2.5, 2.6) -/

/-- SA1: rows wrap, and past the data the last byte repeats. -/
theorem test_sample_block_sa1 :
    let s := { State.reset with
      width := 3#16, height := 2#16, mode := 2#2, srcLen := 6#36, img := Memory.place ⟨[]⟩ 0 (bytes [10, 20, 30, 40, 50, 60]) }
    (ran (.sampleBlock 0 0) s).samp.y.toList.take 19 =
      bytes [10, 20, 30, 40, 50, 60, 60, 60, 40, 50, 60, 60, 60, 60, 60, 60, 60, 60, 60] := by decide +kernel

/-- R121, R122 by hand, at an origin that is no multiple of 8: offset 4, and from offset 6 on the last byte. -/
theorem test_sample_block_any_origin :
    let s := { State.reset with
      width := 3#16, height := 2#16, mode := 2#2, srcLen := 6#36, img := Memory.place ⟨[]⟩ 0 (bytes [10, 20, 30, 40, 50, 60]) }
    (ran (.sampleBlock 1 1) s).samp.y.toList.take 3 = bytes [50, 60, 60] := by decide +kernel

/-- SA4. -/
theorem test_sample_block_sa4 :
    let s := { State.reset with
      width := 1#16, height := 1#16, mode := 1#2, srcLen := 4#36, img := Memory.place ⟨[]⟩ 0 (bytes [9, 8, 7, 255]) }
    let t := (ran (.sampleBlock 0 0) s).samp
    t.y.toList.take 2 = bytes [8, 255] ∧ t.cb.toList.take 2 = bytes [127, 128] ∧ t.cr.toList.take 2 = bytes [128, 128] := by
  decide +kernel

theorem test_color_exact :
    (ran (.colorTransform 255#8 0#8 0#8) State.reset).result = .ycc 76#8 84#8 255#8 ∧
    (ran (.colorTransform 8#8 80#8 32#8) State.reset).result = .ycc 53#8 116#8 95#8 := by decide +kernel

theorem test_color_binary32 :
    let s := { State.reset with params := { Params.default with colorArith := .binary32 } }
    (ran (.colorTransform 8#8 80#8 32#8) s).result = .ycc 52#8 116#8 95#8 ∧
    (ran (.colorTransform 200#8 200#8 200#8) s).result = .ycc 200#8 128#8 127#8 := by decide +kernel

/-! ### Transform and quantiser (vectors 2.7 to 2.9) -/

theorem test_fdct_contract_constant :
    let t := ran (.fdct (flat 200#8)) State.reset
    (t.raw.getD 0 0#32).toInt = 4608 ∧ t.raw.toList.tail.all (· == 0#32) = true := by decide +kernel

/-- FD1. -/
theorem test_fdct_reference :
    let s := { State.reset with params := { Params.default with fdct := .reference } }
    let t := ran (.fdct (Fixed.ofFn 64 (fun i => if i = 0 then 255#8 else 0#8))) s
    (t.raw.toList.take 10).map BitVec.toInt = [-7937, 354, 333, 300, 255, 200, 138, 70, 354, 491] := by decide +kernel

/-- QT1. -/
theorem test_build_qtable :
    (bytesOf (ran (.buildQtable (stdQ .luma) 49#8) State.reset).result).take 8 = bytes [16, 11, 10, 16, 24, 41, 52, 62] ∧
    (bytesOf (ran (.buildQtable (stdQ .chroma) 0#8) State.reset).result).take 2 = bytes [255, 255] := by decide +kernel

theorem test_quantize_trunc :
    let raw := Fixed.ofFn 64 (fun i => BitVec.ofInt 32 ([60, -7, 64, -64, 1020, -12].getD i 0))
    let table := Fixed.ofFn 64 (fun i => BitVec.ofNat 8 ([5, 1, 16, 16, 255, 2].getD i 1))
    ((ran (.quantize raw table) State.reset).q.toList.take 6).map BitVec.toInt = [1, 0, 1, -1, 0, -1] := by decide +kernel

theorem test_quantize_real :
    let s := { State.reset with params := { Params.default with div8Mode := .real } }
    let raw := Fixed.ofFn 64 (fun i => BitVec.ofInt 32 ([60, -7, 64, -64, 1020, -12].getD i 0))
    let table := Fixed.ofFn 64 (fun i => BitVec.ofNat 8 ([5, 1, 16, 16, 255, 2].getD i 1))
    ((ran (.quantize raw table) s).q.toList.take 6).map BitVec.toInt = [2, -1, 1, -1, 1, -1] := by decide +kernel

/-! ### Segments (vectors 2.10) -/

/-- SG1. -/
theorem test_build_app0 : (ran .buildApp0 State.reset).result =
    .bytes (bytes [0x4A, 0x46, 0x49, 0x46, 0x00, 0x01, 0x02, 0x00, 0x00, 0x01, 0x00, 0x01, 0x00, 0x00]) := by decide +kernel

/-- SG2: the height first. -/
theorem test_build_sof0 : (ran (.buildSof0 0x0102#16 0x0304#16 .one) State.reset).result =
    .bytes (bytes [0x08, 0x01, 0x02, 0x03, 0x04, 0x01, 0x01, 0x11, 0x00]) := by decide +kernel

/-- SG5. -/
theorem test_build_dqt :
    let d := bytesOf (ran (.buildDqt .luma (stdQ .luma)) State.reset).result
    d.take 12 = bytes [0x00, 0x10, 0x0B, 0x0C, 0x0E, 0x0C, 0x0A, 0x10, 0x0E, 0x0D, 0x0E, 0x12] ∧ d.length = 65 := by
  decide +kernel

/-- SG3. -/
theorem test_build_dht :
    let d := bytesOf (ran (.buildDht .dc .chroma (huffBits .dcChroma) (huffVals .dcChroma)) State.reset).result
    d.take 8 = bytes [0x01, 0x00, 0x03, 0x01, 0x01, 0x01, 0x01, 0x01] ∧ d.length = 29 := by decide +kernel

theorem test_build_dht_mismatch :
    let t := ran (.buildDht .dc .luma (counts [0, 1]) []) p1Busy
    t.err = .dhtCountMismatch ∧ t.fatal = true ∧ t.busy = false := by decide +kernel

/-- SG4. -/
theorem test_build_sos : (ran (.buildSos .three) State.reset).result =
    .bytes (bytes [0x03, 0x01, 0x00, 0x02, 0x11, 0x03, 0x11, 0x00, 0x3F, 0x00]) := by decide +kernel

theorem test_markers_fixed :
    (ran .soi State.reset).out = bytes [0xFF, 0xD8] ∧ (ran .eoi State.reset).out = bytes [0xFF, 0xD9] ∧
    (ran .app0 State.reset).out.take 6 = bytes [0xFF, 0xE0, 0x00, 0x10, 0x4A, 0x46] := by decide +kernel

theorem test_markers_frame :
    (ran .sof0 p1).out = bytes [0xFF, 0xC0, 0x00, 0x0B, 0x08, 0x00, 0x01, 0x00, 0x01, 0x01, 0x01, 0x11, 0x00] ∧
    (ran .sos p1).out = bytes [0xFF, 0xDA, 0x00, 0x08, 0x01, 0x01, 0x00, 0x00, 0x3F, 0x00] := by decide +kernel

theorem test_markers_tables :
    (ran (.dqt .luma) p1).out.take 8 = bytes [0xFF, 0xDB, 0x00, 0x43, 0x00, 0x10, 0x0B, 0x0C] ∧
    (ran (.dht .ac .chroma) p1).out.take 7 = bytes [0xFF, 0xC4, 0x00, 0xB5, 0x11, 0x00, 0x02] ∧
    (ran (.dht .ac .chroma) p1).out.length = 183 := by decide +kernel

/-! ### Commands (Part 3) -/

/-- QT2, P1: CONFIGURE. -/
theorem test_configure :
    let t := ran .configure { State.reset with quality := 75#8 }
    t.qt.luma.toList.take 8 = bytes [8, 6, 5, 8, 12, 20, 26, 31] ∧
      t.qt.chroma.toList.take 5 = bytes [9, 9, 12, 24, 50] ∧ statusWord t = 0x002#9 := by decide +kernel

/-- P1. -/
theorem test_encode_p1 :
    let t := ran .encode p1
    t.out.length = 332 ∧ t.out.drop 328 = bytes [0xE9, 0x2B, 0xFF, 0xD9] ∧ statusWord t = 0x00E#9 ∧ t.acc = 0xF8000000#32 ∧
      t.nbits = 5 ∧ t.pred.y = 36#32 := by decide +kernel

/-- R184, R185: refusals write `err` and nothing else. -/
theorem test_encode_refused :
    ran .encode State.reset = { State.reset with err := .notConfigured } ∧
    ran .encode { p1 with srcLen := 0#36 } = { p1 with srcLen := 0#36, err := .emptyBuffer } := by decide +kernel

/-! ### Witnesses: for every statement with hypotheses, a state and operands that meet them -/

theorem stdQ_nonzero (set : TableSet) : ∀ b ∈ (stdQ set).toList, b ≠ 0#8 := by
  have h : (stdQ set).toList.all (fun b => b != 0#8) = true := by cases set <;> decide +kernel
  simpa using h

theorem tables_p1 : TablesNonzero p1 := ⟨stdQ_nonzero .luma, stdQ_nonzero .chroma⟩

theorem inv_p1Busy : Inv p1Busy where
  accClean := by decide
  nbitsBusy := by decide
  busyReady := by decide
  tables := fun _ => tables_p1
  fatalErr := by decide
  imgWf := by decide
  position := by decide
  phaseOk := by decide
  inFrame := by decide
  compInUse := by decide
  sentOk := by decide
  hasImage := by decide

/-- A fatal error recorded in an idle, configured block. -/
def locked : State := { p1 with fatal := true, err := .huffmanLengthError }

/-- `p1Busy` standing at WRITE_BLOCK of its only block. -/
def atWriteBlock : State := { p1Busy with phase := .scanningBlocks, seq := .writeBlock, q := blockWith 0 36#32 0#32 }

/-- The sequencer is cut after one byte of SOI. -/
theorem witness_ResetInputRestoresResetValues :
    let s := { p1Busy with input := [.reset 1] }
    s.input = .reset 1 :: [] ∧ sequencer { s with input := [] } = .next (stepped p1Busy) ∧
      (stepped p1Busy).out = s.out ++ [0xFF#8, 0xD8#8] := ⟨rfl, rfl, by decide +kernel⟩

theorem witness_EveryStepKeepsInvariant : Inv p1Busy ∧ step p1Busy = .next (stepped p1Busy) ∧ stepped p1Busy ≠ p1Busy :=
  ⟨inv_p1Busy, rfl, by decide +kernel⟩

theorem witness_SinkIsAppendOnly : step p1Busy = .next (stepped p1Busy) ∧ (stepped p1Busy).out ≠ p1Busy.out :=
  ⟨rfl, by decide +kernel⟩

theorem witness_InstructionsNeverWriteHostState : exec .encode p1 = .next (ran .encode p1) := rfl

theorem witness_OnlyConfigureWritesTables : Instr.soi ≠ .configure ∧ exec .soi p1 = .next (ran .soi p1) := ⟨by decide, rfl⟩

theorem witness_OnlyEncodeWritesPredictorsAndPosition :
    Instr.padByte ≠ .encode ∧ exec .padByte p1 = .next (ran .padByte p1) := ⟨by decide, rfl⟩

theorem witness_AccumulatorWrittenOnlyThroughWriteBits :
    exec .sos p1 = .next (ran .sos p1) ∧ Instr.sos ≠ .encode ∧ Instr.sos ≠ .padByte ∧
    (∀ code n, Instr.sos ≠ .writeBits code n) ∧ (∀ sym tb, Instr.sos ≠ .huffmanEncode sym tb) ∧
    (∀ ta, Instr.sos ≠ .eob ta) ∧ (∀ ta, Instr.sos ≠ .zrl ta) ∧ (∀ b p td ta, Instr.sos ≠ .writeBlock b p td ta) :=
  ⟨rfl, by simp, by simp, by simp, by simp, by simp, by simp, by simp⟩

theorem witness_OnlyResetClearsFatalAndConfigured :
    let s := { locked with input := [.write (.cmd 0x01#8)] }
    (∀ n es, s.input ≠ .reset n :: es) ∧ step s = .next (stepped s) ∧ s.fatal = true ∧ s.cfgValid = true :=
  ⟨by simp, rfl, rfl, rfl⟩

/-- Both ways an internal operation ends. -/
theorem witness_InternalOperationsRaiseOrLeaveFlags :
    Instr.soi ≠ .configure ∧ Instr.soi ≠ .encode ∧ exec .soi p1Busy = .next (ran .soi p1Busy) ∧
    (ran .soi p1Busy).busy = true ∧
    (let s := { p1Busy with sinkAnswers := [.fail] };
      exec .soi s = .next (ran .soi s) ∧ (ran .soi s).err = .sinkWriteFailure) :=
  ⟨by decide, by decide, rfl, by decide +kernel, rfl, by decide +kernel⟩

/-- Seven pending bits, the most. -/
def sevenPending : State := { p1 with acc := 0xFE000000#32, nbits := 7 }

theorem sevenPending_ready : PackerReady sevenPending := by decide

theorem witness_PackerStaysReadyUnlessSinkFails : PackerReady sevenPending ∧
    exec (.writeBits 0xFFFF#16 16) sevenPending = .next (ran (.writeBits 0xFFFF#16 16) sevenPending) ∧
    (let s := { sevenPending with sinkAnswers := [.ok, .fail] };
      PackerReady s ∧ exec (.writeBits 0xFFFF#16 16) s = .next (ran (.writeBits 0xFFFF#16 16) s) ∧
      (ran (.writeBits 0xFFFF#16 16) s).nbits = 23 ∧ SinkFailsAfter 1 s) :=
  ⟨sevenPending_ready, rfl, by decide, rfl, by decide +kernel, by decide⟩

theorem witness_DecodeOfEncodeIsInstruction :
    (Instr.sampleBlock 65535 4).wf = true ∧ (Instr.magCategory (2 ^ 39 - 1)).wf = true ∧
    (Instr.magCategory (-(2 ^ 39))).wf = true ∧
    (Instr.writeSegment 0xFE#8 (some [])).wf = true := by decide

theorem witness_DecodedWordIsItsEncoding : decode [0x10#8, 0xAB#8, 0xCD#8] = .ok (.sinkByte 0xAB#8, [0xCD#8]) := rfl

/-- The idle block; a busy one with a command and with an internal operation. -/
theorem witness_StepRunsDecodedInstruction :
    ({ p1 with input := [.issue [0x12#8]] }.input = .issue [0x12#8] :: [] ∧ decode [0x12#8] = .ok (.padByte, []) ∧
      p1.busy = false) ∧
    ({ p1Busy with input := [.issue [0x02#8]] }.input = .issue [0x02#8] :: [] ∧ decode [0x02#8] = .ok (.encode, []) ∧
      p1Busy.busy = true) ∧
    ({ p1Busy with input := [.issue [0x12#8]] }.input = .issue [0x12#8] :: [] ∧ Instr.padByte ≠ .configure ∧
      Instr.padByte ≠ .encode) := ⟨⟨rfl, rfl, rfl⟩, ⟨rfl, rfl, rfl⟩, rfl, by decide, by decide⟩

/-- An operation from outside during an encode is refused (U18); the same word runs on the idle block. -/
theorem test_issue_while_busy :
    step { p1Busy with input := [.issue [0x12#8]] } = .refused .operationIssuedWhileBusy := rfl

/-- Between the two bytes of SOI. -/
def midSoi : State := stepped { p1Busy with input := [.sinkWrite] }

/-- R174: there the sink has the first byte, and the host reads busy = 1 and phase Start; the second byte ends SOI, by
either kind of step, and a write that fails there ends the encode. -/
theorem test_between_sink_writes :
    midSoi.out = [0xFF#8] ∧ statusWord midSoi = 0x003#9 ∧
    (stepped { midSoi with input := [.read .status] }).lastRead = 0x003#36 ∧
    stepped midSoi = stepped p1Busy ∧ stepped { midSoi with input := [.sinkWrite] } = stepped p1Busy ∧
    (let t := stepped { midSoi with sinkAnswers := [.ok, .fail], input := [.sinkWrite] };
      t.out = [0xFF#8] ∧ t.err = .sinkWriteFailure ∧ t.busy = false ∧ t.sent = 0) := by decide +kernel

/-- R174: `phase` changes with the last byte of SOS and with the last byte of EOI, and not before. -/
theorem test_phase_at_last_byte :
    let sos := fun k => stepped { p1Busy with
      seq := .header 6, sent := k, out := (bytes [0xFF, 0xDA, 0, 8, 1, 1, 0, 0, 0x3F, 0]).take k, input := [.sinkWrite] }
    let eoi := fun k => stepped { p1Busy with
      phase := .scanningBlocks, seq := .eoi, sent := k, out := [0xFF#8].take k, input := [.sinkWrite] }
    (sos 8).phase = .start ∧ (sos 9).phase = .headersWritten ∧ (sos 9).out.length = 10 ∧
    ((eoi 0).phase = .scanningBlocks ∧ (eoi 0).busy = true) ∧
    ((eoi 1).phase = .finalized ∧ (eoi 1).busy = false ∧ (eoi 1).out = bytes [0xFF, 0xD9]) := by decide +kernel

/-- R202 between two sink writes: one more byte of SOI is taken, and none. -/
theorem test_reset_between_sink_writes :
    (stepped { midSoi with input := [.reset 1] }).out = bytes [0xFF, 0xD8] ∧
    (stepped { midSoi with input := [.reset 0] }).out = [0xFF#8] ∧
    (stepped { midSoi with input := [.reset 0] }).sent = 0 := by decide +kernel

/-- Each clause; the last one at two answers to come, and at one, where the byte is accepted and where it is not. -/
theorem witness_StepRunsSequencerOperation :
    p1Busy.input = [] ∧ p1Busy.busy = true ∧ p1Busy.sent = 0 ∧ seqInstr p1Busy = some .soi ∧ exec .soi p1Busy = .next (ran .soi p1Busy) ∧
    p1.busy = false ∧ p1.input = [] ∧ { p1 with input := [.tick] }.input = .tick :: [] ∧
    (let s := { p1Busy with input := [.write (.quality 1#8)] };
      s.busy = true ∧ s.input = .write (.quality 1#8) :: [] ∧ Event.write (.quality 1#8) ≠ .tick ∧
      Event.write (.quality 1#8) ≠ .sinkWrite ∧
      (∀ n, Event.write (.quality 1#8) ≠ .reset n) ∧ step s = .next (stepped s)) ∧
    ({ p1Busy with input := [.sinkWrite] }.input = .sinkWrite :: [] ∧ sequencer p1Busy = .next (stepped p1Busy) ∧
      (stepped p1Busy).out.length - p1Busy.out.length = 2) ∧
    ({ midSoi with input := [.sinkWrite] }.input = .sinkWrite :: [] ∧ sequencer midSoi = .next (stepped midSoi) ∧
      (stepped midSoi).out.length - midSoi.out.length = 1 ∧ (stepped midSoi).busy = true) ∧
    (let s := { midSoi with sinkAnswers := [.ok, .fail] };
      sequencer s = .next (stepped s) ∧ (stepped s).out = s.out ∧ (stepped s).busy = false ∧
      (stepped s).err = .sinkWriteFailure) :=
  ⟨rfl, rfl, rfl, rfl, rfl, rfl, rfl, rfl, ⟨rfl, rfl, by decide, by decide, by simp, rfl⟩,
    ⟨rfl, rfl, by decide +kernel⟩, ⟨rfl, rfl, by decide +kernel, by decide +kernel⟩, rfl, by decide +kernel⟩

theorem witness_CommandWriteRunsCommand :
    { p1 with input := [.write (.cmd 0x01#8)] }.input = .write (.cmd 0x01#8) :: [] ∧
    { p1 with input := [.write (.cmd 0x02#8)] }.input = .write (.cmd 0x02#8) :: [] ∧
    EncodeAccepted { p1 with input := [.write (.cmd 0x02#8)] } ∧
    ¬ EncodeAccepted { locked with input := [.write (.cmd 0x02#8)] } := ⟨rfl, rfl, by decide, by decide⟩

/-- Both clauses: the block is coded; a write fails after its first byte is due. -/
theorem witness_PredictorFollowsCodedBlock :
    atWriteBlock.input = [] ∧ atWriteBlock.busy = true ∧ atWriteBlock.seq = .writeBlock ∧
    step atWriteBlock = .next (stepped atWriteBlock) ∧ (stepped atWriteBlock).busy = true ∧
    (let s := { atWriteBlock with sinkAnswers := [.fail] };
      s.input = [] ∧ s.busy = true ∧ s.seq = .writeBlock ∧ step s = .next (stepped s) ∧ (stepped s).busy = false) :=
  ⟨rfl, rfl, rfl, rfl, by decide +kernel, rfl, rfl, rfl, rfl, by decide +kernel⟩

theorem witness_WritesWhileBusyAreIgnored :
    p1Busy.busy = true ∧ { p1Busy with input := [.write (.cmd 2#8)] }.input = .write (.cmd 2#8) :: [] ∧
    { p1Busy with input := [.read .status] }.input = .read .status :: [] := ⟨rfl, rfl, rfl⟩

theorem witness_RegisterWritesTakeEffect :
    p1.busy = false ∧
    { p1 with input := [.write (.quality 255#8)] }.input = .write (.quality 255#8) :: [] ∧
    { p1 with input := [.write (.width 0xFFFF#16)] }.input = .write (.width 0xFFFF#16) :: [] ∧
    { p1 with input := [.write (.height 0#16)] }.input = .write (.height 0#16) :: [] ∧
    { p1 with input := [.write (.mode 3#2)] }.input = .write (.mode 3#2) :: [] ∧
    { p1 with input := [.write (.srcLen 0xFFFFFFFFF#36)] }.input = .write (.srcLen 0xFFFFFFFFF#36) :: [] ∧
    { p1 with input := [.write (.status 0x1FF#9)] }.input = .write (.status 0x1FF#9) :: [] :=
  ⟨rfl, rfl, rfl, rfl, rfl, rfl, rfl⟩

theorem witness_RegisterReadsHaveNoEffect :
    { p1 with input := [.read .status] }.input = .read .status :: [] ∧
    { p1 with input := [.read .cmd] }.input = .read .cmd :: [] := ⟨rfl, rfl⟩

theorem witness_FatalErrorLocksCommands :
    locked.busy = false ∧ locked.fatal = true ∧
    { locked with input := [.write (.cmd 0x02#8)] }.input = .write (.cmd 0x02#8) :: [] ∧
    { locked with input := [.write (.quality 9#8)] }.input = .write (.quality 9#8) :: [] ∧
    { locked with input := [.write (.width 9#16)] }.input = .write (.width 9#16) :: [] ∧
    { locked with input := [.write (.height 9#16)] }.input = .write (.height 9#16) :: [] ∧
    { locked with input := [.write (.mode 1#2)] }.input = .write (.mode 1#2) :: [] ∧
    { locked with input := [.write (.srcLen 9#36)] }.input = .write (.srcLen 9#36) :: [] :=
  ⟨rfl, rfl, rfl, rfl, rfl, rfl, rfl, rfl⟩

/-- The values next to the two commands. -/
theorem witness_IllegalCommandRecordsItsCode :
    p1.busy = false ∧ p1.fatal = false ∧ 0x00#8 ≠ 0x01#8 ∧ 0x00#8 ≠ 0x02#8 ∧ 0x03#8 ≠ 0x01#8 ∧ 0x03#8 ≠ 0x02#8 ∧
    { p1 with input := [.write (.cmd 0x03#8)] }.input = .write (.cmd 0x03#8) :: [] := by decide

/-- Each clause; with `STRICT_LEN` the buffer is one byte short, and at its exact length the encode is accepted; without
it a buffer of 1 byte for a frame of 9 is. -/
theorem witness_EncodeRefusalsInOrder :
    (State.reset.busy = false ∧ State.reset.fatal = false ∧ State.reset.cfgValid = false) ∧
    (let s := { p1 with width := 2#16, params := { Params.default with strictLen := true } };
      s.busy = false ∧ s.fatal = false ∧ s.cfgValid = true ∧ s.params.strictLen = true ∧
      s.srcLen.toNat < s.width.toNat * s.height.toNat * bpp s.colorMode) ∧
    EncodeAccepted { p1 with params := { Params.default with strictLen := true } } ∧
    (let s := { p1 with srcLen := 0#36 };
      s.busy = false ∧ s.fatal = false ∧ s.cfgValid = true ∧ s.params.strictLen = false ∧ s.srcLen = 0#36 ∧
      s.width ≠ 0#16 ∧ s.height ≠ 0#16) ∧
    (let s := { p1 with width := 9#16, input := [.write (.cmd 0x02#8)] };
      s.busy = false ∧ s.fatal = false ∧ s.cfgValid = true ∧ s.params.strictLen = false ∧ s.srcLen ≠ 0#36 ∧
      s.srcLen.toNat < s.width.toNat * s.height.toNat * bpp s.colorMode ∧
      s.input = .write (.cmd 0x02#8) :: []) := by decide

/-- Each clause: busy; one byte past the space; the last byte of the space, and an offset below it. -/
theorem witness_ImagePlacementIsExact :
    (p1Busy.img.wf = true ∧ p1Busy.busy = true ∧
      { p1Busy with input := [.place 0 [1#8]] }.input = .place 0 [1#8] :: []) ∧
    (p1.img.wf = true ∧ p1.busy = false ∧ 2 ^ 36 < 2 ^ 36 + [1#8].length ∧
      { p1 with input := [.place (2 ^ 36) [1#8]] }.input = .place (2 ^ 36) [1#8] :: []) ∧
    ((2 ^ 36 - 1) + [1#8].length ≤ 2 ^ 36 ∧ 0 < [1#8].length ∧ 0 < 2 ^ 36 - 1 ∧
      { p1 with input := [.place (2 ^ 36 - 1) [1#8]] }.input = .place (2 ^ 36 - 1) [1#8] :: []) :=
  ⟨⟨rfl, rfl, rfl⟩, ⟨rfl, rfl, by decide, rfl⟩, by decide, by decide, by decide, rfl⟩

theorem witness_ConfigureBuildsBothTables : p1.busy = false ∧ p1.fatal = false := ⟨rfl, rfl⟩

theorem witness_SinkByteAppendsOrRaises :
    SinkAccepts 1 { p1 with sinkAnswers := [.ok, .fail] } ∧
    { p1 with sinkAnswers := [.fail] }.sinkAnswers = .fail :: [] := ⟨by decide, rfl⟩

/-- The widest case, BP10: four writes, and the fifth may fail. -/
theorem witness_WriteBitsAppendsToPendingBits :
    let s := { sevenPending with sinkAnswers := [.ok, .ok, .ok, .ok, .fail] }
    PackerReady s ∧ SinkAcceptsBits (bitsOf 16 (0xFFFF#16).toNat) s := by decide +kernel

/-- The failing write is the first `FF`, the stuffing byte behind it, and the last one of four. -/
theorem witness_WriteBitsCut :
    SinkCutsBits (bitsOf 16 (0xFFFF#16).toNat) 0 { sevenPending with sinkAnswers := [.fail] } ∧
    SinkCutsBits (bitsOf 16 (0xFFFF#16).toNat) 1 { sevenPending with sinkAnswers := [.ok, .fail] } ∧
    SinkCutsBits (bitsOf 16 (0xFFFF#16).toNat) 3 { sevenPending with sinkAnswers := [.ok, .ok, .ok, .fail] } := by
  decide +kernel

/-- R97 (f), R97 (g), by hand: 23 ones pending, `FF` accepted and its `00` refused; all 23 bits stay. -/
theorem test_write_bits_cut :
    let t := ran (.writeBits 0xFFFF#16 16) { sevenPending with sinkAnswers := [.ok, .fail] }
    t.out = sevenPending.out ++ [0xFF#8] ∧ t.acc = 0xFFFFFE00#32 ∧ t.nbits = 23 ∧ t.err = .sinkWriteFailure ∧
      t.busy = false := by decide +kernel

/-- Both clauses, and the second at its ends. -/
theorem witness_PadByteFlushesPendingBits :
    (AccClean p1 ∧ p1.nbits = 0) ∧
    (let s := { p1 with acc := 0x80000000#32, nbits := 1, sinkAnswers := [.ok, .ok, .fail] };
      AccClean s ∧ 1 ≤ s.nbits ∧ s.nbits ≤ 7 ∧
      SinkAccepts (stuffed [BitVec.ofNat 8 (natOfBits (pend s ++ List.replicate (8 - s.nbits) true))]).length s) ∧
    (AccClean sevenPending ∧ 1 ≤ sevenPending.nbits ∧ sevenPending.nbits ≤ 7 ∧ SinkAccepts 2 sevenPending) ∧
    SinkCutsBits (List.replicate 7 true) 0 { sevenPending with sinkAnswers := [.fail] } ∧
    SinkCutsBits (List.replicate 7 true) 1 { sevenPending with sinkAnswers := [.ok, .fail] } := by
  decide +kernel

theorem witness_WriteSegmentWritesItsBytes :
    SinkAccepts 2 { p1 with sinkAnswers := [.ok, .ok, .fail] } ∧
    ([1#8].length ≤ 65533 ∧ (0#8).toNat * 256 + (3#8).toNat = [1#8].length + 2 ∧ SinkAccepts ([1#8].length + 4) p1) := by
  decide +kernel

theorem witness_WriteSegmentLongestAndTooLong (n : Nat) (hn : n = 65533) :
    ((List.replicate n 0#8).length ≤ 65533 ∧ (0xFF#8).toNat * 256 + (0xFF#8).toNat = (List.replicate n 0#8).length + 2) ∧
    65533 < (List.replicate (n + 1) 0#8).length := by
  simp
  omega

/-- The first and the last write of a segment of five bytes. -/
theorem witness_SegmentIsCutAtFailingWrite :
    segmentDataOk (some [7#8]) = true ∧ 0 < (segmentBytes 0xFE#8 (some [7#8])).length ∧
    4 < (segmentBytes 0xFE#8 (some [7#8])).length ∧ SinkFailsAfter 0 { p1 with sinkAnswers := [.fail] } ∧
    SinkFailsAfter 4 { p1 with sinkAnswers := [.ok, .ok, .ok, .ok, .fail] } := by decide +kernel

theorem witness_HuffmanCodesArePrefixFree :
    codeBits .dcLuma 0x00#8 = some [false, false] ∧ codeBits .dcLuma 0x01#8 = some [false, true, false] := by decide +kernel

theorem witness_HuffmanEncodeSendsCodeOrRaises :
    codeBits .dcLuma 0x06#8 = some [true, true, true, false] ∧ PackerReady sevenPending ∧
    SinkAcceptsBits [true, true, true, false] { sevenPending with sinkAnswers := [.ok, .ok, .fail] } ∧
    SinkCutsBits [true, true, true, false] 1 { sevenPending with sinkAnswers := [.ok, .fail] } ∧
    codeBits .dcLuma 0x0C#8 = none := by decide +kernel

theorem witness_MagCategoryGivesSizeAndBits : (0 : Int) = 0 ∧ (1 : Int) ≠ 0 ∧ (0 : Int) < 1 ∧ (-1 : Int) < 0 := by decide

theorem witness_EobAndZrlSendTheirCodes :
    PackerReady sevenPending ∧ SinkAcceptsBits [true, false, true, false] sevenPending ∧
    SinkAcceptsBits [false, false] sevenPending ∧
    SinkAcceptsBits [true, true, true, true, true, true, true, true, false, false, true] sevenPending ∧
    SinkAcceptsBits [true, true, true, true, true, true, true, false, true, false] sevenPending ∧
    (let s := { sevenPending with sinkAnswers := [.fail] };
      SinkCutsBits [true, false, true, false] 0 s ∧ SinkCutsBits [false, false] 0 s ∧
      SinkCutsBits [true, true, true, true, true, true, true, true, false, false, true] 0 s ∧
      SinkCutsBits [true, true, true, true, true, true, true, false, true, false] 0 s) := by decide +kernel

/-- WB8. -/
theorem witness_WriteBlockSendsCodedBlock :
    blockCodes (blockWith 0 100#32 0#32) 100#32 .chroma .chroma = some [[false, false], [], [false, false]] ∧
    PackerReady sevenPending ∧ SinkAcceptsBits [false, false, false, false] sevenPending ∧
    SinkCutsBits [false, false, false, false] 0 { sevenPending with sinkAnswers := [.fail] } := by decide +kernel

/-- R97 (g), by hand: the DC code completes the byte `FE`, whose write fails; its two bits are merged, EOB is not. -/
theorem test_write_block_cut :
    let t := ran (.writeBlock (blockWith 0 100#32 0#32) 100#32 .chroma .chroma) { sevenPending with sinkAnswers := [.fail] }
    t.acc = 0xFE000000#32 ∧ t.nbits = 9 ∧ t.out = sevenPending.out ∧ t.result = .none := by decide +kernel

/-- WB9 and WB10, the first values out of range. -/
theorem witness_WriteBlockOutOfRangeRaises :
    2047 < (((blockWith 0 2048#32 0#32).getD 0 0#32).toInt - (0#32).toInt).natAbs ∧
    1023 < ((blockWith 63 1024#32 0#32).getD 63 0#32).toInt.natAbs ∧
    1023 < ((blockWith 1 1024#32 0#32).getD 1 0#32).toInt.natAbs ∧ (∀ a ∈ p1.sinkAnswers, a = SinkAnswer.ok) := by
  decide +kernel

theorem witness_SampleBlockReadsImage :
    0 < p1.srcLen.toNat ∧ p1.ncomp = .one ∧ { p1 with mode := 0#2 }.ncomp = .three := by decide

theorem witness_ExactColorIsTruncatedFormula : State.reset.params.colorArith = .exact := rfl

theorem witness_Binary32ColorStaysInByteRange :
    { State.reset with params := { Params.default with colorArith := .binary32 } }.params.colorArith = .binary32 := rfl

theorem witness_FdctMeetsItsContract :
    State.reset.params.fdct = .contract ∧ ∀ b ∈ (flat 200#8).toList, b = 200#8 := ⟨rfl, by simp [flat, Fixed.ofFn]⟩

theorem witness_ReferenceFdctIsExactAtDc :
    { State.reset with params := { Params.default with fdct := .reference } }.params.fdct = .reference ∧
    ∀ b ∈ (flat 255#8).toList, b = 255#8 := ⟨rfl, by simp [flat, Fixed.ofFn]⟩

/-- A tie in each mode: 64 by 16 in `trunc`, 60 by 5 in `real`. -/
theorem witness_QuantizeRoundsToNearest :
    (stdQ .luma).getD 0 0#8 ≠ 0#8 ∧ (2 * (1 * (16 : Int) - (64 : Int).tdiv 8)).natAbs = (16 : Int).natAbs ∧
    (2 * (2 * (40 : Int) - 60)).natAbs = (40 : Int).natAbs := by decide +kernel

theorem witness_BuildDhtReturnsDataOrRaises :
    ((counts [0, 1]).toList.map BitVec.toNat).sum = [5#8].length ∧
    ((counts [0, 1]).toList.map BitVec.toNat).sum ≠ ([] : List Byte).length := by decide +kernel

theorem witness_DqtOrderIsScanOrder : 0 < 64 ∧ 63 < 64 := by decide

theorem witness_FixedMarkersWriteTheirBytes :
    SinkAccepts 2 { p1 with sinkAnswers := [.ok, .ok, .fail] } ∧ SinkAccepts 18 p1 ∧
    SinkFailsAfter 1 { p1 with sinkAnswers := [.ok, .fail] } ∧
    SinkFailsAfter 17 { p1 with sinkAnswers := List.replicate 17 .ok ++ [.fail] } := by decide +kernel

theorem witness_FrameMarkersWriteTheirBytes :
    { p1 with mode := 0#2 }.mode = 0#2 ∧ { p1 with mode := 1#2 }.mode = 1#2 ∧ p1.mode = 2#2 ∧ { p1 with mode := 3#2 }.mode = 3#2 ∧
    SinkAccepts 19 p1 ∧ SinkAccepts 14 p1 ∧ SinkAccepts 13 p1 ∧ SinkAccepts 10 p1 ∧
    SinkFailsAfter 0 { p1 with sinkAnswers := [.fail] } ∧
    SinkFailsAfter 18 { p1 with mode := 0#2, sinkAnswers := List.replicate 18 .ok ++ [.fail] } := by decide +kernel

theorem witness_TableMarkersWriteTheirBytes : SinkAccepts 69 p1 ∧ SinkAccepts 33 p1 ∧ SinkAccepts 183 p1 ∧
    SinkFailsAfter 0 { p1 with sinkAnswers := [.fail] } ∧
    SinkFailsAfter 182 { p1 with sinkAnswers := List.replicate 182 .ok ++ [.fail] } := by decide +kernel

/-- R100, R101: EOI whose second byte is refused. -/
theorem test_marker_cut :
    let t := ran .eoi { p1Busy with sinkAnswers := [.ok, .fail] }
    t.out = [0xFF#8] ∧ t.err = .sinkWriteFailure ∧ t.busy = false ∧ t.acc = p1Busy.acc := by decide +kernel

/-- A frame of no rows, whose stream is header and EOI. -/
def p1Empty : State := { p1 with height := 0#16 }

theorem stream_p1Empty : streamOf p1Empty = some (headerBytes p1Empty ++ [0xFF#8, 0xD9#8]) := by decide +kernel

theorem witness_EncodeWritesWholeStream :
    EncodeAccepted p1Empty ∧ streamOf p1Empty = some (headerBytes p1Empty ++ [0xFF#8, 0xD9#8]) ∧
    SinkAccepts (headerBytes p1Empty ++ [0xFF#8, 0xD9#8]).length p1Empty :=
  ⟨by decide, stream_p1Empty, by intro a ha; simp [p1Empty, p1, State.reset] at ha⟩

/-- P1 itself has a stream. -/
theorem witness_stream_p1 : EncodeAccepted p1 ∧ (streamOf p1).isSome = true := by decide +kernel

/-- The first write fails, and the last one. -/
theorem witness_EncodeIsCutAtFailingWrite :
    let S := headerBytes p1Empty ++ [0xFF#8, 0xD9#8]
    0 < S.length ∧ 329 < S.length ∧ SinkFailsAfter 0 { p1Empty with sinkAnswers := [.fail] } ∧
    SinkFailsAfter 329 { p1Empty with sinkAnswers := List.replicate 329 .ok ++ [.fail] } ∧
    EncodeAccepted { p1Empty with sinkAnswers := [.fail] } ∧
    streamOf { p1Empty with sinkAnswers := [.fail] } = some S := by decide +kernel

theorem witness_EncodeAlwaysEnds : EncodeAccepted p1 := by decide

theorem witness_ContractEncodeIsNeverFatal :
    EncodeAccepted p1 ∧ p1.params.fdct = .contract ∧ TablesNonzero p1 ∧ exec .encode p1 = .next (ran .encode p1) :=
  ⟨by decide, rfl, tables_p1, rfl⟩

theorem witness_EmptyFrameIsHeaderAndEoi :
    p1Empty.busy = false ∧ p1Empty.fatal = false ∧ p1Empty.cfgValid = true ∧ p1Empty.height = 0#16 ∧
    p1Empty.ncomp = .one ∧ SinkAccepts 330 p1Empty ∧ { p1Empty with mode := 0#2 }.ncomp = .three ∧
    SinkAccepts 625 { p1Empty with mode := 0#2 } :=
  ⟨rfl, rfl, rfl, rfl, rfl, by intro a ha; simp [p1Empty, p1, State.reset] at ha, rfl,
    by intro a ha; simp [p1Empty, p1, State.reset] at ha⟩

/-- A block that ended a fatal encode in the middle, and a fresh one. -/
theorem witness_EncodeIgnoresLeftovers :
    let t := { p1 with
      acc := 0xFE000000#32, nbits := 7, pred := ⟨9#32, 9#32, 9#32⟩, phase := .scanningBlocks, y0 := 8, x0 := 8, c := .cr,
      err := .sinkWriteFailure, q := blockWith 0 5#32 1#32 }
    SameEncodeInputs p1 t ∧ EncodeAccepted p1 := ⟨⟨rfl, rfl, rfl, rfl, rfl, rfl, rfl, rfl, rfl, rfl, rfl⟩, by decide⟩

theorem witness_FineStepsReachTheSameEnd : EncodeAccepted p1 ∧ p1.input = [] := by decide

end Sys2Proof.Tests
end

section
/-! PROOFS. The sink is append only (R35): what each input and the sequencer add behind the bytes already there. -/
namespace Sys2Proof.Machine
open Sys2Proof

/-! ### Host writes and commands do not touch the sink -/

@[simp] theorem turnAway_out (v : Verdict) (s : State) : (turnAway v s).out = s.out := by
  cases v <;> rfl

@[simp] theorem writeReg_out (w : HostWrite) (s : State) : (writeReg w s).out = s.out := by
  unfold writeReg
  split
  · rfl
  · cases w <;> rfl

@[simp] theorem hostCommand_out (k : BitVec 8) (s : State) : (hostCommand k s).out = s.out := by
  unfold hostCommand
  split
  · split
    · exact configure_out s
    · exact encodeStart_out s
  all_goals exact turnAway_out _ s

@[simp] theorem hostWrite_out (w : HostWrite) (s : State) : (hostWrite w s).out = s.out := by
  cases w with
  | cmd k => exact hostCommand_out k s
  | _ => exact writeReg_out _ s

theorem execConfigure_out {s t : State} (h : execConfigure s = .next t) : t.out = s.out := by
  unfold execConfigure at h
  split at h <;> obtain rfl := Host.Outcome.next.inj h
  · exact configure_out s
  · exact turnAway_out _ s

/-! ### Instructions, the sequencer and reset append -/

/-- No instruction removes or changes a byte in the sink; CONFIGURE writes none either. -/
theorem exec_out_prefix {i : Instr} {s t : State} (h : exec i s = .next t) : s.out <+: t.out := by
  by_cases hi : i = .configure
  · subst hi
    rw [execConfigure_out h]
  · obtain ⟨bs, hb⟩ := (exec_keeps hi h).out
    exact ⟨bs, hb.symm⟩

theorem behind_out_prefix (s u : State) : s.out <+: (behind s u).out := by
  rw [behind_out]
  exact List.prefix_append ..

theorem oneByteOn_out_prefix (s u : State) : s.out <+: (oneByteOn s u).out := by
  rw [oneByteOn_out]
  exact List.prefix_append ..

theorem resetBlock_out_prefix (n : Nat) (s : State) : s.out <+: (resetBlock n s).out :=
  List.prefix_append ..

/-- The operation in progress is run from its beginning, `opStart s`, with a sink that may be shorter; `behind` puts only the
bytes past those of `s` behind them. -/
theorem sequencer_out_prefix {s t : State} (h : sequencer s = .next t) : s.out <+: t.out := by
  obtain ⟨_, rfl⟩ | ⟨_, _, rfl⟩ | ⟨_, i, u, _, _, rfl⟩ := sequencer_cases h
  · exact List.prefix_rfl
  · obtain ⟨_, _, hout, _⟩ := advance_frame s
    rw [hout]
  · rw [moveOn_out]
    exact behind_out_prefix s u

theorem untilSinkWrite_out_prefix {s t : State} (h : untilSinkWrite s = .next t) : s.out <+: t.out := by
  obtain ⟨u, hu, ⟨_, rfl⟩ | ⟨_, rfl⟩⟩ := untilSinkWrite_cases h
  · exact sequencer_out_prefix hu
  · exact oneByteOn_out_prefix s u

/-! ### Every step -/

/-- Using up an input leaves the sink, so each case is that of the served input. -/
theorem step_out_prefix {s t : State} (h : step s = .next t) : s.out <+: t.out := by
  obtain ⟨u, hu, ht⟩ | ⟨es, _, ht⟩ | ⟨w, es, _, rfl⟩ | ⟨r, es, _, rfl⟩ | ⟨base, data, es, _, _, _, rfl⟩ |
    ⟨n, es, _, rfl⟩ | ⟨w, i, rest, es, _, _, _, ht⟩ := step_cases h
  · have hout : u.out = s.out := by -- the sequencer alone, or a tick
      obtain ⟨_, rfl⟩ | ⟨es, _, rfl⟩ := hu <;> rfl
    exact hout ▸ sequencer_out_prefix ht
  · exact untilSinkWrite_out_prefix (s := afterInput es s) ht -- on to the next sink write
  · rw [hostWrite_out] -- a host write
  · exact List.prefix_rfl -- a host read
  · exact List.prefix_rfl -- image placement
  · exact resetBlock_out_prefix n (afterInput es s) -- reset
  · exact exec_out_prefix (s := afterInput es s) ht -- an issued word

/-- Settles O4: by the cases of a step, each of which appends to the sink or leaves it. -/
theorem sinkIsAppendOnly : Obligations.SinkIsAppendOnly := by
  unfold Obligations.SinkIsAppendOnly
  intro s t h
  obtain ⟨bs, hb⟩ := step_out_prefix h
  exact ⟨bs, hb.symm⟩

end Sys2Proof.Machine
end

section
/-! PROOFS. SINK_BYTE as an instruction (R46, R95): how an operation without a value ends, and its two ends at the
sink. -/
namespace Sys2Proof.Machine
open Sys2Proof

/-! ### How an operation without a value ends an instruction -/

@[simp] theorem finishUnit_done (v : Unit) (s : State) : finishUnit (.done v s) = .next (returned .none s) := rfl

@[simp] theorem finishUnit_raised (s : State) : finishUnit (.raised s) = .next (returned .none s) := rfl

/-! ### SINK_BYTE -/

theorem exec_sinkByte (b : Byte) (s : State) : exec (.sinkByte b) s = finishUnit (sinkByte b s) := rfl

theorem sinkFailsAfter_zero {s : State} {as : List SinkAnswer} (h : s.sinkAnswers = .fail :: as) :
    SinkFailsAfter 0 s :=
  ⟨by simp [SinkAccepts], by simp [h]⟩

/-- Settles O28: by the two ends of one sink write, accepted and failed. -/
theorem sinkByteAppendsOrRaises : Obligations.SinkByteAppendsOrRaises := by
  unfold Obligations.SinkByteAppendsOrRaises
  intro b s
  constructor
  · intro haccepts
    rw [exec_sinkByte, sinkByte_accepted haccepts, finishUnit_done]
  · intro as hfail
    rw [exec_sinkByte, sinkByte_failed (sinkFailsAfter_zero hfail), finishUnit_raised]
    simp [returned, hfail]

end Sys2Proof.Machine
end

section
/-! PROOFS. COLOR_TRANSFORM in exact arithmetic (R126, R128 (b)): the natural quotients of the model are the printed
integer ones, and each of them is a byte. -/
namespace Sys2Proof.Machine
open Sys2Proof

/-! ### The quotients in the integers -/

theorem exactY_cast (r g b : Byte) :
    (exactY r g b : Int) = (2990 * r.toNat + 5870 * g.toNat + 1140 * b.toNat) / 10000 := by
  simp [exactY]

/-- The weights of red and green add up to 5000, so 1280000 covers what they subtract. -/
theorem exactCb_cast (r g b : Byte) :
    (exactCb r g b : Int) = (-1687 * r.toNat - 3313 * g.toNat + 5000 * b.toNat + 1280000) / 10000 := by
  have hr := r.isLt
  have hg := g.isLt
  unfold exactCb
  omega

/-- The weights of green and blue add up to 5000, so 1280000 covers what they subtract. -/
theorem exactCr_cast (r g b : Byte) :
    (exactCr r g b : Int) = (5000 * r.toNat - 4187 * g.toNat - 813 * b.toNat + 1280000) / 10000 := by
  have hg := g.isLt
  have hb := b.isLt
  unfold exactCr
  omega

/-! ### The quotients are bytes -/

theorem exactY_lt (r g b : Byte) : exactY r g b < 2 ^ 8 := by
  have hr := r.isLt
  have hg := g.isLt
  have hb := b.isLt
  unfold exactY
  omega

theorem exactCb_lt (r g b : Byte) : exactCb r g b < 2 ^ 8 := by
  have hb := b.isLt
  unfold exactCb
  omega

theorem exactCr_lt (r g b : Byte) : exactCr r g b < 2 ^ 8 := by
  have hr := r.isLt
  unfold exactCr
  omega

/-! ### The operation -/

@[simp] theorem finish_done (v : OpResult) (s : State) : finish (.done v s) = .next (returned v s) := rfl

theorem exec_colorTransform (r g b : Byte) (s : State) :
    exec (.colorTransform r g b) s = execColorTransform r g b s := rfl

theorem exec_colorTransform_exact (r g b : Byte) {s : State} (h : s.params.colorArith = .exact) :
    exec (.colorTransform r g b) s =
      .next (returned (.ycc (.ofNat 8 (exactY r g b)) (.ofNat 8 (exactCb r g b)) (.ofNat 8 (exactCr r g b))) s) := by
  simp [exec_colorTransform, execColorTransform, colorTransform, h]

/-- Settles O43: each quotient is below 256, so its byte is the quotient itself. -/
theorem exactColorIsTruncatedFormula : Obligations.ExactColorIsTruncatedFormula := by
  unfold Obligations.ExactColorIsTruncatedFormula
  intro r g b s hexact
  refine ⟨_, _, _, exec_colorTransform_exact r g b hexact, ?_, ?_, ?_⟩
  · rw [BitVec.toNat_ofNat, Nat.mod_eq_of_lt (exactY_lt r g b), exactY_cast]
  · rw [BitVec.toNat_ofNat, Nat.mod_eq_of_lt (exactCb_lt r g b), exactCb_cast]
  · rw [BitVec.toNat_ofNat, Nat.mod_eq_of_lt (exactCr_lt r g b), exactCr_cast]

end Sys2Proof.Machine
end

section
/-! PROOFS. FDCT under its contract (R135, R136): the exact DC entry, constant blocks, and the range. -/

namespace Sys2Proof

/-- Reading an entry of a tabulated array. -/
theorem Fixed.getD_ofFn {α : Type} {n i : Nat} (f : Nat → α) (d : α) (h : i < n) : (Fixed.ofFn n f).getD i d = f i := by
  simp [Fixed.getD, Fixed.ofFn, h]

/-- An entry inside the array is one of its items. -/
theorem Fixed.getD_mem {α : Type} {n i : Nat} (v : Fixed n α) (d : α) (h : i < n) : v.getD i d ∈ v.toList := by
  have hi : i < v.toList.length := by rw [v.length_eq]; exact h
  rw [Fixed.getD, List.getD_eq_getElem _ _ hi]
  exact List.getElem_mem hi

end Sys2Proof

namespace Sys2Proof.Machine
open Sys2Proof

theorem natAbs_clampInt_le {v b : Int} (hb : 0 ≤ b) : ((clampInt v (-b) b).natAbs : Int) ≤ b := by
  unfold clampInt
  split
  · omega
  · split <;> omega

/-! ### The samples -/

/-- 64 samples of at most 255 each. -/
theorem sampleSum_le (samp : Block Byte) : sampleSum samp ≤ 64 * 255 := by
  have hitem : ∀ n ∈ samp.toList.map BitVec.toNat, n ≤ 255 := by
    intro n hn
    obtain ⟨b, -, rfl⟩ := List.mem_map.mp hn
    exact Nat.le_of_lt_succ b.isLt
  have hsum := List.sum_le_card_nsmul _ 255 hitem
  rwa [List.length_map, samp.length_eq] at hsum

theorem sampleSum_constant {samp : Block Byte} {v : Byte} (hv : ∀ b ∈ samp.toList, b = v) :
    sampleSum samp = 64 * v.toNat := by
  have hlist : samp.toList = List.replicate 64 v := List.eq_replicate_iff.mpr ⟨samp.length_eq, hv⟩
  rw [sampleSum, hlist, List.map_replicate, List.sum_replicate, smul_eq_mul]

theorem isConstant_of_forall_eq {samp : Block Byte} {v : Byte} (hv : ∀ b ∈ samp.toList, b = v) :
    isConstant samp = true := by
  have h0 : samp.getD 0 0#8 = v := hv _ (samp.getD_mem _ (by decide))
  simpa [isConstant, h0] using hv

/-! ### The entries -/

theorem fdctContract_getD_zero (samp : Block Byte) :
    (fdctContract samp).getD 0 0#32 = BitVec.ofInt 32 ((sampleSum samp : Int) - 8192) := by
  rw [fdctContract, Fixed.getD_ofFn _ _ (by decide), if_pos rfl]

theorem fdctContract_getD_ac (samp : Block Byte) {i : Nat} (h1 : 1 ≤ i) (h64 : i < 64) :
    (fdctContract samp).getD i 0#32 =
      if isConstant samp then 0#32 else BitVec.ofInt 32 (clampInt (Config.fdctAc samp i) (-acBound) acBound) := by
  rw [fdctContract, Fixed.getD_ofFn _ _ h64, if_neg (Nat.ne_of_gt h1)]

/-- The sum less 8192 fits 32 bits, so the entry holds it exactly. -/
theorem fdctContract_dc_toInt (samp : Block Byte) :
    ((fdctContract samp).getD 0 0#32).toInt = (sampleSum samp : Int) - 8192 := by
  have hsum := sampleSum_le samp
  rw [fdctContract_getD_zero]
  exact BitVec.toInt_ofInt_eq_self (by decide) (by omega) (by omega)

theorem fdctContract_ac_constant {samp : Block Byte} {v : Byte} (hv : ∀ b ∈ samp.toList, b = v) {i : Nat}
    (h1 : 1 ≤ i) (h64 : i < 64) : (fdctContract samp).getD i 0#32 = 0#32 := by
  rw [fdctContract_getD_ac samp h1 h64, if_pos (isConstant_of_forall_eq hv)]

theorem fdctContract_ac_natAbs_le (samp : Block Byte) {i : Nat} (h1 : 1 ≤ i) (h64 : i < 64) :
    ((fdctContract samp).getD i 0#32).toInt.natAbs ≤ 8184 := by
  rw [fdctContract_getD_ac samp h1 h64]
  split
  · decide
  · have hclamp : ((clampInt (Config.fdctAc samp i) (-acBound) acBound).natAbs : Int) ≤ 8184 :=
      natAbs_clampInt_le (b := acBound) (by decide)
    rw [BitVec.toInt_ofInt_eq_self (by decide) (by omega) (by omega)]
    omega

/-! ### The operation -/

theorem exec_fdct_contract (samp : Block Byte) {s : State} (h : s.params.fdct = .contract) :
    exec (.fdct samp) s = .next { s with raw := fdctContract samp, result := .none } := by
  have hraw : fdctInto samp s = { s with raw := fdctContract samp } := by rw [fdctInto, h]; rfl
  calc exec (.fdct samp) s = .next (returned .none (fdctInto samp s)) := rfl
    _ = .next { s with raw := fdctContract samp, result := .none } := by rw [hraw]; rfl

/-- Settles O45: the DC entry is read off the sum, whose 64 samples are at most 255 each; the AC entries are 0 on a
constant block and clamped elsewhere. -/
theorem fdctMeetsItsContract : Obligations.FdctMeetsItsContract := by
  unfold Obligations.FdctMeetsItsContract
  intro samp s hcontract
  have hdc := fdctContract_dc_toInt samp
  have hsum := sampleSum_le samp
  refine ⟨fdctContract samp, exec_fdct_contract samp hcontract, hdc, by omega, by omega, ?_, ?_⟩
  · intro v hv
    have hconst := sampleSum_constant hv
    exact ⟨by omega, fun _ => fdctContract_ac_constant hv⟩
  · exact fun _ => fdctContract_ac_natAbs_le samp

end Sys2Proof.Machine
end

section
/-! PROOFS. The host's port while an encode runs (R175): a write changes nothing, a read only the value last read. -/
namespace Sys2Proof.Machine
open Sys2Proof

/-! ### Steps that serve a host access -/

theorem step_write {s : State} {w : HostWrite} {es : List Event} (h : s.input = .write w :: es) :
    step s = .next (hostWrite w (afterInput es s)) := by
  simp only [step, serveNext, h, serve]

theorem step_read {s : State} {r : HostReg} {es : List Event} (h : s.input = .read r :: es) :
    step s = .next { s with input := es, lastRead := readReg r (afterInput es s) } := by
  simp only [step, serveNext, h, serve]

/-! ### Writes while busy -/

theorem commandVerdict_of_busy (k : BitVec 8) {s : State} (h : s.busy = true) : commandVerdict k s = .ignored :=
  if_pos h

theorem hostCommand_of_busy (k : BitVec 8) {s : State} (h : s.busy = true) : hostCommand k s = s := by
  rw [hostCommand, commandVerdict_of_busy k h]
  rfl

theorem writeReg_of_busy (w : HostWrite) {s : State} (h : s.busy = true) : writeReg w s = s := if_pos h

theorem hostWrite_of_busy (w : HostWrite) {s : State} (h : s.busy = true) : hostWrite w s = s := by
  cases w with
  | cmd k => exact hostCommand_of_busy k h
  | _ => rw [hostWrite, writeReg_of_busy _ h]

/-! ### STATUS -/

/-- `busy` is the last field of the STATUS word (R30). -/
theorem statusWord_getLsbD_zero (s : State) : (statusWord s).getLsbD 0 = s.busy := by
  unfold statusWord
  rw [BitVec.getLsbD_append]
  simp

theorem readReg_status_getLsbD_zero (s : State) : (readReg .status s).getLsbD 0 = s.busy := by
  rw [readReg, BitVec.getLsbD_setWidth, statusWord_getLsbD_zero]
  simp

/-- Settles O19: a write goes through `hostWrite`, which a busy block ignores, whatever the register; a read is the
port's answer, and `busy` is bit 0 of STATUS. -/
theorem writesWhileBusyAreIgnored : Obligations.WritesWhileBusyAreIgnored := by
  unfold Obligations.WritesWhileBusyAreIgnored
  intro s es
  constructor
  · intro w hbusy hinput
    rw [step_write hinput, hostWrite_of_busy w (s := afterInput es s) hbusy]
  · intro r hinput
    refine ⟨_, step_read hinput, ?_⟩
    rintro rfl
    exact readReg_status_getLsbD_zero _

end Sys2Proof.Machine
end

section
/-! PROOFS. CONFIGURE (R160): the next state, and each entry of the tables it builds (R139). -/
namespace Sys2Proof.Machine
open Sys2Proof

theorem commandVerdict_configure {s : State} (hbusy : s.busy = false) (hfatal : s.fatal = false) :
    commandVerdict 0x01#8 s = .accepted := by
  simp [commandVerdict, hbusy, hfatal]

theorem exec_configure_accepted {s : State} (h : commandVerdict 0x01#8 s = .accepted) :
    exec .configure s = .next (configure s) := by
  simp only [exec, execConfigure, h]

/-- The clamp to 255 is what makes an entry fit its byte. -/
theorem qtableEntry_toNat (std quality : Byte) :
    (qtableEntry std quality).toNat = clampNat ((std.toNat * qualityScale quality + 50) / 100) 1 255 := by
  have hle : ∀ v, clampNat v 1 255 < 2 ^ 8 := by
    intro v
    unfold clampNat
    split
    · decide
    · split <;> omega
  rw [qtableEntry, BitVec.toNat_ofNat, Nat.mod_eq_of_lt (hle _)]

theorem buildQtable_getD (std : Block Byte) (quality : Byte) {i : Nat} (h : i < 64) :
    (buildQtable std quality).getD i 0#8 = qtableEntry (std.getD i 0#8) quality :=
  Fixed.getD_ofFn _ _ h

/-- CONFIGURE builds the table of each set from the standard table of that set. -/
theorem configure_qt_get (s : State) (set : TableSet) :
    (configure s).qt.get set = buildQtable (stdQ set) s.quality := by
  cases set <;> rfl

/-- Settles O26: an idle block that is not locked accepts CONFIGURE, and every entry is at most 255, so its byte is the
clamped number itself. -/
theorem configureBuildsBothTables : Obligations.ConfigureBuildsBothTables := by
  unfold Obligations.ConfigureBuildsBothTables
  intro s hbusy hfatal
  refine ⟨(configure s).qt, exec_configure_accepted (commandVerdict_configure hbusy hfatal), fun set i hi => ?_⟩
  rw [configure_qt_get, buildQtable_getD _ _ hi, qtableEntry_toNat]
  rfl

end Sys2Proof.Machine
end

section
/-! PROOFS. The header of an encode as one byte string (R165): the runs of `headerRuns` write the segments of
`headerSegments`, whatever the sink answers. -/
namespace Sys2Proof.Machine
open Sys2Proof

/-! ### Each run is a segment write -/

theorem forEach_cons {α : Type} (f : α → State → Run Unit) (a : α) (as : List α) (s : State) :
    forEach f (a :: as) s = (f a s).bind fun _ t => forEach f as t := rfl

/-- The counts of the four constant specifications agree with their values (R153). -/
theorem countSum_huffBits (t : HuffTable) : countSum (huffBits t) = (huffVals t).length := by
  cases t <;> decide +kernel

/-- A DHT segment of a constant specification never raises DhtCountMismatch (R152, R153). -/
theorem emitDht_eq (cls : TableClass) (dest : TableSet) (s : State) :
    emitDht cls dest s =
      writeSegment 0xC4#8 (some (dhtBytes cls dest (huffBits (tableOf cls dest)) (huffVals (tableOf cls dest)))) s := by
  simp only [emitDht, dhtData, countSum_huffBits, ne_eq, not_true_eq_false, if_false, Run.bind_done]

/-- The run writes the segment from every state the header can reach from `s` by sending. -/
def RunWrites (s : State) (r : State → Run Unit) (g : Byte × Option (List Byte)) : Prop :=
  ∀ u, SentFrom s u → r u = writeSegment g.1 g.2 u

theorem runWrites_sof0 (s : State) :
    RunWrites s emitSof0 (0xC0#8, some (sof0Data s.height s.width s.ncomp)) := by
  rintro u ⟨_, _, _, _, rfl⟩
  rfl

theorem runWrites_sos (s : State) : RunWrites s emitSos (0xDA#8, some (sosData s.ncomp)) := by
  rintro u ⟨_, _, _, _, rfl⟩
  rfl

theorem runWrites_dqt (s : State) (tq : TableSet) :
    RunWrites s (emitDqt tq) (0xDB#8, some (dqtData tq (s.qt.get tq))) := by
  rintro u ⟨_, _, _, _, rfl⟩
  rfl

theorem runWrites_dht (s : State) (cls : TableClass) (dest : TableSet) :
    RunWrites s (emitDht cls dest)
      (0xC4#8, some (dhtBytes cls dest (huffBits (tableOf cls dest)) (huffVals (tableOf cls dest)))) :=
  fun u _ => emitDht_eq cls dest u

/-- The runs and the segments of a header correspond one by one (R165). -/
theorem headerRuns_write (s : State) : List.Forall₂ (RunWrites s) (headerRuns s.ncomp) (headerSegments s) := by
  have hsoi : RunWrites s emitSoi (0xD8#8, none) := fun _ _ => rfl
  have happ0 : RunWrites s emitApp0 (0xE0#8, some app0Data) := fun _ _ => rfl
  have hdqt := runWrites_dqt s
  have hdht := runWrites_dht s
  have hsof0 := runWrites_sof0 s
  have hsos := runWrites_sos s
  unfold headerSegments
  cases hn : s.ncomp with
  | one =>
    rw [hn] at hsof0 hsos
    exact .cons hsoi (.cons happ0 (.cons hsof0 (.cons (hdqt .luma) (.cons (hdht .dc .luma) (.cons (hdht .ac .luma)
      (.cons hsos .nil))))))
  | three =>
    rw [hn] at hsof0 hsos
    exact .cons hsoi (.cons happ0 (.cons hsof0 (.cons (hdqt .luma) (.cons (hdqt .chroma) (.cons (hdht .dc .luma)
      (.cons (hdht .ac .luma) (.cons (hdht .dc .chroma) (.cons (hdht .ac .chroma) (.cons hsos .nil)))))))))

/-! ### The runs in a row -/

/-- Byte strings written one after another are one byte string. -/
theorem sinkBytes_append (as bs : List Byte) (s : State) :
    sinkBytes (as ++ bs) s = (sinkBytes as s).bind fun _ t => sinkBytes bs t :=
  forEach_append sinkByte as bs s

theorem forEach_runs_eq_sinkBytes {s : State} {rs : List (State → Run Unit)} {gs : List (Byte × Option (List Byte))}
    (h : List.Forall₂ (RunWrites s) rs gs) {u : State} (hu : SentFrom s u) :
    forEach (fun r t => r t) rs u = sinkBytes (gs.flatMap fun g => segmentBytes g.1 g.2) u := by
  induction h generalizing u with
  | nil => rfl
  | @cons r g rs gs hr _ ih =>
    have hsends := sinkBytes_sends (segmentBytes g.1 g.2) u
    rw [forEach_cons, hr u hu, List.flatMap_cons, sinkBytes_append, writeSegment]
    generalize sinkBytes (segmentBytes g.1 g.2) u = m at hsends ⊢
    cases hsends with
    | done v ht => exact ih (hu.trans ht)
    | raised => rfl

/-- The header is one byte string (R165, R173). -/
theorem emitHeader_eq (s : State) :
    emitHeader s = (sinkBytes (headerBytes s) s).bind fun _ t => .done () { t with phase := .headersWritten } := by
  rw [emitHeader, forEach_runs_eq_sinkBytes (headerRuns_write s) (SentFrom.refl s)]
  rfl

theorem emitHeader_accepted {s : State} (h : SinkAccepts (headerBytes s).length s) :
    emitHeader s = .done () { appended (headerBytes s) s with phase := .headersWritten } := by
  rw [emitHeader_eq, (sinkBytes_emits _ s).accepts h]
  rfl

/-! ### Lengths -/

theorem length_dqtData (tq : TableSet) (table : Block Byte) : (dqtData tq table).length = 65 := by
  simp [dqtData]

theorem length_dhtBytes (cls : TableClass) (dest : TableSet) (bits : Counts) (vals : List Byte) :
    (dhtBytes cls dest bits vals).length = vals.length + 17 := by
  simp [dhtBytes, bits.length_eq]
  omega

theorem length_huffVals (cls : TableClass) (dest : TableSet) :
    (huffVals (tableOf cls dest)).length = match cls with | .dc => 12 | .ac => 162 := by
  cases cls <;> cases dest <;> rfl

theorem length_sof0Data (h w : BitVec 16) (n : NComp) : (sof0Data h w n).length = 6 + 3 * compCount n := by
  cases n <;> rfl

theorem length_sosData (n : NComp) : (sosData n).length = 4 + 2 * compCount n := by
  cases n <;> rfl

/-- 2 bytes fewer than the empty frame of R176, which ends with EOI. -/
theorem length_headerBytes (s : State) :
    (headerBytes s).length = match s.ncomp with | .one => 328 | .three => 623 := by
  unfold headerBytes headerSegments
  cases s.ncomp <;>
    simp [length_dqtData, length_dhtBytes, length_huffVals, length_sof0Data, length_sosData,
      segmentBytes, compCount, app0Data, halfBE]

end Sys2Proof.Machine
end

section
/-! PROOFS. A frame with a zero dimension (R155, R176): it is accepted, and its stream is the header and EOI. -/
namespace Sys2Proof.Machine
open Sys2Proof

/-! ### Nothing to scan -/

theorem positions_eq_nil {w h : Nat} (hz : w = 0 ∨ h = 0) : positions w h = [] := by
  obtain rfl | rfl := hz
  · simp [positions, origins]
  · simp [positions, origins]

theorem dimension_toNat_zero {s : State} (hz : s.width = 0#16 ∨ s.height = 0#16) :
    s.width.toNat = 0 ∨ s.height.toNat = 0 :=
  hz.imp (by simp [·]) (by simp [·])

/-- No frame byte is needed, so neither length check of R159 can refuse (R185). -/
theorem encodeAccepted_of_empty_frame {s : State} (hbusy : s.busy = false) (hfatal : s.fatal = false)
    (hcfg : s.cfgValid = true) (hz : s.width = 0#16 ∨ s.height = 0#16) : EncodeAccepted s := by
  have hbytes : frameBytes s = 0 := by
    unfold frameBytes
    obtain h | h := dimension_toNat_zero hz <;> simp [h]
  have hframe : ¬ (s.srcLen = 0#36 ∧ s.width ≠ 0#16 ∧ s.height ≠ 0#16) := fun h => hz.elim h.2.1 h.2.2
  simp [EncodeAccepted, commandVerdict, hbusy, hfatal, hcfg, hbytes, hframe]

theorem exec_encode_accepted {s : State} (h : EncodeAccepted s) :
    exec .encode s = .next (endState (encodeRun s)) := by
  simp only [exec, execEncode, h]

theorem encodeScan_of_empty_frame {s : State} (hz : s.width = 0#16 ∨ s.height = 0#16) :
    encodeScan s = .done () { s with phase := .scanningBlocks } := by
  rw [encodeScan, positions_eq_nil (dimension_toNat_zero hz)]
  rfl

/-! ### The end of the encode -/

/-- PAD_BYTE with nothing pending writes no byte and leaves its seven ones (R99, R176). -/
theorem padByte_of_empty {s : State} (hacc : s.acc = 0#32) (hnbits : s.nbits = 0) :
    padByte s = .done () { s with acc := 0xFE000000#32, nbits := 7 } := by
  have hready : PackerReady s := ⟨by omega, fun i _ => by simp [hacc]⟩
  have hpend : pend s = [] := List.eq_nil_of_length_eq_zero (by rw [length_pend, hnbits])
  have hbits : packedBytes (pend s ++ bitsOf 7 0x7F) = [] := packedBytes_short (by simp [hnbits])
  have hleft : leftover (pend s ++ bitsOf 7 0x7F) = bitsOf 7 0x7F := by rw [hpend]; exact leftover_short (by simp)
  have haccepts := (padByte_sendsBits hready).accepts
  rw [hbits, appended_nil, withBits, hleft] at haccepts
  exact haccepts fun a ha => by simp at ha

theorem emitEoi_accepted {s : State} (h : SinkAccepts 2 s) : emitEoi s = .done () (appended [0xFF#8, 0xD9#8] s) :=
  (writeSegment_emits 0xD9#8 none s).accepts h

/-! ### The whole encode -/

/-- The end of an accepted encode of an empty frame, on the state in which the command came. -/
def emptyFrameEnd (s : State) : State :=
  appended (headerBytes s ++ [0xFF#8, 0xD9#8])
    { encodeStart s with acc := 0xFE000000#32, nbits := 7, phase := .finalized, busy := false }

theorem encodeRun_of_empty_frame {s : State} (hz : s.width = 0#16 ∨ s.height = 0#16)
    (h : SinkAccepts ((headerBytes s).length + 2) s) : encodeRun s = .done () (emptyFrameEnd s) := by
  obtain ⟨hheader, heoi⟩ := sinkAccepts_append rfl h
  have hsent := emitHeader_accepted (s := encodeStart s) hheader
  have hscanned := encodeScan_of_empty_frame
    (s := { appended (headerBytes s) (encodeStart s) with phase := .headersWritten }) hz
  have hpadded := padByte_of_empty
    (s := { appended (headerBytes s) (encodeStart s) with phase := .scanningBlocks }) rfl rfl
  calc encodeRun s
    _ = encodeEnd { appended (headerBytes s) (encodeStart s) with phase := .scanningBlocks } := by
      rw [encodeRun, hsent, Run.bind_done]
      exact congrArg (Run.bind · fun _ t => encodeEnd t) hscanned
    _ = .done () (emptyFrameEnd s) := by
      rw [encodeEnd, hpadded, Run.bind_done, emitEoi_accepted heoi]
      simp [emptyFrameEnd, appended]

/-- Settles O58: no position is scanned, so PAD_BYTE finds nothing pending, and the sink gets the header and EOI. -/
theorem emptyFrameIsHeaderAndEoi : Obligations.EmptyFrameIsHeaderAndEoi := by
  unfold Obligations.EmptyFrameIsHeaderAndEoi
  intro s hbusy hfatal hcfg hz
  have htotal : (headerBytes s).length + 2 = match s.ncomp with | .one => 330 | .three => 625 := by
    rw [length_headerBytes]
    cases s.ncomp <;> rfl
  intro total hsink
  have hexec : exec .encode s = .next (settle (emptyFrameEnd s)) := by
    rw [exec_encode_accepted (encodeAccepted_of_empty_frame hbusy hfatal hcfg hz),
      encodeRun_of_empty_frame hz (by rw [htotal]; exact hsink)]
    rfl
  refine ⟨_, hexec, ?_, ?_, rfl, rfl, rfl, rfl, rfl, rfl, rfl, rfl⟩
  · simp [emptyFrameEnd]
  · rw [List.length_append]
    exact htotal

end Sys2Proof.Machine
end

section
/-! PROOFS. What an encode inherits from the past (R164, R177): two states that agree on everything an encode reads run
in step, each behind the bytes its own sink holds. -/
namespace Sys2Proof.Machine
open Sys2Proof

/-! ### States that agree on what an encode reads -/

/-- `s` and `t`, reached from `b` and `d` with the frame of `b` unchanged, agree on the packer, the predictors, the flags,
the tables, the registers an encode reads, the image, the parameters and the sink's answers; on the sample blocks of the
components `cs`; and on the bytes the sinks hold behind those of `b` and of `d`. -/
structure Alike (cs : List Comp) (b d s t : State) : Prop where
  frame : s.width = b.width ∧ s.height = b.height ∧ s.srcLen = b.srcLen
  acc : s.acc = t.acc
  nbits : s.nbits = t.nbits
  pred : s.pred = t.pred
  busy : s.busy = t.busy
  phase : s.phase = t.phase
  qt : s.qt = t.qt
  width : s.width = t.width
  height : s.height = t.height
  mode : s.mode = t.mode
  srcLen : s.srcLen = t.srcLen
  cfgValid : s.cfgValid = t.cfgValid
  err : s.err = t.err
  fatal : s.fatal = t.fatal
  img : s.img = t.img
  sinkAnswers : s.sinkAnswers = t.sinkAnswers
  params : s.params = t.params
  samp : ∀ c ∈ cs, s.samp.get c = t.samp.get c
  out : ∃ bs, s.out = b.out ++ bs ∧ t.out = d.out ++ bs

/-- Two runs that end the same way, with the same value, in states that are related. -/
inductive Run.Related (R : State → State → Prop) {α : Type} : Run α → Run α → Prop
  | done (v : α) {s t : State} (h : R s t) : Run.Related R (.done v s) (.done v t)
  | raised {s t : State} (h : R s t) : Run.Related R (.raised s) (.raised t)

theorem Run.Related.bind {R : State → State → Prop} {α β : Type} {m n : Run α} {k l : α → State → Run β}
    (hm : Run.Related R m n) (hk : ∀ v s t, R s t → Run.Related R (k v s) (l v t)) :
    Run.Related R (m.bind k) (n.bind l) := by
  cases hm with
  | done v h => exact hk v _ _ h
  | raised h => exact .raised h

theorem Run.Related.forEach {R : State → State → Prop} {α : Type} {f : α → State → Run Unit} :
    ∀ (as : List α), (∀ a ∈ as, ∀ s t, R s t → Run.Related R (f a s) (f a t)) → ∀ {s t : State}, R s t →
      Run.Related R (forEach f as s) (forEach f as t)
  | [], _, _, _, h => .done () h
  | a :: as, hf, _, _, h =>
    (hf a (by simp) _ _ h).bind fun _ _ _ h => Run.Related.forEach as (fun b hb => hf b (by simp [hb])) h

theorem Run.Related.mono {R Q : State → State → Prop} {α : Type} {m n : Run α} (h : Run.Related R m n)
    (hq : ∀ s t, R s t → Q s t) : Run.Related Q m n := by
  cases h with
  | done v h => exact .done v (hq _ _ h)
  | raised h => exact .raised (hq _ _ h)

section Sending
variable {cs : List Comp} {b d s t : State}

theorem Alike.ncomp (h : Alike cs b d s t) : s.ncomp = t.ncomp := by
  unfold State.ncomp State.colorMode
  rw [h.mode]

theorem Alike.raiseError (e : ErrCode) (h : Alike cs b d s t) : Alike cs b d (raiseError e s) (raiseError e t) :=
  { h with busy := rfl, err := rfl, fatal := congrArg (· || e.isFatal) h.fatal }

/-- The same bytes behind both sinks. -/
theorem Alike.out_append (h : Alike cs b d s t) (as : List Byte) :
    ∃ bs, s.out ++ as = b.out ++ bs ∧ t.out ++ as = d.out ++ bs := by
  obtain ⟨bs, hs, ht⟩ := h.out
  exact ⟨bs ++ as, by rw [hs, List.append_assoc], by rw [ht, List.append_assoc]⟩

/-! ### Operations that send -/

/-- The two sinks give the same answer, so the byte goes to both or to neither. -/
theorem sinkByte_related (x : Byte) (h : Alike cs b d s t) :
    Run.Related (Alike cs b d) (sinkByte x s) (sinkByte x t) := by
  unfold sinkByte
  rw [← h.sinkAnswers]
  split
  · exact .done () { h with out := h.out_append [x], sinkAnswers := rfl }
  · exact .done () { h with out := h.out_append [x], sinkAnswers := rfl }
  · rename_i as _
    have h' : Alike cs b d { s with sinkAnswers := as } { t with sinkAnswers := as } := { h with sinkAnswers := rfl }
    exact .raised (h'.raiseError .sinkWriteFailure)

theorem sinkBytes_related (bs : List Byte) (h : Alike cs b d s t) :
    Run.Related (Alike cs b d) (sinkBytes bs s) (sinkBytes bs t) :=
  Run.Related.forEach bs (fun x _ _ _ h => sinkByte_related x h) h

theorem flushByte_related (h : Alike cs b d s t) : Run.Related (Alike cs b d) (flushByte s) (flushByte t) := by
  unfold flushByte
  rw [← h.acc]
  refine (sinkByte_related _ h).bind fun _ s t h => Run.Related.bind ?_ fun _ s t h => ?_
  · split
    · exact sinkByte_related _ h
    · exact .done () h
  · exact .done () { h with acc := congrArg (fun a : BitVec 32 => a <<< 8) h.acc, nbits := congrArg (· - 8) h.nbits }

theorem flushLoop_related (n : Nat) (h : Alike cs b d s t) :
    Run.Related (Alike cs b d) (flushLoop n s) (flushLoop n t) := by
  induction n generalizing s t with
  | zero => exact .done () h
  | succ n ih =>
    unfold flushLoop
    rw [← h.nbits]
    split
    · exact .done () h
    · exact (flushByte_related h).bind fun _ _ _ h => ih h

theorem writeBits_related (code : BitVec 16) (n : Nat) (h : Alike cs b d s t) :
    Run.Related (Alike cs b d) (writeBits code n s) (writeBits code n t) := by
  unfold writeBits
  rw [← h.acc, ← h.nbits]
  split
  · exact .done () h
  · exact flushLoop_related _ { h with acc := rfl, nbits := rfl }

theorem huffmanEncode_related (sym : Byte) (tb : HuffTable) (h : Alike cs b d s t) :
    Run.Related (Alike cs b d) (huffmanEncode sym tb s) (huffmanEncode sym tb t) := by
  unfold huffmanEncode
  dsimp only
  split
  · exact .raised (h.raiseError _)
  · exact writeBits_related _ _ h

theorem writeValue_related (sym : Byte) (tb : HuffTable) (v : Int) (h : Alike cs b d s t) :
    Run.Related (Alike cs b d) (writeValue sym tb v s) (writeValue sym tb v t) :=
  (huffmanEncode_related sym tb h).bind fun _ _ _ h => writeBits_related _ _ h

theorem writeAc_related (ta : TableSet) (run : Nat) (v : Int) (h : Alike cs b d s t) :
    Run.Related (Alike cs b d) (writeAc ta run v s) (writeAc ta run v t) := by
  refine (Run.Related.forEach _ (fun _ _ _ _ h => huffmanEncode_related _ _ h) h).bind fun _ s t h => ?_
  split
  · exact .raised (h.raiseError _)
  · exact writeValue_related _ _ v h

theorem scanAc_related (ta : TableSet) (vs : List Coef) (run : Nat) (h : Alike cs b d s t) :
    Run.Related (Alike cs b d) (scanAc ta vs run s) (scanAc ta vs run t) := by
  induction vs generalizing run s t with
  | nil =>
    unfold scanAc
    split
    · exact huffmanEncode_related _ _ h
    · exact .done () h
  | cons v vs ih =>
    unfold scanAc
    split
    · exact ih (run + 1) h
    · exact (writeAc_related ta run _ h).bind fun _ _ _ h => ih 0 h

theorem writeBlock_related (block : Block Coef) (prev : Coef) (td ta : TableSet) (h : Alike cs b d s t) :
    Run.Related (Alike cs b d) (writeBlock block prev td ta s) (writeBlock block prev td ta t) :=
  (writeValue_related _ _ _ h).bind fun _ _ _ h => (scanAc_related ta _ 0 h).bind fun _ _ _ h => .done _ h

/-! ### Sampling -/

/-- With a buffer that is not empty a fetch reads the image alone, and draws no free value (R122, log 12). -/
theorem fetch_alike (h : Alike cs b d s t) (hsrc : b.srcLen ≠ 0#36) (off : Nat) : fetch s off = fetch t off := by
  have hpos : 0 < t.srcLen.toNat := by
    rw [← h.srcLen, h.frame.2.2]
    exact Nat.pos_of_ne_zero fun hz => hsrc (BitVec.eq_of_toNat_eq hz)
  simp only [fetch, h.srcLen, h.img, hpos, if_true]

theorem sampleAt_alike (h : Alike cs b d s t) (hsrc : b.srcLen ≠ 0#36) (x0 y0 i k : Nat) :
    sampleAt s x0 y0 i k = sampleAt t x0 y0 i k := by
  simp only [sampleAt, State.colorMode, h.width, h.mode, fetch_alike h hsrc]

/-- The blocks of the components in use are sampled anew, whatever the two held (R123). -/
theorem sampledBlocks_alike (h : Alike cs b d s t) (hsrc : b.srcLen ≠ 0#36) (x0 y0 : Nat) {c : Comp}
    (hc : c ∈ comps s.ncomp) : (sampledBlocks s x0 y0).get c = (sampledBlocks t x0 y0).get c := by
  unfold sampledBlocks
  rw [← h.ncomp]
  cases hn : s.ncomp with
  | one =>
    obtain rfl : c = .y := by simpa [hn, comps] using hc
    simp only [Triple.get, sampleAt_alike h hsrc]
  | three => simp only [yccAt, sampleAt_alike h hsrc, h.params]

/-! ### The scan -/

theorem setPred_alike (c : Comp) (v : Coef) (h : Alike cs b d s t) : Alike cs b d (setPred c v s) (setPred c v t) :=
  { h with pred := congrArg (·.set c v) h.pred }

/-- A component in use is transformed and quantised from its own sample block, so `raw` and `q` are rebuilt (R163). -/
theorem encodeComp_related {c : Comp} (hc : c ∈ cs) (h : Alike cs b d s t) :
    Run.Related (Alike cs b d) (encodeComp c s) (encodeComp c t) := by
  unfold encodeComp
  simp only [quantizeInto, fdctInto, h.samp c hc, h.params, h.qt, h.pred]
  refine (writeBlock_related _ _ _ _ ?_).bind fun v _ _ h => .done () (setPred_alike c v h)
  exact { h with params := rfl, qt := rfl, pred := rfl }

theorem encodePosition_related (pos : Nat × Nat) (h : Alike [] b d s t) (hsrc : b.srcLen ≠ 0#36) :
    Run.Related (Alike [] b d) (encodePosition pos s) (encodePosition pos t) := by
  have hsampled : Alike (comps s.ncomp) b d (sampleBlock pos.2 pos.1 { s with y0 := pos.1, x0 := pos.2, c := .y })
      (sampleBlock pos.2 pos.1 { t with y0 := pos.1, x0 := pos.2, c := .y }) :=
    { h with samp := fun c hc => sampledBlocks_alike h hsrc pos.2 pos.1 hc }
  have hcomps := Run.Related.forEach (f := encodeComp) (comps s.ncomp) (fun c hc _ _ h => encodeComp_related hc h) hsampled
  unfold encodePosition
  have hn : (sampleBlock pos.2 pos.1 { t with y0 := pos.1, x0 := pos.2, c := .y }).ncomp = s.ncomp := h.ncomp.symm
  dsimp only
  rw [hn]
  exact hcomps.mono fun _ _ h => { h with samp := fun _ hc => by simp at hc }

/-- A scan samples only where the frame has a position, and then an accepted encode has a buffer (R159, R176). -/
theorem encodeScan_related (h : Alike [] b d s t) (hsrc : b.width ≠ 0#16 → b.height ≠ 0#16 → b.srcLen ≠ 0#36) :
    Run.Related (Alike [] b d) (encodeScan s) (encodeScan t) := by
  have hphase : Alike [] b d { s with phase := .scanningBlocks } { t with phase := .scanningBlocks } :=
    { h with phase := rfl }
  by_cases hz : s.width = 0#16 ∨ s.height = 0#16
  · rw [encodeScan_of_empty_frame hz, encodeScan_of_empty_frame (by rwa [← h.width, ← h.height])]
    exact .done () hphase
  · obtain ⟨hw, hh⟩ := not_or.mp hz
    obtain ⟨hbw, hbh, -⟩ := h.frame
    have hpositions : positions t.width.toNat t.height.toNat = positions s.width.toNat s.height.toNat := by
      rw [h.width, h.height]
    unfold encodeScan
    dsimp only
    rw [hpositions]
    exact Run.Related.forEach _
      (fun pos _ _ _ h => encodePosition_related pos h (hsrc (hbw ▸ hw) (hbh ▸ hh))) hphase

/-! ### The whole encode -/

theorem Alike.headerBytes (h : Alike cs b d s t) : headerBytes s = headerBytes t := by
  unfold Machine.headerBytes headerSegments
  rw [h.ncomp, h.qt, h.height, h.width]

theorem emitHeader_related (h : Alike cs b d s t) : Run.Related (Alike cs b d) (emitHeader s) (emitHeader t) := by
  rw [emitHeader_eq, emitHeader_eq, h.headerBytes]
  exact (sinkBytes_related _ h).bind fun _ _ _ h => .done () { h with phase := rfl }

theorem encodeEnd_related (h : Alike cs b d s t) : Run.Related (Alike cs b d) (encodeEnd s) (encodeEnd t) :=
  (writeBits_related _ _ h).bind fun _ _ _ h => (sinkBytes_related _ h).bind fun _ _ _ h =>
    .done () { h with phase := rfl, busy := rfl }

theorem statusWord_alike (h : Alike cs b d s t) : statusWord s = statusWord t := by
  unfold statusWord
  rw [h.fatal, h.err, h.phase, h.cfgValid, h.busy]

theorem endState_alike {m n : Run Unit} (h : Run.Related (Alike cs b d) m n) :
    Alike cs b d (endState m) (endState n) := by
  cases h with
  | done _ h => exact { h with }
  | raised h => exact { h with }

end Sending

/-- The encode start rebuilds the derived state, so what is left to agree on is what R177 says an encode inherits. -/
theorem encodeStart_alike {s t : State} (h : SameEncodeInputs s t) :
    Alike [] s t (encodeStart s) (encodeStart t) where
  frame := ⟨rfl, rfl, rfl⟩
  acc := rfl
  nbits := rfl
  pred := rfl
  busy := rfl
  phase := rfl
  qt := h.qt
  width := h.width
  height := h.height
  mode := h.mode
  srcLen := h.srcLen
  cfgValid := h.cfgValid
  err := rfl
  fatal := h.fatal
  img := h.img
  sinkAnswers := h.sinkAnswers
  params := h.params
  samp := fun _ hc => by simp at hc
  out := ⟨[], by simp, by simp⟩

theorem srcLen_ne_zero_of_accepted {s : State} (h : EncodeAccepted s) (hw : s.width ≠ 0#16) (hh : s.height ≠ 0#16) :
    s.srcLen ≠ 0#36 := by
  obtain ⟨h', _⟩ | ⟨h', _⟩ | ⟨e, h', _⟩ | ⟨_, _, _, hk⟩ := commandVerdict_cases 0x02#8 s
  · exact absurd (h.symm.trans h') (by simp)
  · exact absurd (h.symm.trans h') (by simp)
  · exact absurd (h.symm.trans h') (by simp)
  · obtain hk | ⟨_, _, _, hsrc⟩ := hk
    · exact absurd hk (by decide)
    · exact hsrc hw hh

theorem encodeRun_related {s t : State} (h : SameEncodeInputs s t) (ha : EncodeAccepted s) :
    Run.Related (Alike [] s t) (encodeRun s) (encodeRun t) :=
  (emitHeader_related (encodeStart_alike h)).bind fun _ _ _ h =>
    (encodeScan_related h (srcLen_ne_zero_of_accepted ha)).bind fun _ _ _ h => encodeEnd_related h

/-- The checks of R159 read nothing but what the two states share. -/
theorem encodeAccepted_of_sameEncodeInputs {s t : State} (h : SameEncodeInputs s t) (ha : EncodeAccepted s) :
    EncodeAccepted t := by
  have hverdict : commandVerdict 0x02#8 t = commandVerdict 0x02#8 s := by
    unfold commandVerdict frameBytes State.colorMode
    rw [h.cfgValid, h.width, h.height, h.mode, h.srcLen, h.params, h.busy, h.fatal]
  exact hverdict.trans ha

/-- Settles O59: the two encodes start alike and run in step, so they append the same bytes and end with the same
flags. -/
theorem encodeIgnoresLeftovers : Obligations.EncodeIgnoresLeftovers := by
  unfold Obligations.EncodeIgnoresLeftovers
  intro s t h ha
  have hend := endState_alike (encodeRun_related h ha)
  obtain ⟨bs, hs, ht⟩ := hend.out
  exact ⟨_, _, bs, exec_encode_accepted ha, exec_encode_accepted (encodeAccepted_of_sameEncodeInputs h ha), hs, ht,
    statusWord_alike hend⟩

end Sys2Proof.Machine
end

section
/-! PROOFS. A write to `CMD` of no command (R87, R184): the check refuses it, and a refusal writes `err` alone (R187). -/
namespace Sys2Proof.Machine
open Sys2Proof

theorem commandVerdict_illegalCommand {k : BitVec 8} {s : State} (hbusy : s.busy = false) (hfatal : s.fatal = false)
    (hconfigure : k ≠ 0x01#8) (hencode : k ≠ 0x02#8) : commandVerdict k s = .refused .illegalCommand := by
  simp [commandVerdict, hbusy, hfatal, hconfigure, hencode]

theorem hostCommand_of_refused {k : BitVec 8} {s : State} {e : ErrCode} (h : commandVerdict k s = .refused e) :
    hostCommand k s = { s with err := e } := by
  rw [hostCommand, h]
  rfl

/-- Settles O23: taking the input leaves both flags clear, so the check falls through to its last case, a refusal. -/
theorem illegalCommandRecordsItsCode : Obligations.IllegalCommandRecordsItsCode := by
  unfold Obligations.IllegalCommandRecordsItsCode
  intro s k es hbusy hfatal hconfigure hencode hinput
  have hverdict : commandVerdict k (afterInput es s) = .refused .illegalCommand :=
    commandVerdict_illegalCommand hbusy hfatal hconfigure hencode
  calc step s = .next (hostCommand k (afterInput es s)) := step_write hinput
    _ = .next { s with input := es, err := .illegalCommand } := by rw [hostCommand_of_refused hverdict]

end Sys2Proof.Machine
end

section
/-! PROOFS. The decoder and the encoder are inverse to each other, from both sides (R60, R65, R86, log 1). -/
namespace Sys2Proof
open Sys2Proof

/-! ### From instructions to words -/

@[simp] theorem ok_bind {α β : Type} (a : α) (k : α → Except DecodeError β) : (Except.ok a >>= k) = k a := rfl

@[simp] theorem pure_eq_ok {α : Type} (a : α) : (pure a : Except DecodeError α) = .ok a := rfl

theorem getByte_cons (b : Byte) (w : List Byte) : getByte (b :: w) = .ok (b, w) := rfl

/-- Every operand is read back from its own bytes, so an instruction is read back from its code and operands: where they
are single bytes by computation, else by the lemma of each operand. -/
theorem decode_encode {i : Instr} (h : i.wf = true) (rest : List Byte) : decode (encode i ++ rest) = .ok (i, rest) := by
  cases i with
  | configure | encode | padByte | buildApp0 | soi | app0 | sof0 | sos | eoi | sinkByte | colorTransform => rfl
  | dqt s | eob s | zrl s => cases s <;> rfl
  | dht k s => cases k <;> cases s <;> rfl
  | huffmanEncode sym t => cases t <;> rfl
  | buildSos n => cases n <;> rfl
  | sampleBlock x0 y0 =>
    obtain ⟨hx, hy⟩ : originOk x0 = true ∧ originOk y0 = true := by simpa [Instr.wf] using h
    simp [encode, Instr.codeBytes, Instr.operandBytes, decode, decodeFrom, decodeBuilding, getByte_cons,
      getOrigin_bytes hx, getOrigin_bytes hy]
  | writeSegment m d =>
    simp [encode, Instr.codeBytes, Instr.operandBytes, decode, decodeFrom, decodeCoding, getByte_cons,
      getData_dataBytes h]
  | magCategory v =>
    have hread := getMag_bytes h rest
    simp only [encode, Instr.codeBytes, Instr.operandBytes, List.cons_append, List.nil_append]
    simp [decode, decodeFrom, decodeCoding, getByte_cons, hread, -BitVec.toNat_ofInt]
  | buildHuffLut bits vals | buildDht k s bits vals =>
    have hvals : vals.length < 65536 := by simpa [Instr.wf, symbolListOk] using h
    simp [encode, Instr.codeBytes, Instr.operandBytes, decode, decodeFrom, decodeCoding, decodeBuilding, getByte_cons,
      getClass_code, getSet_code, getFixed_bytes, getList_listBytes hvals]
  | _ =>
    simp [encode, Instr.codeBytes, Instr.operandBytes, decode, decodeFrom, decodeCoding, decodeBuilding, getByte_cons,
      getHalf_halfBytes, getLength_byte, getCoef_coefBytes, getFixed_coefs, getFixed_bytes, getSet_code,
      getNComp_selector]

/-- Settles O12: by the operands of each instruction, each of which is read back from its bytes. -/
theorem decodeOfEncodeIsInstruction : Obligations.DecodeOfEncodeIsInstruction := by
  unfold Obligations.DecodeOfEncodeIsInstruction
  exact fun i rest h => decode_encode h rest

/-! ### From words to operands -/

/-- If `x`, read off the front of `word`, is an operand, then it is in the range `P`, and its bytes `f` are what was
taken. -/
def Took {α : Type} (f : α → List Byte) (P : α → Prop) (word : List Byte)
    (x : Except DecodeError (α × List Byte)) : Prop :=
  ∀ a rest, x = .ok (a, rest) → P a ∧ word = f a ++ rest

/-- The reader `p` takes the bytes `f` of an operand in the range `P`. -/
abbrev Reads {α : Type} (p : List Byte → Except DecodeError (α × List Byte)) (f : α → List Byte)
    (P : α → Prop) : Prop :=
  ∀ w, Took f P w (p w)

/-- An operand of any value. -/
abbrev AnyOperand {α : Type} (_ : α) : Prop := True

section
variable {α β : Type} {f : α → List Byte} {P : α → Prop} {word : List Byte}

theorem Took.ok {a : α} {rest : List Byte} (ha : P a) (hw : word = f a ++ rest) : Took f P word (.ok (a, rest)) := by
  rintro _ _ ⟨⟩
  exact ⟨ha, hw⟩

theorem Took.error (e : DecodeError) : Took f P word (.error e) := by
  rintro _ _ ⟨⟩

/-- Operands read one after another have their bytes one after another. -/
theorem Took.bind {g : β → List Byte} {Q : β → Prop} {p : List Byte → Except DecodeError (β × List Byte)}
    {k : β × List Byte → Except DecodeError (α × List Byte)} {before w : List Byte} (hp : Reads p g Q)
    (hk : ∀ b w', Q b → Took f P (before ++ g b ++ w') (k (b, w'))) : Took f P (before ++ w) (p w >>= k) := by
  intro a rest h
  cases hx : p w with
  | error e => rw [hx] at h; cases h
  | ok x =>
    obtain ⟨b, w'⟩ := x
    obtain ⟨hb, rfl⟩ := hp w b w' hx
    rw [hx] at h
    rw [← List.append_assoc]
    exact hk b w' hb a rest h

end

theorem getByte_reads : Reads getByte (fun b => [b]) AnyOperand
  | [] => .error _
  | _ :: _ => .ok trivial rfl

theorem getMany_reads {α : Type} {p : List Byte → Except DecodeError (α × List Byte)} {f : α → List Byte}
    (hp : Reads p f AnyOperand) : ∀ n, Reads (getMany p n) (·.flatMap f) (·.length = n)
  | 0, _ => .ok rfl rfl
  | n + 1, w => Took.bind (before := []) hp fun a _ _ => Took.bind (getMany_reads hp n) fun as w' hlen =>
      .ok (by simp [hlen]) (by simp)

theorem getBytes_reads (n : Nat) : Reads (getMany getByte n) id (·.length = n) := by
  intro w bs rest h
  simpa using getMany_reads getByte_reads n w bs rest h

theorem getNat_reads (n : Nat) : Reads (getNat n) (natToBytes n) (· < 256 ^ n) := fun w =>
  Took.bind (before := []) (getBytes_reads n) fun bs w' hlen => by
    subst hlen
    exact .ok (bytesToNat_lt bs) (by simp [natToBytes_bytesToNat])

theorem getCoef_reads : Reads getCoef coefBytes AnyOperand := fun w =>
  Took.bind (before := []) (getNat_reads 4) fun v w' hv => .ok trivial (by
    rw [coefBytes, BitVec.toNat_ofNat, Nat.mod_eq_of_lt (by omega)]
    rfl)

theorem getHalf_reads : Reads getHalf halfBytes AnyOperand := fun w =>
  Took.bind (before := []) (getNat_reads 2) fun v w' hv => .ok trivial (by
    rw [halfBytes, BitVec.toNat_ofNat, Nat.mod_eq_of_lt (by omega)]
    rfl)

theorem getFixed_reads {α : Type} {p : List Byte → Except DecodeError (α × List Byte)} {f : α → List Byte}
    (hp : Reads p f AnyOperand) (n : Nat) (d : α) : Reads (getFixed n d p) (fun v => v.toList.flatMap f) AnyOperand :=
  fun w => Took.bind (before := []) (getMany_reads hp n) fun as w' hlen => .ok trivial (by
    have hlist := congrArg Fixed.toList (Fixed.ofFn_getD ⟨as, hlen⟩ d)
    simp only [List.nil_append, hlist])

theorem getFixedBytes_reads (n : Nat) (d : Byte) : Reads (getFixed n d getByte) Fixed.toList AnyOperand := by
  intro w v rest h
  simpa using getFixed_reads getByte_reads n d w v rest h

theorem getList_reads : Reads getList listBytes (·.length < 65536) := fun w =>
  Took.bind (before := []) (getNat_reads 2) fun n w' hn a rest h => by
    obtain ⟨rfl, rfl⟩ := getBytes_reads n w' a rest h
    exact ⟨by simpa using hn, by simp [listBytes]⟩

theorem getSet_reads : Reads getSet (fun s => [s.code]) AnyOperand := fun w =>
  Took.bind (before := []) getByte_reads fun b w' _ => by
    dsimp only
    split
    · exact .ok trivial (by simp [*, TableSet.code])
    · split
      · exact .ok trivial (by simp [*, TableSet.code])
      · exact .error _

theorem getClass_reads : Reads getClass (fun k => [k.code]) AnyOperand := fun w =>
  Took.bind (before := []) getByte_reads fun b w' _ => by
    dsimp only
    split
    · exact .ok trivial (by simp [*, TableClass.code])
    · split
      · exact .ok trivial (by simp [*, TableClass.code])
      · exact .error _

theorem getNComp_reads : Reads getNComp (fun n => [n.selector]) AnyOperand := fun w =>
  Took.bind (before := []) getByte_reads fun b w' _ => by
    dsimp only
    split
    · exact .ok trivial (by simp [*, NComp.selector])
    · split
      · exact .ok trivial (by simp [*, NComp.selector])
      · exact .error _

theorem getTable_reads : Reads getTable (fun t => [t.code]) AnyOperand := fun w =>
  Took.bind (before := []) getByte_reads fun b w' _ => by
    dsimp only
    split_ifs
    · exact .ok trivial (by simp [*, HuffTable.code])
    · exact .ok trivial (by simp [*, HuffTable.code])
    · exact .ok trivial (by simp [*, HuffTable.code])
    · exact .ok trivial (by simp [*, HuffTable.code])
    · exact .error _

theorem getLength_reads : Reads getLength (fun n => [BitVec.ofNat 8 n.val]) AnyOperand := fun w =>
  Took.bind (before := []) getByte_reads fun b w' _ => by
    dsimp only
    split
    · exact .ok trivial (by simp)
    · exact .error _

theorem getData_reads : Reads getData dataBytes (segmentDataOk · = true) := fun w =>
  Took.bind (before := []) getByte_reads fun b w' _ => by
    dsimp only
    split
    · exact .ok rfl (by simp [*, dataBytes])
    · split
      · refine Took.bind getList_reads fun d w'' _ => ?_
        dsimp only
        split
        · exact .ok (by simpa [segmentDataOk]) (by simp [*, dataBytes])
        · exact .error _
      · exact .error _

/-- Five bytes in two's complement, read as a number and written again, are the same five bytes. -/
theorem getMag_reads : Reads getMag (fun v => natToBytes 5 (BitVec.ofInt 40 v).toNat) (magInRange · = true) := fun w =>
  Took.bind (before := []) (getNat_reads 5) fun n w' hn => by
    have hlo := (BitVec.ofNat 40 n).le_toInt
    have hhi := (BitVec.ofNat 40 n).toInt_lt
    refine .ok ?_ ?_
    · simp only [magInRange, Bool.and_eq_true, decide_eq_true_eq]
      omega
    · rw [BitVec.ofInt_toInt, BitVec.toNat_ofNat, Nat.mod_eq_of_lt (by omega)]
      rfl

theorem getOrigin_reads : Reads getOrigin (natToBytes 2) (originOk · = true) := by
  intro w x rest h
  simpa [originOk] using getNat_reads 2 w x rest h

/-! ### From words to instructions -/

/-- `x`, decoded from the front of `word`, is a well-formed instruction, and `word` begins with its encoding. -/
abbrev Spells (word : List Byte) (x : Except DecodeError (Instr × List Byte)) : Prop :=
  Took encode (fun i => i.wf = true) word x

theorem decodeMarker_spells (m : Byte) (w : List Byte) : Spells ([0xFF#8, m] ++ w) (decodeMarker m w) := by
  unfold decodeMarker
  split_ifs with hsoi happ0 hsof0 hdqt hdht hsos heoi
  · exact .ok rfl (by rw [hsoi]; rfl)
  · exact .ok rfl (by rw [happ0]; rfl)
  · exact .ok rfl (by rw [hsof0]; rfl)
  · exact Took.bind getSet_reads fun s w _ => .ok rfl (by rw [hdqt]; rfl)
  · exact Took.bind getClass_reads fun k w _ => Took.bind getSet_reads fun s w _ => .ok rfl (by rw [hdht]; rfl)
  · exact .ok rfl (by rw [hsos]; rfl)
  · exact .ok rfl (by rw [heoi]; rfl)
  · exact .error _

theorem decodeCoding_spells (tag : Byte) (w : List Byte) : Spells ([tag] ++ w) (decodeCoding tag w) := by
  unfold decodeCoding
  split_ifs with hsinkByte hwriteBits hpadByte hwriteSegment hbuildHuffLut hhuffmanEncode hmagCategory hwriteBlock
  · exact Took.bind getByte_reads fun b w _ => .ok rfl (by rw [hsinkByte]; rfl)
  · exact Took.bind getHalf_reads fun code w _ => Took.bind getLength_reads fun n w _ =>
      .ok rfl (by rw [hwriteBits]; simp [encode, Instr.codeBytes, Instr.operandBytes])
  · exact .ok rfl (by rw [hpadByte]; rfl)
  · exact Took.bind getByte_reads fun m w _ => Took.bind getData_reads fun d w hd =>
      .ok hd (by rw [hwriteSegment]; simp [encode, Instr.codeBytes, Instr.operandBytes])
  · exact Took.bind (getFixedBytes_reads 16 _) fun bits w _ => Took.bind getList_reads fun vals w hvals =>
      .ok (by simpa [Instr.wf, symbolListOk] using hvals)
        (by rw [hbuildHuffLut]; simp [encode, Instr.codeBytes, Instr.operandBytes])
  · exact Took.bind getByte_reads fun sym w _ => Took.bind getTable_reads fun t w _ =>
      .ok rfl (by rw [hhuffmanEncode]; rfl)
  · exact Took.bind getMag_reads fun v w hv => .ok hv (by rw [hmagCategory]; rfl)
  · exact Took.bind (getFixed_reads getCoef_reads 64 _) fun block w _ => Took.bind getCoef_reads fun prev w _ =>
      Took.bind getSet_reads fun td w _ => Took.bind getSet_reads fun ta w _ =>
        .ok rfl (by rw [hwriteBlock]; simp [encode, Instr.codeBytes, Instr.operandBytes])
  · exact .error _

theorem decodeBuilding_spells (tag : Byte) (w : List Byte) : Spells ([tag] ++ w) (decodeBuilding tag w) := by
  unfold decodeBuilding
  split_ifs with hsampleBlock hcolorTransform hfdct hbuildQtable hquantize hbuildApp0 hbuildSof0 hbuildDqt hbuildDht
    hbuildSos
  · exact Took.bind getOrigin_reads fun x0 w hx => Took.bind getOrigin_reads fun y0 w hy =>
      .ok (by simp [Instr.wf, hx, hy]) (by rw [hsampleBlock]; simp [encode, Instr.codeBytes, Instr.operandBytes])
  · exact Took.bind getByte_reads fun r w _ => Took.bind getByte_reads fun g w _ =>
      Took.bind getByte_reads fun b w _ => .ok rfl (by rw [hcolorTransform]; rfl)
  · exact Took.bind (getFixedBytes_reads 64 _) fun samp w _ => .ok rfl (by rw [hfdct]; rfl)
  · exact Took.bind (getFixedBytes_reads 64 _) fun std w _ => Took.bind getByte_reads fun quality w _ =>
      .ok rfl (by rw [hbuildQtable]; simp [encode, Instr.codeBytes, Instr.operandBytes])
  · exact Took.bind (getFixed_reads getCoef_reads 64 _) fun raw w _ =>
      Took.bind (getFixedBytes_reads 64 _) fun table w _ =>
        .ok rfl (by rw [hquantize]; simp [encode, Instr.codeBytes, Instr.operandBytes])
  · exact .ok rfl (by rw [hbuildApp0]; rfl)
  · exact Took.bind getHalf_reads fun height w _ => Took.bind getHalf_reads fun width w _ =>
      Took.bind getNComp_reads fun n w _ =>
        .ok rfl (by rw [hbuildSof0]; simp [encode, Instr.codeBytes, Instr.operandBytes])
  · exact Took.bind getSet_reads fun tq w _ => Took.bind (getFixedBytes_reads 64 _) fun table w _ =>
      .ok rfl (by rw [hbuildDqt]; rfl)
  · exact Took.bind getClass_reads fun k w _ => Took.bind getSet_reads fun s w _ =>
      Took.bind (getFixedBytes_reads 16 _) fun bits w _ => Took.bind getList_reads fun vals w hvals =>
        .ok (by simpa [Instr.wf, symbolListOk] using hvals)
          (by rw [hbuildDht]; simp [encode, Instr.codeBytes, Instr.operandBytes])
  · exact Took.bind getNComp_reads fun n w _ => .ok rfl (by rw [hbuildSos]; rfl)
  · exact .error _

theorem decodeFrom_spells (tag : Byte) (w : List Byte) : Spells ([tag] ++ w) (decodeFrom tag w) := by
  unfold decodeFrom
  split_ifs with hmarker hconfigure hencode heob hzrl
  · exact Took.bind getByte_reads fun m w _ => by rw [hmarker]; exact decodeMarker_spells m w
  · exact .ok rfl (by rw [hconfigure]; rfl)
  · exact .ok rfl (by rw [hencode]; rfl)
  · exact Took.bind getSet_reads fun ta w _ => .ok rfl (by rw [heob]; rfl)
  · exact Took.bind getSet_reads fun ta w _ => .ok rfl (by rw [hzrl]; rfl)
  · exact decodeCoding_spells tag w
  · exact decodeBuilding_spells tag w

theorem decode_spells (w : List Byte) : Spells w (decode w) :=
  Took.bind (before := []) getByte_reads fun tag w _ => decodeFrom_spells tag w

/-- Settles O13: every reader of the decoder takes exactly the bytes its operand is written with, so the decoder takes
the encoding of what it answers. -/
theorem decodedWordIsItsEncoding : Obligations.DecodedWordIsItsEncoding := by
  unfold Obligations.DecodedWordIsItsEncoding
  exact fun w rest i h => decode_spells w i rest h

end Sys2Proof
end

section
/-! PROOFS. What an instruction leaves alone, from the one list of what an instruction can do: host state (R36, R163),
the tables (R21), the predictors and the position (R18, R20), the flags (R186). -/
namespace Sys2Proof.Machine
open Sys2Proof

/-! ### Commands -/

/-- An accepted CONFIGURE, or a command turned away. -/
theorem execConfigure_cases {s t : State} (h : execConfigure s = .next t) :
    (commandVerdict 0x01#8 s = .accepted ∧ t = configure s) ∨ t = turnAway (commandVerdict 0x01#8 s) s := by
  unfold execConfigure at h
  split at h
  · exact .inl ⟨‹_›, (Host.Outcome.next.inj h).symm⟩
  · exact .inr (Host.Outcome.next.inj h).symm

/-- An accepted ENCODE, or a command turned away. -/
theorem execEncode_cases {s t : State} (h : execEncode s = .next t) :
    (EncodeAccepted s ∧ t = endState (encodeRun s)) ∨ t = turnAway (commandVerdict 0x02#8 s) s := by
  unfold execEncode at h
  split at h
  · exact .inl ⟨‹_›, (Host.Outcome.next.inj h).symm⟩
  · exact .inr (Host.Outcome.next.inj h).symm

/-- A command turned away changes nothing, or writes an error code in an idle block without a fatal error (R175, R187,
R188). -/
theorem turnAway_cases (k : BitVec 8) (s : State) :
    turnAway (commandVerdict k s) s = s ∨
      (s.busy = false ∧ s.fatal = false ∧
        ∃ e, e ≠ .none ∧ turnAway (commandVerdict k s) s = { s with err := e }) := by
  obtain ⟨h, _⟩ | ⟨h, _⟩ | ⟨e, h, hb, hf, he⟩ | ⟨h, _⟩ := commandVerdict_cases k s <;> rw [h]
  · exact .inl rfl
  · exact .inl rfl
  · exact .inr ⟨hb, hf, e, he, rfl⟩
  · exact .inl rfl

/-! ### Host state and tables -/

/-- Settles O5: CONFIGURE writes the tables and two flags, and every other instruction keeps all that the host writes.
-/
theorem instructionsNeverWriteHostState : Obligations.InstructionsNeverWriteHostState := by
  unfold Obligations.InstructionsNeverWriteHostState
  intro i s t h
  by_cases hi : i = .configure
  · subst hi
    obtain ⟨_, rfl⟩ | rfl := execConfigure_cases h
    · simp
    · obtain hs | ⟨_, _, e, _, hs⟩ := turnAway_cases 0x01#8 s <;> simp [hs]
  · have hk := exec_keeps hi h
    exact ⟨hk.img, hk.quality, hk.width, hk.height, hk.mode, hk.srcLen, hk.params, hk.input, hk.lastRead⟩

/-- Settles O6: every instruction but CONFIGURE keeps the tables and `cfg_valid`. -/
theorem onlyConfigureWritesTables : Obligations.OnlyConfigureWritesTables := by
  unfold Obligations.OnlyConfigureWritesTables
  intro i s t hi h
  have hk := exec_keeps hi h
  exact ⟨hk.qt, hk.cfgValid⟩

/-! ### The sequencer's fields -/

/-- `t` has the predictors, the phase, the position and the sequencer's point of `s`. -/
structure KeepsPosition (s t : State) : Prop where
  pred : t.pred = s.pred
  phase : t.phase = s.phase
  y0 : t.y0 = s.y0
  x0 : t.x0 = s.x0
  c : t.c = s.c
  seq : t.seq = s.seq
  sent : t.sent = s.sent

theorem SendsTo.keepsPosition {s t : State} (h : SendsTo s t) : KeepsPosition s t := by
  obtain ⟨v, u, ⟨a, n, bs, as, rfl⟩, rfl⟩ | ⟨e, u, _, ⟨a, n, bs, as, rfl⟩, rfl⟩ := h <;>
    exact ⟨rfl, rfl, rfl, rfl, rfl, rfl, rfl⟩

theorem exec_keepsPosition {i : Instr} {s t : State} (hi : i ≠ .encode) (h : exec i s = .next t) :
    KeepsPosition s t := by
  obtain ⟨rfl, hc⟩ | ⟨rfl, _⟩ | ⟨x, y, rfl, rfl⟩ | ⟨b, rfl, rfl⟩ | ⟨b, q, rfl, rfl⟩ | ⟨_, _, hs⟩ := exec_cases h
  · obtain ⟨_, rfl⟩ | rfl := execConfigure_cases hc
    · exact ⟨rfl, rfl, rfl, rfl, rfl, rfl, rfl⟩
    · obtain hs | ⟨_, _, e, _, hs⟩ := turnAway_cases 0x01#8 s <;> rw [hs] <;>
        exact ⟨rfl, rfl, rfl, rfl, rfl, rfl, rfl⟩
  · exact absurd rfl hi
  · exact ⟨rfl, rfl, rfl, rfl, rfl, rfl, rfl⟩
  · exact ⟨rfl, rfl, rfl, rfl, rfl, rfl, rfl⟩
  · exact ⟨rfl, rfl, rfl, rfl, rfl, rfl, rfl⟩
  · exact hs.keepsPosition

/-- Settles O7: an operation writes the packer, the sink, the blocks or its result, and CONFIGURE the tables; none of
these is a predictor or the position. -/
theorem onlyEncodeWritesPredictorsAndPosition : Obligations.OnlyEncodeWritesPredictorsAndPosition := by
  unfold Obligations.OnlyEncodeWritesPredictorsAndPosition
  intro i s t hi h
  have hk := exec_keepsPosition hi h
  exact ⟨hk.pred, hk.phase, hk.y0, hk.x0, hk.c, hk.seq, hk.sent⟩

/-! ### The flags -/

/-- The three flags of an operation are as before, or those of a raise (R186). -/
def KeepsFlagsOrRaises (s t : State) : Prop :=
  (t.busy = s.busy ∧ t.err = s.err ∧ t.fatal = s.fatal) ∨
    (t.busy = false ∧ t.result = .none ∧
      ((t.err = .sinkWriteFailure ∧ t.fatal = s.fatal) ∨
        ((t.err = .huffmanLengthError ∨ t.err = .dhtCountMismatch) ∧ t.fatal = true)))

theorem SendsTo.flags {s t : State} (h : SendsTo s t) : KeepsFlagsOrRaises s t := by
  obtain ⟨v, u, ⟨a, n, bs, as, rfl⟩, rfl⟩ | ⟨e, u, he, ⟨a, n, bs, as, rfl⟩, rfl⟩ := h
  · exact .inl ⟨rfl, rfl, rfl⟩
  · refine .inr ⟨rfl, rfl, ?_⟩
    obtain rfl | rfl | rfl := he <;> simp [ErrCode.isFatal]

theorem exec_flags {i : Instr} {s t : State} (hc : i ≠ .configure) (he : i ≠ .encode) (h : exec i s = .next t) :
    KeepsFlagsOrRaises s t := by
  obtain ⟨rfl, _⟩ | ⟨rfl, _⟩ | ⟨x, y, rfl, rfl⟩ | ⟨b, rfl, rfl⟩ | ⟨b, q, rfl, rfl⟩ | ⟨_, _, hs⟩ := exec_cases h
  · exact absurd rfl hc
  · exact absurd rfl he
  · exact .inl ⟨rfl, rfl, rfl⟩
  · exact .inl ⟨rfl, rfl, rfl⟩
  · exact .inl ⟨rfl, rfl, rfl⟩
  · exact hs.flags

/-- Settles O10: an operation that sends ends in what it has sent, or raises on it; the others touch no flag. -/
theorem internalOperationsRaiseOrLeaveFlags : Obligations.InternalOperationsRaiseOrLeaveFlags := by
  unfold Obligations.InternalOperationsRaiseOrLeaveFlags
  exact fun i s t hc he h => exec_flags hc he h

/-! ### The accumulator -/

/-- `t` has the accumulator of `s`. -/
abbrev KeepsAcc (s t : State) : Prop := t.acc = s.acc ∧ t.nbits = s.nbits

theorem finish_eq_last (r : Run OpResult) : ∃ v, finish r = .next (returned v r.last) := by
  cases r with
  | done v s => exact ⟨v, rfl⟩
  | raised s => exact ⟨.none, rfl⟩

theorem finishUnit_eq_last (r : Run Unit) : finishUnit r = .next (returned .none r.last) := by
  cases r <;> rfl

theorem sinkBytes_acc (bs : List Byte) (s : State) : KeepsAcc s (sinkBytes bs s).last := by
  refine Run.last_forEach (P := KeepsAcc s) (fun b t ht => ?_) bs s ⟨rfl, rfl⟩
  have hb := sinkByte_acc b t
  exact ⟨hb.1.trans ht.1, hb.2.trans ht.2⟩

theorem dhtData_last_acc (cls : TableClass) (dest : TableSet) (bits : Counts) (vals : List Byte) (s : State) :
    KeepsAcc s (dhtData cls dest bits vals s).last := by
  unfold dhtData
  split <;> exact ⟨rfl, rfl⟩

/-- An operation that keeps the accumulator keeps it as an instruction. -/
theorem keepsAcc_of_finish {r : Run OpResult} {s t : State} (hr : KeepsAcc s r.last) (h : finish r = .next t) :
    KeepsAcc s t := by
  obtain ⟨v, hv⟩ := finish_eq_last r
  obtain rfl := Host.Outcome.next.inj (hv.symm.trans h)
  exact hr

theorem keepsAcc_of_finishUnit {r : Run Unit} {s t : State} (hr : KeepsAcc s r.last) (h : finishUnit r = .next t) :
    KeepsAcc s t := by
  obtain rfl := Host.Outcome.next.inj ((finishUnit_eq_last r).symm.trans h)
  exact hr

/-- Settles O8: what is left are single bytes and segments, which pass the accumulator by (R102), the builders, and the
operations that write no more than a block or the tables. -/
theorem accumulatorWrittenOnlyThroughWriteBits : Obligations.AccumulatorWrittenOnlyThroughWriteBits := by
  unfold Obligations.AccumulatorWrittenOnlyThroughWriteBits
  intro i s t h hencode hpad hbits hhuff heob hzrl hblock
  cases i with
  | encode => exact absurd rfl hencode
  | padByte => exact absurd rfl hpad
  | writeBits code n => exact absurd rfl (hbits code n)
  | huffmanEncode sym tb => exact absurd rfl (hhuff sym tb)
  | eob ta => exact absurd rfl (heob ta)
  | zrl ta => exact absurd rfl (hzrl ta)
  | writeBlock b p td ta => exact absurd rfl (hblock b p td ta)
  | configure =>
    obtain ⟨_, rfl⟩ | rfl := execConfigure_cases h
    · simp
    · obtain hs | ⟨_, _, e, _, hs⟩ := turnAway_cases 0x01#8 s <;> simp [hs]
  | sinkByte b => exact keepsAcc_of_finishUnit (sinkByte_acc b s) h
  | writeSegment m d =>
    simp only [exec, execWriteSegment] at h
    split at h
    · exact keepsAcc_of_finishUnit (sinkBytes_acc _ s) h
    · cases h
  | soi | app0 | sof0 | dqt | sos | eoi => exact keepsAcc_of_finishUnit (sinkBytes_acc _ s) h
  | dht cls dest =>
    refine keepsAcc_of_finishUnit ?_ h
    rw [emitDht_eq]
    exact sinkBytes_acc _ s
  | buildDht cls dest bits vals =>
    refine keepsAcc_of_finish ?_ h
    exact Run.last_bind (P := KeepsAcc s) (dhtData_last_acc cls dest bits vals s) (fun _ _ hu => hu)
  | _ => obtain rfl := Host.Outcome.next.inj h; exact ⟨rfl, rfl⟩

end Sys2Proof.Machine
end

section
/-! PROOFS. The packer between two instructions (R16, R97 (g), R97 (h), R212): the whole encode leaves it ready like
every operation, and the operations that go through WRITE_BITS are the only ones to touch it. -/
namespace Sys2Proof.Machine
open Sys2Proof

/-! ### The encode -/

/-- Changes that use no answer of the sink, before an operation. -/
theorem ReadyRun.of_sinkAnswers {α : Type} {s u : State} {r : Run α} (h : u.sinkAnswers = s.sinkAnswers)
    (hr : ReadyRun u r) : ReadyRun s r := by
  have hu : Accepted 0 s u := ⟨fun _ ha => by simp at ha, by simp [h]⟩
  cases hr with
  | done v ht used => exact .done v ht (hu.trans used)
  | raised a b c => exact .raised a b (c.imp id fun d => ⟨d.1, hu.failed d.2⟩)

/-- Changes that leave the packer and the answers alone, after an operation. -/
theorem ReadyRun.done_of_eq {α : Type} (v : α) {s t : State} (h : PackerReady s) (hacc : KeepsAcc s t)
    (hans : t.sinkAnswers = s.sinkAnswers) : ReadyRun s (.done v t) := by
  refine .done v ?_ (m := 0) ⟨fun _ ha => by simp at ha, by simp [hans]⟩
  obtain ⟨ha, hn⟩ := hacc
  unfold PackerReady AccClean
  rw [ha, hn]
  exact h

theorem sinkBytes_ready (bs : List Byte) {s : State} (h : PackerReady s) : ReadyRun s (sinkBytes bs s) :=
  ReadyRun.forEach _ (fun b _ _ g => sinkByte_ready b g) s h

theorem emitHeader_ready {s : State} (h : PackerReady s) : ReadyRun s (emitHeader s) := by
  rw [emitHeader_eq]
  exact (sinkBytes_ready _ h).bind fun _ _ g => .done_of_eq () g ⟨rfl, rfl⟩ rfl

/-- The state in which a component is coded: transformed and quantised (R163, R167). -/
def quantizedState (c : Comp) (s : State) : State :=
  quantizeInto (fdct s.params.fdct (s.samp.get c)) (s.qt.get (descriptor c).tq)
    (fdctInto (s.samp.get c) { s with c := c })

theorem encodeComp_eq (c : Comp) (s : State) :
    encodeComp c s = (writeBlock (quantizedState c s).q (s.pred.get c) (descriptor c).td (descriptor c).ta
      (quantizedState c s)).bind fun v t => .done () (setPred c v t) := rfl

/-- The state in which the components of a position are coded: sampled (R163, R166). -/
def sampledState (p : Nat × Nat) (s : State) : State :=
  sampleBlock p.2 p.1 { s with y0 := p.1, x0 := p.2, c := .y }

theorem encodePosition_eq (p : Nat × Nat) (s : State) :
    encodePosition p s = forEach encodeComp (comps s.ncomp) (sampledState p s) := rfl

theorem encodeComp_ready (c : Comp) {s : State} (h : PackerReady s) : ReadyRun s (encodeComp c s) := by
  have hq : PackerReady (quantizedState c s) := h
  rw [encodeComp_eq]
  exact ReadyRun.of_sinkAnswers (u := quantizedState c s) rfl
    ((writeBlock_ready _ _ _ _ hq).bind fun _ _ g => .done_of_eq () g ⟨rfl, rfl⟩ rfl)

theorem encodePosition_ready (p : Nat × Nat) {s : State} (h : PackerReady s) : ReadyRun s (encodePosition p s) := by
  have hs : PackerReady (sampledState p s) := h
  rw [encodePosition_eq]
  exact ReadyRun.of_sinkAnswers (u := sampledState p s) rfl
    (ReadyRun.forEach _ (fun c _ _ g => encodeComp_ready c g) _ hs)

theorem encodeScan_ready {s : State} (h : PackerReady s) : ReadyRun s (encodeScan s) :=
  ReadyRun.of_sinkAnswers (u := { s with phase := .scanningBlocks }) rfl
    (ReadyRun.forEach _ (fun p _ _ g => encodePosition_ready p g) _ h)

theorem encodeEnd_ready {s : State} (h : PackerReady s) : ReadyRun s (encodeEnd s) :=
  (writeBits_ready _ _ h).bind fun _ _ g => (writeSegment_ready _ _ g).bind fun _ _ f => .done_of_eq () f ⟨rfl, rfl⟩ rfl

theorem encodeStart_packerReady (s : State) : PackerReady (encodeStart s) :=
  ⟨Nat.zero_le 7, fun _ _ => by simp⟩

theorem encodeRun_ready (s : State) : ReadyRun s (encodeRun s) :=
  ReadyRun.of_sinkAnswers (u := encodeStart s) rfl ((emitHeader_ready (encodeStart_packerReady s)).bind fun _ _ g =>
    (encodeScan_ready g).bind fun _ _ f => encodeEnd_ready f)

/-! ### Instructions -/

/-- How an instruction that began with the packer ready has ended. -/
def StaysReady (s t : State) : Prop :=
  AccClean t ∧ (t.nbits ≤ 7 ∨ (t.busy = false ∧ t.err = .sinkWriteFailure ∧ Failed s t))

theorem ReadyRun.staysReady {α : Type} {s : State} {r : Run α} (h : ReadyRun s r) : StaysReady s r.last := by
  cases h with
  | done v ht _ => exact ⟨ht.2, .inl ht.1⟩
  | raised clean idle bits => exact ⟨clean, bits.imp id fun ⟨he, hf⟩ => ⟨idle, he, hf⟩⟩

theorem staysReady_of_keepsAcc {s t : State} (h : PackerReady s) (hacc : KeepsAcc s t) : StaysReady s t := by
  obtain ⟨ha, hn⟩ := hacc
  unfold StaysReady AccClean
  rw [ha, hn]
  exact ⟨h.2, .inl h.1⟩

theorem staysReady_of_finish {r : Run OpResult} {s t : State} (hr : ReadyRun s r) (h : finish r = .next t) :
    StaysReady s t := by
  obtain ⟨v, hv⟩ := finish_eq_last r
  obtain rfl := Host.Outcome.next.inj (hv.symm.trans h)
  exact hr.staysReady

theorem staysReady_of_finishUnit {r : Run Unit} {s t : State} (hr : ReadyRun s r) (h : finishUnit r = .next t) :
    StaysReady s t := by
  obtain rfl := Host.Outcome.next.inj ((finishUnit_eq_last r).symm.trans h)
  exact hr.staysReady

/-- The operations that go through WRITE_BITS end ready or cut; the others keep the accumulator. -/
theorem exec_staysReady {i : Instr} {s t : State} (hs : PackerReady s) (h : exec i s = .next t) : StaysReady s t := by
  have hacc := accumulatorWrittenOnlyThroughWriteBits i s t h
  cases i with
  | encode =>
    obtain ⟨_, rfl⟩ | rfl := execEncode_cases h
    · have hr := (encodeRun_ready s).staysReady
      cases hrun : encodeRun s <;> rw [hrun] at hr <;> exact hr
    · obtain ht | ⟨_, _, e, _, ht⟩ := turnAway_cases 0x02#8 s <;> rw [ht] <;> exact ⟨hs.2, .inl hs.1⟩
  | padByte | writeBits => exact staysReady_of_finishUnit (writeBits_ready _ _ hs) h
  | huffmanEncode | eob | zrl => exact staysReady_of_finishUnit (huffmanEncode_ready _ _ hs) h
  | writeBlock => exact staysReady_of_finish ((writeBlock_ready _ _ _ _ hs).bind fun _ _ g => .pure _ g) h
  | _ => exact staysReady_of_keepsAcc hs (hacc (by simp) (by simp) (by simp) (by simp) (by simp) (by simp) (by simp))

/-- Settles O11: an operation that goes through WRITE_BITS leaves the packer ready, unless a failing write of its own
cut it; the rest keep the accumulator. -/
theorem packerStaysReadyUnlessSinkFails : Obligations.PackerStaysReadyUnlessSinkFails := by
  unfold Obligations.PackerStaysReadyUnlessSinkFails
  exact fun i s t hs h => exec_staysReady hs h

end Sys2Proof.Machine
end

section
/-! PROOFS. One induction over the operations that send: whatever relation of two states the sink write, a change of the
accumulator and a raise respect, WRITE_BITS, the symbols and WRITE_BLOCK respect too. -/
namespace Sys2Proof.Machine
open Sys2Proof

/-! ### Two runs side by side -/

/-- Two runs that end the same way, with the same value: related by `D` if they finish, by `E` if they raise. -/
inductive Run.Pairs (D E : State → State → Prop) {α : Type} : Run α → Run α → Prop
  | done (v : α) {s t : State} (h : D s t) : Run.Pairs D E (.done v s) (.done v t)
  | raised {s t : State} (h : E s t) : Run.Pairs D E (.raised s) (.raised t)

theorem Run.Pairs.bind {D D' E : State → State → Prop} {α β : Type} {m n : Run α} {k l : α → State → Run β}
    (hm : Run.Pairs D E m n) (hk : ∀ v s t, D s t → Run.Pairs D' E (k v s) (l v t)) :
    Run.Pairs D' E (m.bind k) (n.bind l) := by
  cases hm with
  | done v h => exact hk v _ _ h
  | raised h => exact .raised h

theorem Run.Pairs.forEach {D E : State → State → Prop} {α : Type} {f : α → State → Run Unit} :
    ∀ (as : List α), (∀ a ∈ as, ∀ s t, D s t → Run.Pairs D E (f a s) (f a t)) → ∀ {s t : State}, D s t →
      Run.Pairs D E (forEach f as s) (forEach f as t)
  | [], _, _, _, h => .done () h
  | a :: as, hf, _, _, h =>
    (hf a (by simp) _ _ h).bind fun _ _ _ h => Run.Pairs.forEach as (fun b hb => hf b (by simp [hb])) h

/-- What the operations that send ask of two relations: `D` sees the accumulator, lets it change, and follows a sink
write; the raise of a symbol without a code leads from `D` to `E`. -/
structure Sendable (D E : State → State → Prop) : Prop where
  acc : ∀ {s t}, D s t → s.acc = t.acc ∧ s.nbits = t.nbits
  setAcc : ∀ {s t}, D s t → ∀ a n, D { s with acc := a, nbits := n } { t with acc := a, nbits := n }
  sinkByte : ∀ {s t}, D s t → ∀ b, Run.Pairs D E (sinkByte b s) (sinkByte b t)
  raise : ∀ {s t}, D s t → E (raiseError .huffmanLengthError s) (raiseError .huffmanLengthError t)

/-- What the operations that send symbols ask: WRITE_BITS keeps `D` or raises into `E`, and a symbol without a code
leads from `D` to `E`. -/
structure Coding (D E : State → State → Prop) : Prop where
  writeBits : ∀ {s t}, D s t → ∀ code n, Run.Pairs D E (writeBits code n s) (writeBits code n t)
  raise : ∀ {s t}, D s t → E (raiseError .huffmanLengthError s) (raiseError .huffmanLengthError t)

section
variable {D E : State → State → Prop} {s t : State} (hD : Sendable D E)
include hD

theorem Sendable.sinkBytes (h : D s t) (bs : List Byte) : Run.Pairs D E (sinkBytes bs s) (sinkBytes bs t) :=
  Run.Pairs.forEach bs (fun b _ _ _ h => hD.sinkByte h b) h

theorem Sendable.flushByte (h : D s t) : Run.Pairs D E (flushByte s) (flushByte t) := by
  unfold Machine.flushByte
  rw [(hD.acc h).1]
  refine (hD.sinkByte h _).bind fun _ s t h => Run.Pairs.bind (D := D) ?_ fun _ s t h => ?_
  · split
    · exact hD.sinkByte h _
    · exact .done () h
  · obtain ⟨ha, hn⟩ := hD.acc h
    rw [ha, hn]
    exact .done () (hD.setAcc h _ _)

theorem Sendable.flushLoop (n : Nat) (h : D s t) : Run.Pairs D E (flushLoop n s) (flushLoop n t) := by
  induction n generalizing s t with
  | zero => exact .done () h
  | succ n ih =>
    unfold Machine.flushLoop
    rw [(hD.acc h).2]
    split
    · exact .done () h
    · exact (hD.flushByte h).bind fun _ _ _ h => ih h

theorem Sendable.writeBits (h : D s t) (code : BitVec 16) (n : Nat) :
    Run.Pairs D E (writeBits code n s) (writeBits code n t) := by
  obtain ⟨ha, hn⟩ := hD.acc h
  unfold Machine.writeBits
  rw [ha, hn]
  split
  · exact .done () h
  · exact hD.flushLoop _ (hD.setAcc h _ _)

theorem Sendable.coding : Coding D E := ⟨fun h => hD.writeBits h, fun h => hD.raise h⟩

end

section
variable {D E : State → State → Prop} {s t : State} (hD : Coding D E)
include hD

theorem Coding.huffmanEncode (h : D s t) (sym : Byte) (tb : HuffTable) :
    Run.Pairs D E (huffmanEncode sym tb s) (huffmanEncode sym tb t) := by
  unfold Machine.huffmanEncode
  dsimp only
  split
  · exact .raised (hD.raise h)
  · exact hD.writeBits h _ _

theorem Coding.writeValue (h : D s t) (sym : Byte) (tb : HuffTable) (v : Int) :
    Run.Pairs D E (writeValue sym tb v s) (writeValue sym tb v t) :=
  (hD.huffmanEncode h sym tb).bind fun _ _ _ h => hD.writeBits h _ _

theorem Coding.writeAc (h : D s t) (ta : TableSet) (run : Nat) (v : Int) :
    Run.Pairs D E (writeAc ta run v s) (writeAc ta run v t) := by
  refine (Run.Pairs.forEach (D := D) _ (fun _ _ _ _ h => hD.huffmanEncode h _ _) h).bind fun _ s t h => ?_
  split
  · exact .raised (hD.raise h)
  · exact hD.writeValue h _ _ v

theorem Coding.scanAc (h : D s t) (ta : TableSet) (vs : List Coef) (run : Nat) :
    Run.Pairs D E (scanAc ta vs run s) (scanAc ta vs run t) := by
  induction vs generalizing run s t with
  | nil =>
    unfold Machine.scanAc
    split
    · exact hD.huffmanEncode h _ _
    · exact .done () h
  | cons v vs ih =>
    unfold Machine.scanAc
    split
    · exact ih h (run + 1)
    · exact (hD.writeAc h ta run _).bind fun _ _ _ h => ih h 0

theorem Coding.writeBlock (h : D s t) (block : Block Coef) (prev : Coef) (td ta : TableSet) :
    Run.Pairs D E (writeBlock block prev td ta s) (writeBlock block prev td ta t) :=
  (hD.writeValue h _ _ _).bind fun _ _ _ h => (hD.scanAc h ta _ 0).bind fun _ _ _ h => .done _ h

end

/-! ### One run -/

/-- The run finishes in a state with `P`, or raises in one with `Q`. -/
def Run.Ends (P Q : State → Prop) {α : Type} : Run α → Prop
  | .done _ s => P s
  | .raised s => Q s

theorem Run.Ends.bind {P P' Q : State → Prop} {α β : Type} {m : Run α} {k : α → State → Run β}
    (hm : m.Ends P Q) (hk : ∀ v s, P s → (k v s).Ends P' Q) : (m.bind k).Ends P' Q := by
  cases m with
  | done v s => exact hk v s hm
  | raised s => exact hm

theorem Run.Ends.forEach {P Q : State → Prop} {α : Type} {f : α → State → Run Unit} :
    ∀ (as : List α), (∀ a ∈ as, ∀ s, P s → (f a s).Ends P Q) → ∀ {s : State}, P s → (forEach f as s).Ends P Q
  | [], _, _, h => h
  | a :: as, hf, _, h =>
    (hf a (by simp) _ h).bind fun _ _ h => Run.Ends.forEach as (fun b hb => hf b (by simp [hb])) h

theorem Run.Ends.last {P : State → Prop} {α : Type} {m : Run α} (h : m.Ends P P) : P m.last := by
  cases m <;> exact h

/-- A property as a relation: of a state to itself. -/
abbrev Itself (P : State → Prop) (s t : State) : Prop := s = t ∧ P s

theorem Run.Pairs.ends {P Q : State → Prop} {α : Type} {m : Run α} (h : Run.Pairs (Itself P) (Itself Q) m m) :
    m.Ends P Q := by
  cases m with
  | done v s => cases h with | done _ h => exact h.2
  | raised s => cases h with | raised h => exact h.2

theorem Run.Ends.pairs {P Q : State → Prop} {α : Type} {m : Run α} (h : m.Ends P Q) :
    Run.Pairs (Itself P) (Itself Q) m m := by
  cases m with
  | done v s => exact .done v ⟨rfl, h⟩
  | raised s => exact .raised ⟨rfl, h⟩

/-- The one-state form: `P` lets the accumulator change and follows a sink write, or that write raises into `Q`. -/
theorem sendable_itself {P Q : State → Prop} (hacc : ∀ {s}, P s → ∀ a n, P { s with acc := a, nbits := n })
    (hbyte : ∀ {s}, P s → ∀ b, (sinkByte b s).Ends P Q) (hraise : ∀ {s}, P s → Q (raiseError .huffmanLengthError s)) :
    Sendable (Itself P) (Itself Q) where
  acc := by rintro s _ ⟨rfl, _⟩; exact ⟨rfl, rfl⟩
  setAcc := by rintro s _ ⟨rfl, h⟩ a n; exact ⟨rfl, hacc h a n⟩
  sinkByte := by rintro s _ ⟨rfl, h⟩ b; exact (hbyte h b).pairs
  raise := by rintro s _ ⟨rfl, h⟩; exact ⟨rfl, hraise h⟩

/-- The one-state form for a property that only WRITE_BITS as a whole keeps. -/
theorem coding_itself {P Q : State → Prop} (hbits : ∀ {s}, P s → ∀ code n, (writeBits code n s).Ends P Q)
    (hraise : ∀ {s}, P s → Q (raiseError .huffmanLengthError s)) : Coding (Itself P) (Itself Q) where
  writeBits := by rintro s _ ⟨rfl, h⟩ code n; exact (hbits h code n).pairs
  raise := by rintro s _ ⟨rfl, h⟩; exact ⟨rfl, hraise h⟩

/-! ### The accumulator stays clean -/

theorem Run.ends_of_last {P : State → Prop} {α : Type} {m : Run α} (h : P m.last) : m.Ends P P := by
  cases m <;> exact h

/-- With any number of bits pending, a raise included (R97 (h)). -/
theorem accClean_coding : Coding (Itself AccClean) (Itself AccClean) :=
  coding_itself (fun h code n => Run.ends_of_last (writeBits_clean code n h)) (fun h => h)

theorem accClean_of_keepsAcc {s t : State} (h : AccClean s) (hacc : KeepsAcc s t) : AccClean t := by
  unfold AccClean
  rw [hacc.1, hacc.2]
  exact h

theorem finish_clean {r : Run OpResult} {t : State} (hr : r.Ends AccClean AccClean) (h : finish r = .next t) :
    AccClean t := by
  obtain ⟨v, hv⟩ := finish_eq_last r
  obtain rfl := Host.Outcome.next.inj (hv.symm.trans h)
  exact hr.last

theorem finishUnit_clean {r : Run Unit} {t : State} (hr : r.Ends AccClean AccClean) (h : finishUnit r = .next t) :
    AccClean t := by
  obtain rfl := Host.Outcome.next.inj ((finishUnit_eq_last r).symm.trans h)
  exact hr.last

/-- Every instruction leaves the bits below the pending ones 0. -/
theorem exec_clean {i : Instr} {s t : State} (hs : AccClean s) (h : exec i s = .next t) : AccClean t := by
  have hacc := accumulatorWrittenOnlyThroughWriteBits i s t h
  have hself : Itself AccClean s s := ⟨rfl, hs⟩
  cases i with
  | encode =>
    obtain ⟨_, rfl⟩ | rfl := execEncode_cases h
    · have hr := (encodeRun_ready s).staysReady.1
      cases hrun : encodeRun s <;> rw [hrun] at hr <;> exact hr
    · obtain ht | ⟨_, _, e, _, ht⟩ := turnAway_cases 0x02#8 s <;> rw [ht] <;> exact hs
  | padByte | writeBits => exact finishUnit_clean (accClean_coding.writeBits hself _ _).ends h
  | huffmanEncode | eob | zrl => exact finishUnit_clean (accClean_coding.huffmanEncode hself _ _).ends h
  | writeBlock =>
    refine finish_clean ((accClean_coding.writeBlock hself _ _ _ _).ends.bind ?_) h
    exact fun _ _ hu => hu
  | _ =>
    exact accClean_of_keepsAcc hs (hacc (by simp) (by simp) (by simp) (by simp) (by simp) (by simp) (by simp))

end Sys2Proof.Machine
end

section
/-! PROOFS. WRITE_BITS and PAD_BYTE as instructions (R96, R97, R99): the bits sent, or cut at a failing write. -/
namespace Sys2Proof.Machine
open Sys2Proof

/-! ### One code -/

/-- The instruction sends `bits` whole, or is cut at a failing write. -/
def SendsOrIsCut (o : Host.Outcome State Fault Refusal) (bits : List Bool) (s : State) : Prop :=
  (SinkAcceptsBits bits s → o = .next (returned .none (packed bits s))) ∧
    ∀ k, SinkCutsBits bits k s → o = .next (returned .none (packedCut bits k s))

theorem SendsCodes.sendsOrIsCut {s : State} {r : Run Unit} {bits : List Bool} (h : SendsCodes s r [bits] ()) :
    SendsOrIsCut (finishUnit r) bits s := by
  have hflat : [bits].flatten = bits := List.flatten_singleton
  constructor
  · intro hsink
    rw [h.sends.accepts (by rwa [hflat]), hflat, ← packed_eq, finishUnit_done]
  · intro k hk
    rw [h.cut k (by rwa [hflat]), cutCodes, if_pos hk.1, finishUnit_raised]

theorem exec_writeBits (code : BitVec 16) (n : Fin 17) (s : State) :
    exec (.writeBits code n) s = finishUnit (writeBits code n.val s) := rfl

/-- Settles O29: from a ready packer the register operations of R96 are those of the bit string, whole and cut. -/
theorem writeBitsAppendsToPendingBits : Obligations.WriteBitsAppendsToPendingBits := by
  unfold Obligations.WriteBitsAppendsToPendingBits
  intro code n s hs
  exact (writeBits_sendsCodes code (by omega) hs).sendsOrIsCut

/-! ### Length 0 and the high bits of the code -/

theorem writeBits_zero (code : BitVec 16) (s : State) : writeBits code 0 s = .done () s := if_pos rfl

/-- The bits merged are the low ones. -/
theorem mergeBits_mod (acc : BitVec 32) (m : Nat) (code : BitVec 16) (n : Nat) :
    mergeBits acc m (BitVec.ofNat 16 (code.toNat % 2 ^ n)) n = mergeBits acc m code n := by
  have hlt : code.toNat % 2 ^ n < 2 ^ 16 := Nat.lt_of_le_of_lt (Nat.mod_le _ _) code.isLt
  unfold mergeBits
  rw [BitVec.toNat_ofNat, Nat.mod_eq_of_lt hlt, Nat.mod_mod]

/-- Settles O30: no bit is merged of length 0, and the bits merged are the code modulo `2 ^ n`. -/
theorem writeBitsIgnoresHighBits : Obligations.WriteBitsIgnoresHighBits := by
  unfold Obligations.WriteBitsIgnoresHighBits
  intro code s
  constructor
  · rw [exec_writeBits, Fin.val_zero, writeBits_zero, finishUnit_done]
  · intro n
    simp only [exec_writeBits, writeBits, mergeBits_mod]

/-! ### PAD_BYTE -/

theorem exec_padByte (s : State) : exec .padByte s = finishUnit (padByte s) := rfl

theorem bitsOf_seven_ones : bitsOf 7 0x7F = List.replicate 7 true := by decide

theorem padByte_sendsCodes {s : State} (h : PackerReady s) :
    SendsCodes s (padByte s) [List.replicate 7 true] () := by
  rw [← bitsOf_seven_ones]
  exact writeBits_sendsCodes 0x7F#16 (by decide) h

theorem acc_eq_zero_of_clean {s : State} (h : AccClean s) (hn : s.nbits = 0) : s.acc = 0#32 := by
  apply BitVec.eq_of_getLsbD_eq
  intro i hi
  simpa using h i (by omega)

/-- With `n` bits pending, 1 to 7, the seven ones fill a byte and leave `n - 1`. -/
theorem packed_seven_ones {s : State} (h1 : 1 ≤ s.nbits) (h7 : s.nbits ≤ 7) :
    let b := BitVec.ofNat 8 (natOfBits (pend s ++ List.replicate (8 - s.nbits) true))
    packedBytes (pend s ++ List.replicate 7 true) = stuffed [b] ∧
      leftover (pend s ++ List.replicate 7 true) = List.replicate (s.nbits - 1) true := by
  have hlen : 8 ≤ (pend s ++ List.replicate 7 true).length := by simp; omega
  have htake : (pend s ++ List.replicate 7 true).take 8 = pend s ++ List.replicate (8 - s.nbits) true := by
    rw [List.take_append, List.take_of_length_le (by simp; omega), length_pend, List.take_replicate,
      Nat.min_eq_left (by omega)]
  have hdrop : (pend s ++ List.replicate 7 true).drop 8 = List.replicate (s.nbits - 1) true := by
    rw [List.drop_append, List.drop_eq_nil_of_le (by simp; omega), length_pend, List.drop_replicate, List.nil_append,
      show 7 - (8 - s.nbits) = s.nbits - 1 by omega]
  have hshort : (List.replicate (s.nbits - 1) true).length < 8 := by simp; omega
  constructor
  · rw [packedBytes_long hlen, htake, hdrop, packedBytes_short hshort, List.append_nil]
  · rw [leftover_long hlen, hdrop, leftover_short hshort]

/-- Settles O31: PAD_BYTE is seven ones through WRITE_BITS, which fill no byte, or one. -/
theorem padByteFlushesPendingBits : Obligations.PadByteFlushesPendingBits := by
  unfold Obligations.PadByteFlushesPendingBits
  intro s hclean
  refine ⟨fun h0 => ?_, fun h1 h7 => ?_, fun h7 => ?_⟩
  · rw [exec_padByte, padByte_of_empty (acc_eq_zero_of_clean hclean h0) h0]
    rfl
  · obtain ⟨hbytes, hleft⟩ := packed_seven_ones h1 h7
    intro b hsink
    have hsends := (padByte_sendsCodes ⟨h7, hclean⟩).sendsOrIsCut.1 (by rwa [SinkAcceptsBits, hbytes])
    rw [exec_padByte, hsends, packed_eq, withBits, hbytes, hleft, List.length_replicate]
  · exact (padByte_sendsCodes ⟨h7, hclean⟩).sendsOrIsCut.2

end Sys2Proof.Machine
end

section
/-! PROOFS. WRITE_SEGMENT and the marker emissions (R64, R100, R101): each writes its byte string, or is cut where a
write fails. -/
namespace Sys2Proof.Machine
open Sys2Proof

/-! ### A byte string -/

/-- Write number `k` of a byte string failed: what is left is exactly the bytes before it, and the error. -/
theorem sinkBytes_cut {bs : List Byte} : ∀ {k : Nat} {s : State}, k < bs.length → SinkFailsAfter k s →
    sinkBytes bs s = .raised (cutBytes bs k s) := by
  induction bs with
  | nil => intro k s hk; simp at hk
  | cons b bs ih =>
    intro k s hk hf
    have hcons : sinkBytes (b :: bs) s = (sinkByte b s).bind fun _ t => sinkBytes bs t := rfl
    rw [hcons]
    cases k with
    | zero =>
      rw [sinkByte_failed hf, Run.bind_raised]
      simp [cutBytes]
    | succ k =>
      obtain ⟨h1, hrest⟩ := sinkAccepts_append (m := 1) rfl (Nat.add_comm k 1 ▸ hf.1)
      have hf' : SinkFailsAfter k (appended [b] s) := ⟨hrest, by simpa using hf.2⟩
      rw [sinkByte_accepted h1, Run.bind_done, ih (by simpa using hk) hf']
      simp [cutBytes, appended]

/-- The instruction writes `bs` whole, or is cut at a failing write. -/
def WritesOrIsCut (o : Host.Outcome State Fault Refusal) (bs : List Byte) (s : State) : Prop :=
  (SinkAccepts bs.length s → o = .next (returned .none (appended bs s))) ∧
    ∀ k, SinkFailsAfter k s → k < bs.length → o = .next (returned .none (cutBytes bs k s))

theorem sinkBytes_writesOrIsCut (bs : List Byte) (s : State) : WritesOrIsCut (finishUnit (sinkBytes bs s)) bs s :=
  ⟨fun h => by rw [(sinkBytes_emits bs s).accepts h, finishUnit_done],
    fun k hf hk => by rw [sinkBytes_cut hk hf, finishUnit_raised]⟩

/-! ### WRITE_SEGMENT -/

theorem exec_writeSegment {m : Byte} {data : Option (List Byte)} (h : segmentDataOk data = true) (s : State) :
    exec (.writeSegment m data) s = finishUnit (sinkBytes (segmentBytes m data) s) := if_pos h

theorem halfBE_of_bytes {hi lo : Byte} {n : Nat} (h : hi.toNat * 256 + lo.toNat = n) :
    halfBE (BitVec.ofNat 16 n) = [hi, lo] := by
  have hlo := lo.isLt
  have hhi := hi.isLt
  subst h
  have h1 : (BitVec.ofNat 16 (hi.toNat * 256 + lo.toNat)).extractLsb' 8 8 = hi := by
    apply BitVec.eq_of_toNat_eq
    simp only [BitVec.extractLsb'_toNat, BitVec.toNat_ofNat, Nat.shiftRight_eq_div_pow]
    omega
  have h2 : (BitVec.ofNat 16 (hi.toNat * 256 + lo.toNat)).extractLsb' 0 8 = lo := by
    apply BitVec.eq_of_toNat_eq
    simp only [BitVec.extractLsb'_toNat, BitVec.toNat_ofNat, Nat.shiftRight_zero]
    omega
  rw [halfBE, h1, h2]

/-- Settles O32: the segment's bytes, with its length field as two bytes, are one byte string; longer data is turned
down first. -/
theorem writeSegmentWritesItsBytes : Obligations.WriteSegmentWritesItsBytes := by
  unfold Obligations.WriteSegmentWritesItsBytes
  intro m s
  refine ⟨fun h => ?_, fun d hi lo hd hlen h => ?_, fun d hd => ?_⟩
  · rw [exec_writeSegment rfl]
    exact (sinkBytes_writesOrIsCut _ s).1 h
  · have hbytes : segmentBytes m (some d) = [0xFF#8, m, hi, lo] ++ d := by
      simp [segmentBytes, halfBE_of_bytes hlen]
    rw [exec_writeSegment (by simpa [segmentDataOk] using hd), hbytes]
    exact (sinkBytes_writesOrIsCut _ s).1 (by simpa using h)
  · have hlong : segmentDataOk (some d) = false := by simpa [segmentDataOk] using hd
    simp [exec, execWriteSegment, hlong]

/-- Settles O33: a segment is one byte string, cut where the write fails. -/
theorem segmentIsCutAtFailingWrite : Obligations.SegmentIsCutAtFailingWrite := by
  unfold Obligations.SegmentIsCutAtFailingWrite
  intro m data k s hdata hk hf
  rw [exec_writeSegment hdata]
  exact (sinkBytes_writesOrIsCut _ s).2 k hf hk

/-! ### Marker emissions -/

/-- Settles O51: each of the three is the write of a constant byte string. -/
theorem fixedMarkersWriteTheirBytes : Obligations.FixedMarkersWriteTheirBytes := by
  unfold Obligations.FixedMarkersWriteTheirBytes
  intro s app0
  have hsoi : WritesOrIsCut (exec .soi s) [0xFF#8, 0xD8#8] s := sinkBytes_writesOrIsCut _ s
  have heoi : WritesOrIsCut (exec .eoi s) [0xFF#8, 0xD9#8] s := sinkBytes_writesOrIsCut _ s
  have happ0 : WritesOrIsCut (exec .app0 s) app0 s := sinkBytes_writesOrIsCut _ s
  exact ⟨fun h => ⟨hsoi.1 h, heoi.1 h⟩, happ0.1, fun k hf =>
    ⟨fun hk => ⟨hsoi.2 k hf hk, heoi.2 k hf hk⟩, happ0.2 k hf⟩⟩

/-- A segment with data, with its length field written out. -/
theorem segmentBytes_of_length {m hi lo : Byte} {d : List Byte} (h : hi.toNat * 256 + lo.toNat = d.length + 2) :
    segmentBytes m (some d) = [0xFF#8, m, hi, lo] ++ d := by
  simp [segmentBytes, halfBE_of_bytes h]

theorem exec_sof0 (s : State) :
    exec .sof0 s = finishUnit (sinkBytes (segmentBytes 0xC0#8 (some (sof0Data s.height s.width s.ncomp))) s) := rfl

theorem exec_sos (s : State) :
    exec .sos s = finishUnit (sinkBytes (segmentBytes 0xDA#8 (some (sosData s.ncomp))) s) := rfl

theorem ncomp_of_mode_color {s : State} (h : s.mode = 0#2 ∨ s.mode = 1#2) : s.ncomp = .three := by
  unfold State.ncomp State.colorMode
  obtain h | h := h <;> rw [h] <;> rfl

theorem ncomp_of_mode_gray {s : State} (h : s.mode = 2#2 ∨ s.mode = 3#2) : s.ncomp = .one := by
  unfold State.ncomp State.colorMode
  obtain h | h := h <;> rw [h] <;> rfl

/-- Settles O52: MODE selects the number of components, and with it both byte strings. -/
theorem frameMarkersWriteTheirBytes : Obligations.FrameMarkersWriteTheirBytes := by
  unfold Obligations.FrameMarkersWriteTheirBytes
  intro s dims
  constructor
  · intro hmode sof0 sos
    have hsof0 : WritesOrIsCut (exec .sof0 s) sof0 s := by
      rw [exec_sof0, ncomp_of_mode_color hmode,
        segmentBytes_of_length (hi := 0x00#8) (lo := 0x11#8) (by rw [length_sof0Data]; rfl)]
      exact sinkBytes_writesOrIsCut sof0 s
    have hsos : WritesOrIsCut (exec .sos s) sos s := by
      rw [exec_sos, ncomp_of_mode_color hmode]
      exact sinkBytes_writesOrIsCut _ s
    exact ⟨hsof0.1, hsos.1, fun k hf => ⟨hsof0.2 k hf, hsos.2 k hf⟩⟩
  · intro hmode sof0 sos
    have hsof0 : WritesOrIsCut (exec .sof0 s) sof0 s := by
      rw [exec_sof0, ncomp_of_mode_gray hmode,
        segmentBytes_of_length (hi := 0x00#8) (lo := 0x0B#8) (by rw [length_sof0Data]; rfl)]
      exact sinkBytes_writesOrIsCut sof0 s
    have hsos : WritesOrIsCut (exec .sos s) sos s := by
      rw [exec_sos, ncomp_of_mode_gray hmode]
      exact sinkBytes_writesOrIsCut _ s
    exact ⟨hsof0.1, hsos.1, fun k hf => ⟨hsof0.2 k hf, hsos.2 k hf⟩⟩

theorem dqt_writesOrIsCut (set : TableSet) (s : State) :
    WritesOrIsCut (exec (.dqt set) s) ([0xFF#8, 0xDB#8, 0x00#8, 0x43#8] ++ dqtData set (s.qt.get set)) s := by
  rw [← segmentBytes_of_length (by rw [length_dqtData]; rfl)]
  exact sinkBytes_writesOrIsCut _ s

/-- How many values the constant specifications of a class have (R78 to R81). -/
def romValueCount : TableClass → Nat
  | .dc => 12
  | .ac => 162

theorem length_dhtBytes_rom (cls : TableClass) (set : TableSet) :
    (dhtBytes cls set (huffBits (tableOf cls set)) (huffVals (tableOf cls set))).length = romValueCount cls + 17 := by
  rw [length_dhtBytes, length_huffVals]
  cases cls <;> rfl

/-- The length field of a DHT segment is that of the constant specification's values. -/
theorem dht_writesOrIsCut {cls : TableClass} {lo : Byte} (set : TableSet) (s : State)
    (h : lo.toNat = romValueCount cls + 19) :
    WritesOrIsCut (exec (.dht cls set) s) ([0xFF#8, 0xC4#8, 0x00#8, lo] ++
      dhtBytes cls set (huffBits (tableOf cls set)) (huffVals (tableOf cls set))) s := by
  have hexec : exec (.dht cls set) s = finishUnit (emitDht cls set s) := rfl
  rw [← segmentBytes_of_length (by rw [length_dhtBytes_rom, h]; simp), hexec, emitDht_eq]
  exact sinkBytes_writesOrIsCut _ s

/-- Settles O53: the table's segment is one byte string, and the counts of a constant specification agree with its
values, so its data is always built. -/
theorem tableMarkersWriteTheirBytes : Obligations.TableMarkersWriteTheirBytes := by
  unfold Obligations.TableMarkersWriteTheirBytes
  intro set s dqt dhtDc dhtAc
  have hdqt : WritesOrIsCut (exec (.dqt set) s) dqt s := dqt_writesOrIsCut set s
  have hdc : WritesOrIsCut (exec (.dht .dc set) s) dhtDc s := dht_writesOrIsCut set s rfl
  have hac : WritesOrIsCut (exec (.dht .ac set) s) dhtAc s := dht_writesOrIsCut set s rfl
  have ldqt : dqt.length = 69 := by simp [dqt, length_dqtData]
  have ldc : dhtDc.length = 33 := by simp [dhtDc, length_dhtBytes_rom, romValueCount]
  have lac : dhtAc.length = 183 := by simp [dhtAc, length_dhtBytes_rom, romValueCount]
  unfold WritesOrIsCut at hdqt hdc hac
  rw [ldqt] at hdqt
  rw [ldc] at hdc
  rw [lac] at hac
  exact ⟨hdqt.1, hdc.1, hac.1, fun k hf => ⟨hdqt.2 k hf, hdc.2 k hf, hac.2 k hf⟩⟩

end Sys2Proof.Machine
end

section
/-! PROOFS. The operations that only compute: the segment builders (R147 to R154), BUILD_QTABLE (R139), MAG_CATEGORY
(R110) and the zig-zag order (R74, R75, R151). -/
namespace Sys2Proof.Machine
open Sys2Proof

/-! ### The zig-zag order -/

theorem zigzag_lt {k : Nat} (h : k < 64) : zigzag k < 64 := by
  have hall : ∀ k : Fin 64, zigzag k.val < 64 := by decide
  exact hall ⟨k, h⟩

theorem unzigzag_lt {k : Nat} (h : k < 64) : unzigzag k < 64 := by
  have hall : ∀ k : Fin 64, unzigzag k.val < 64 := by decide
  exact hall ⟨k, h⟩

theorem unzigzag_zigzag {k : Nat} (h : k < 64) : unzigzag (zigzag k) = k := by
  have hall : ∀ k : Fin 64, unzigzag (zigzag k.val) = k.val := by decide
  exact hall ⟨k, h⟩

/-- Behind the selector byte the table goes in scan order (R150). -/
theorem dqtData_getD (tq : TableSet) (table : Block Byte) {k : Nat} (h : k < 64) :
    (dqtData tq table).getD (1 + k) 0#8 = table.getD (unzigzag k) 0#8 := by
  rw [Nat.add_comm, dqtData, List.getD_cons_succ, List.getD_eq_getElem _ _ (by simpa using h)]
  simp

/-- The DC entry and the AC entries are the block in scan order (R118). -/
theorem scanOrder_getD (block : Block Coef) {k : Nat} (h : k < 64) :
    (dcOf block :: acInScanOrder block).getD k 0#32 = block.getD (unzigzag k) 0#32 := by
  cases k with
  | zero => rfl
  | succ k =>
    rw [List.getD_cons_succ, acInScanOrder, List.getD_eq_getElem _ _ (by simp; omega)]
    simp

theorem quantize_getD (mode : Div8Mode) (raw : Block Coef) (table : Block Byte) {i : Nat} (h : i < 64) :
    (quantize mode raw table).getD i 0#32 = quantizeEntry mode (raw.getD i 0#32) (table.getD i 0#8) :=
  Fixed.getD_ofFn _ _ h

/-- Settles O50: DQT data, divisors and coded entries are all read through `UNZIGZAG`. -/
theorem dqtOrderIsScanOrder : Obligations.DqtOrderIsScanOrder := by
  unfold Obligations.DqtOrderIsScanOrder
  intro mode raw table tq k hk
  refine ⟨dqtData_getD tq table hk, ?_, scanOrder_getD _ hk⟩
  rw [dqtData_getD tq table hk, quantize_getD _ _ _ (unzigzag_lt hk)]

/-! ### The builders -/

/-- Settles O48: the builders of constant layout by computation; the DQT data through the inverse of the zig-zag
order. -/
theorem buildersReturnSegmentData : Obligations.BuildersReturnSegmentData := by
  unfold Obligations.BuildersReturnSegmentData
  intro s
  refine ⟨rfl, fun h w => ⟨rfl, rfl⟩, fun tq table => ?_, rfl, rfl⟩
  refine ⟨dqtData tq table, rfl, length_dqtData tq table, ?_, fun k hk => ?_⟩
  · cases tq <;> rfl
  · rw [dqtData_getD tq table (zigzag_lt hk), unzigzag_zigzag hk]

theorem exec_buildDht (cls : TableClass) (dest : TableSet) (bits : Counts) (vals : List Byte) (s : State) :
    exec (.buildDht cls dest bits vals) s =
      finish ((dhtData cls dest bits vals s).bind fun d s => .done (.bytes d) s) := rfl

/-- Settles O49: by the one check of BUILD_DHT, the sum of the counts. -/
theorem buildDhtReturnsDataOrRaises : Obligations.BuildDhtReturnsDataOrRaises := by
  unfold Obligations.BuildDhtReturnsDataOrRaises
  intro cls dest bits vals s
  constructor
  · intro hsum
    have hdata : dhtData cls dest bits vals s = .done (dhtBytes cls dest bits vals) s :=
      if_neg (not_not_intro hsum)
    rw [exec_buildDht, hdata]
    cases cls <;> cases dest <;> rfl
  · intro hsum
    have hdata : dhtData cls dest bits vals s = .raise .dhtCountMismatch s := if_pos hsum
    rw [exec_buildDht, hdata]
    simp [Run.raise, finish, raiseError, ErrCode.isFatal]

/-- Settles O27: every entry is at most 255, so its byte is the clamped number itself. -/
theorem buildQtableScalesEveryEntry : Obligations.BuildQtableScalesEveryEntry := by
  unfold Obligations.BuildQtableScalesEveryEntry
  intro s std quality
  refine ⟨buildQtable std quality, rfl, fun i hi => ?_⟩
  rw [buildQtable_getD std quality hi, qtableEntry_toNat]
  rfl

/-! ### Magnitudes -/

@[simp] theorem magSize_zero : magSize 0 = 0 := rfl

theorem magSize_bounds {v : Int} (h : v ≠ 0) :
    1 ≤ magSize v ∧ 2 ^ (magSize v - 1) ≤ v.natAbs ∧ v.natAbs < 2 ^ magSize v :=
  bitlen_bounds (Int.natAbs_ne_zero.mpr h)

theorem magBits_of_pos {v : Int} (h : 0 < v) : (magBits v : Int) = v := by
  obtain ⟨-, -, hlt⟩ := magSize_bounds (v := v) (by omega)
  rw [magBits, if_neg (by omega), if_pos h, Nat.mod_eq_of_lt (by omega)]
  omega

/-- The low bits of `v - 1` in two's complement are `v - 1 + 2 ^ size`. -/
theorem magBits_of_neg {v : Int} (h : v < 0) : (magBits v : Int) = v + 2 ^ magSize v - 1 := by
  obtain ⟨-, -, hlt⟩ := magSize_bounds (v := v) (by omega)
  have hpow : ((2 ^ magSize v : Nat) : Int) = 2 ^ magSize v := by simp
  rw [magBits, if_neg (by omega), if_neg (by omega), ← Int.add_emod_right, Int.emod_eq_of_lt (by omega) (by omega)]
  omega

/-- Settles O37: the size is the number of bits of the magnitude, and the bits are the value, or for a negative one its
complement in that many bits. -/
theorem magCategoryGivesSizeAndBits : Obligations.MagCategoryGivesSizeAndBits := by
  unfold Obligations.MagCategoryGivesSizeAndBits
  intro v s
  refine ⟨magSize v, magBits v, rfl, ?_, magSize_bounds, magBits_of_pos, magBits_of_neg⟩
  rintro rfl
  exact ⟨rfl, rfl⟩

end Sys2Proof.Machine
end

section
/-! PROOFS. QUANTIZE (R142, R143): the quotient nearest, ties away from zero, in both modes. -/
namespace Sys2Proof.Machine
open Sys2Proof

/-! ### Rounding -/

theorem tdiv_eq_int_tdiv (a : Int) (b : Nat) : tdiv a b = a.tdiv b := by
  have hsign : a.sign * ((a.natAbs : Int).tdiv b) = (a.sign * a.natAbs).tdiv b := by
    rcases a.sign_trichotomy with h | h | h <;> simp [h, Int.neg_tdiv]
  rw [tdiv, Int.ofNat_tdiv, hsign, Int.sign_mul_natAbs]

/-- `v` is the integer nearest to `n / t`, ties away from zero. -/
def NearestAway (n t v : Int) : Prop :=
  (2 * (v * t - n)).natAbs ≤ t.natAbs ∧ ((2 * (v * t - n)).natAbs = t.natAbs → n.natAbs < (v * t).natAbs)

/-- The quotient of `2a + d` by `2d` is the nearest to `a / d`, upwards at a tie. -/
theorem half_up_bounds (a : Nat) {d : Nat} (hd : 0 < d) :
    2 * ((2 * a + d) / (2 * d) * d) ≤ 2 * a + d ∧ 2 * a < 2 * ((2 * a + d) / (2 * d) * d) + d := by
  have hdiv := Nat.div_add_mod (2 * a + d) (2 * d)
  have hmod := Nat.mod_lt (2 * a + d) (show 0 < 2 * d by omega)
  have hmul : 2 * d * ((2 * a + d) / (2 * d)) = 2 * ((2 * a + d) / (2 * d) * d) := by ring
  omega

theorem rha_nearest (n : Int) {d : Nat} (hd : 0 < d) : NearestAway n d (rha n d) := by
  obtain ⟨hle, hlt⟩ := half_up_bounds n.natAbs hd
  unfold NearestAway rha
  generalize hq : (2 * n.natAbs + d) / (2 * d) = q at hle hlt ⊢
  obtain hn | rfl | hn := lt_trichotomy n 0
  · have hmul : -1 * (q : Int) * d = -((q * d : Nat) : Int) := by push_cast; ring
    rw [Int.sign_eq_neg_one_of_neg hn, hmul]
    omega
  · have hq0 : q * d = 0 := by
      have : q = 0 := by
        rw [← hq]
        exact Nat.div_eq_of_lt (by simp; omega)
      simp [this]
    simp
    omega
  · have hmul : 1 * (q : Int) * d = ((q * d : Nat) : Int) := by push_cast; ring
    rw [Int.sign_eq_one_of_pos hn, hmul]
    omega

/-- A quotient is at most the dividend and one more in magnitude. -/
theorem natAbs_rha_le {n : Int} {d b : Nat} (hd : 0 < d) (h : 2 * n.natAbs + d < 2 * d * (b + 1)) :
    (rha n d).natAbs ≤ b := by
  have hq : (2 * n.natAbs + d) / (2 * d) < b + 1 := (Nat.div_lt_iff_lt_mul (by omega)).mpr (by linarith)
  unfold rha
  rw [Int.natAbs_mul, Int.natAbs_natCast, Int.natAbs_sign]
  split <;> omega

/-! ### Entries -/

/-- The dividend and the divisor of an entry (R142, R143). -/
def dividend (mode : Div8Mode) (raw : Coef) : Int :=
  match mode with
  | .trunc => raw.toInt.tdiv 8
  | .real => raw.toInt

def divisor (mode : Div8Mode) (t : Byte) : Nat :=
  match mode with
  | .trunc => t.toNat
  | .real => 8 * t.toNat

theorem divisor_pos (mode : Div8Mode) {t : Byte} (ht : t ≠ 0#8) : 0 < divisor mode t := by
  have hpos : 0 < t.toNat := Nat.pos_of_ne_zero fun h => ht (BitVec.eq_of_toNat_eq h)
  cases mode <;> simp [divisor, hpos]

theorem quantizeEntry_eq (mode : Div8Mode) (raw : Coef) {t : Byte} (ht : t ≠ 0#8) :
    quantizeEntry mode raw t = BitVec.ofInt 32 (rha (dividend mode raw) (divisor mode t)) := by
  cases mode <;> simp [quantizeEntry, ht, dividend, divisor, tdiv_eq_int_tdiv]

/-- A raw entry below `8 * b + 4` in magnitude gives at most `b`, in both modes and whatever the divisor. -/
theorem natAbs_rha_dividend_le (mode : Div8Mode) {raw : Coef} {t : Byte} (ht : t ≠ 0#8) {b : Nat}
    (h : raw.toInt.natAbs < 8 * b + 4) : (rha (dividend mode raw) (divisor mode t)).natAbs ≤ b := by
  have hpos := divisor_pos mode ht
  refine natAbs_rha_le hpos ?_
  cases mode with
  | trunc =>
    have hn : (dividend .trunc raw).natAbs ≤ b := by
      have hdiv : (dividend .trunc raw).natAbs = raw.toInt.natAbs / 8 := Int.natAbs_tdiv _ _
      omega
    nlinarith
  | real =>
    have hd : 8 ≤ divisor .real t := by
      have hreal : divisor .real t = 8 * t.toNat := rfl
      omega
    have hn : (dividend .real raw).natAbs < 8 * b + 4 := h
    nlinarith

/-- No quotient is cut at 32 bits. -/
theorem quantizeEntry_toInt (mode : Div8Mode) (raw : Coef) {t : Byte} (ht : t ≠ 0#8) :
    (quantizeEntry mode raw t).toInt = rha (dividend mode raw) (divisor mode t) := by
  have hlo := raw.le_toInt
  have hhi := raw.toInt_lt
  have hle := natAbs_rha_dividend_le mode (raw := raw) ht (b := 2 ^ 28) (by omega)
  rw [quantizeEntry_eq mode raw ht]
  exact BitVec.toInt_ofInt_eq_self (by decide) (by omega) (by omega)

/-- Settles O47: each entry is the rounded quotient of R142 or R143, which 32 bits hold. -/
theorem quantizeRoundsToNearest : Obligations.QuantizeRoundsToNearest := by
  unfold Obligations.QuantizeRoundsToNearest
  intro raw table s
  refine ⟨quantize s.params.div8Mode raw table, rfl, fun i hi ht => ?_⟩
  have hnear := rha_nearest (dividend s.params.div8Mode (raw.getD i 0#32)) (divisor_pos s.params.div8Mode ht)
  rw [← quantizeEntry_toInt _ _ ht, ← quantize_getD _ _ _ hi] at hnear
  cases hmode : s.params.div8Mode <;> rw [hmode] at hnear <;> simpa [NearestAway, dividend, divisor] using hnear

end Sys2Proof.Machine
end

section
/-! PROOFS. The host's side of a step: reset (R200, R202), registers (R25 to R30), commands (R159, R188, R189), image
placement (R36, R40) and issued words (R93). -/
namespace Sys2Proof.Machine
open Sys2Proof

/-! ### Reset -/

theorem step_reset {s : State} {n : Nat} {es : List Event} (h : s.input = .reset n :: es) :
    step s = .next (resetBlock n (afterInput es s)) := by
  simp only [step, serveNext, h, serve]

/-- What the operation in progress would append is what the sequencer's step appends. -/
theorem inProgress_eq {s u : State} {bs : List Byte} (h : sequencer s = .next u) (hout : u.out = s.out ++ bs) :
    inProgress s = bs := by
  rw [inProgress, h]
  simp [hout]

/-- Settles O1: the reset block is the reset state but for what stands outside, and its sink takes the first bytes of
the operation in progress. -/
theorem resetInputRestoresResetValues : Obligations.ResetInputRestoresResetValues := by
  unfold Obligations.ResetInputRestoresResetValues
  intro s n es h
  refine ⟨_, step_reset h, rfl, rfl, rfl, rfl, rfl, rfl, rfl, rfl, rfl, rfl, rfl, rfl, rfl, rfl, rfl, rfl, rfl, rfl,
    rfl, fun u bs hu hout => ?_⟩
  rw [← inProgress_eq hu hout]
  rfl

/-- Settles O2: after reset the block is idle and not configured, the position is 0 and no image byte is listed. -/
theorem resetStateMeetsInvariant : Obligations.ResetStateMeetsInvariant where
  accClean := fun i _ => by simp [State.reset]
  nbitsBusy := fun h => by cases h
  busyReady := fun h => by cases h
  tables := fun h => by cases h
  fatalErr := fun h => by cases h
  imgWf := reset_img_wf
  position := by decide
  phaseOk := fun h => by cases h
  inFrame := fun h => by cases h
  compInUse := fun h => by cases h
  sentOk := fun h => absurd rfl h
  hasImage := fun h => by cases h

/-! ### Registers -/

/-- Settles O20: an idle block takes the write of an operand register as it is, and ignores one of STATUS. -/
theorem registerWritesTakeEffect : Obligations.RegisterWritesTakeEffect := by
  unfold Obligations.RegisterWritesTakeEffect
  intro s es hbusy
  have hidle : ¬ (afterInput es s).busy = true := by simp [hbusy]
  refine ⟨fun v h => ?_, fun v h => ?_, fun v h => ?_, fun v h => ?_, fun v h => ?_, fun v h => ?_⟩ <;>
    rw [step_write h, hostWrite, writeReg, if_neg hidle]

/-- The bits of STATUS: `busy`, `cfg_valid`, `phase`, `err`, `fatal`, from bit 0 on (R30). -/
theorem statusWord_getLsbD (s : State) {i : Nat} (hi : i < 9) :
    (statusWord s).getLsbD i =
      if i < 1 then s.busy else if i < 2 then s.cfgValid else if i < 4 then s.phase.code.getLsbD (i - 2)
      else if i < 8 then s.err.code.getLsbD (i - 4) else s.fatal := by
  unfold statusWord
  simp only [BitVec.getLsbD_append, BitVec.getLsbD_ofBool]
  split_ifs <;> grind

/-- A read of STATUS shows its bits. -/
theorem readReg_status_getLsbD (s : State) {i : Nat} (hi : i < 9) :
    (readReg .status s).getLsbD i = (statusWord s).getLsbD i := by
  rw [readReg, BitVec.getLsbD_setWidth]
  simp [show i < 36 by omega]

theorem readReg_status_phase (s : State) : (readReg .status s).extractLsb' 2 2 = s.phase.code := by
  apply BitVec.eq_of_getLsbD_eq
  intro i hi
  rw [BitVec.getLsbD_extractLsb', readReg_status_getLsbD s (by omega), statusWord_getLsbD s (by omega)]
  simp only [show ¬ 2 + i < 1 by omega, show ¬ 2 + i < 2 by omega, show 2 + i < 4 by omega, hi, if_true, if_false,
    decide_true, Bool.true_and, Nat.add_sub_cancel_left]

theorem readReg_status_err (s : State) : (readReg .status s).extractLsb' 4 4 = s.err.code := by
  apply BitVec.eq_of_getLsbD_eq
  intro i hi
  rw [BitVec.getLsbD_extractLsb', readReg_status_getLsbD s (by omega), statusWord_getLsbD s (by omega)]
  simp only [show ¬ 4 + i < 1 by omega, show ¬ 4 + i < 2 by omega, show ¬ 4 + i < 4 by omega,
    show 4 + i < 8 by omega, hi, if_true, if_false, decide_true, Bool.true_and, Nat.add_sub_cancel_left]

theorem readReg_status_lt (s : State) : (readReg .status s).toNat < 512 := by
  have h := (statusWord s).isLt
  rw [readReg, BitVec.toNat_setWidth]
  omega

theorem toNat_setWidth_36 {n : Nat} (h : n ≤ 36) (v : BitVec n) : (v.setWidth 36).toNat = v.toNat :=
  BitVec.toNat_setWidth_of_le h

/-- Settles O21: a read answers the register zero-extended, and STATUS is its five flags, each in its bits. -/
theorem registerReadsHaveNoEffect : Obligations.RegisterReadsHaveNoEffect := by
  unfold Obligations.RegisterReadsHaveNoEffect
  intro s r es h
  refine ⟨_, step_read h, ?_, ?_, ?_, ?_, ?_, ?_, ?_⟩ <;> rintro rfl
  · rfl
  · exact toNat_setWidth_36 (by decide) s.quality
  · exact toNat_setWidth_36 (by decide) s.width
  · exact toNat_setWidth_36 (by decide) s.height
  · exact toNat_setWidth_36 (by decide) s.mode
  · rfl
  · refine ⟨readReg_status_getLsbD_zero _, ?_, readReg_status_phase _, readReg_status_err _, ?_, readReg_status_lt _⟩
    · rw [readReg_status_getLsbD _ (by decide), statusWord_getLsbD _ (by decide)]
      rfl
    · rw [readReg_status_getLsbD _ (by decide), statusWord_getLsbD _ (by decide)]
      rfl

/-! ### Commands -/

theorem exec_configure_eq (s : State) : exec .configure s = .next (hostCommand 0x01#8 s) := by
  simp only [exec, execConfigure, hostCommand]
  cases commandVerdict 0x01#8 s <;> rfl

theorem hostCommand_encode {s : State} (h : EncodeAccepted s) : hostCommand 0x02#8 s = encodeStart s := by
  rw [hostCommand, h]
  rfl

theorem exec_encode_not_accepted {s : State} (h : ¬ EncodeAccepted s) :
    exec .encode s = .next (hostCommand 0x02#8 s) := by
  simp only [exec, execEncode, hostCommand]
  cases hv : commandVerdict 0x02#8 s with
  | accepted => exact absurd hv h
  | _ => rfl

/-- The checks of a command do not read the inputs. -/
theorem encodeAccepted_afterInput {s : State} {es : List Event} : EncodeAccepted (afterInput es s) ↔ EncodeAccepted s :=
  Iff.rfl

theorem step_encode_accepted {s : State} {es : List Event} (h : s.input = .write (.cmd 0x02#8) :: es)
    (ha : EncodeAccepted s) : step s = .next (encodeStart (afterInput es s)) := by
  rw [step_write h, hostWrite, hostCommand_encode (encodeAccepted_afterInput.mpr ha)]

/-- Settles O17: the write is the command, and of the two only an accepted ENCODE is run in finer steps. -/
theorem commandWriteRunsCommand : Obligations.CommandWriteRunsCommand := by
  unfold Obligations.CommandWriteRunsCommand
  intro s es
  refine ⟨fun h => ?_, fun h => ⟨fun ha => ?_, fun ha => step_encode_accepted h ha⟩⟩
  · rw [step_write h, exec_configure_eq]
    rfl
  · rw [step_write h, exec_encode_not_accepted (mt encodeAccepted_afterInput.mp ha)]
    rfl

theorem commandVerdict_of_fatal (k : BitVec 8) {s : State} (hbusy : s.busy = false) (hfatal : s.fatal = true) :
    commandVerdict k s = .locked := by
  simp [commandVerdict, hbusy, hfatal]

theorem hostCommand_of_fatal (k : BitVec 8) {s : State} (hbusy : s.busy = false) (hfatal : s.fatal = true) :
    hostCommand k s = s := by
  rw [hostCommand, commandVerdict_of_fatal k hbusy hfatal]
  rfl

/-- Settles O22: the check after `busy` turns every command away, and the other registers do not look at `fatal`. -/
theorem fatalErrorLocksCommands : Obligations.FatalErrorLocksCommands := by
  unfold Obligations.FatalErrorLocksCommands
  intro s es hbusy hfatal
  obtain ⟨hquality, hwidth, hheight, hmode, hsrcLen, -⟩ := registerWritesTakeEffect s es hbusy
  have hlocked : ¬ EncodeAccepted s := by
    rw [EncodeAccepted, commandVerdict_of_fatal _ hbusy hfatal]
    simp
  refine ⟨fun k h => ?_, ?_, ?_, hquality, hwidth, hheight, hmode, hsrcLen⟩
  · rw [step_write h, hostWrite, hostCommand_of_fatal k (s := afterInput es s) hbusy hfatal]
  · rw [exec_configure_eq, hostCommand_of_fatal _ hbusy hfatal]
  · rw [exec_encode_not_accepted hlocked, hostCommand_of_fatal _ hbusy hfatal]

theorem exec_encode_of_refused {s : State} {e : ErrCode} (h : commandVerdict 0x02#8 s = .refused e) :
    exec .encode s = .next { s with err := e } := by
  rw [exec_encode_not_accepted (by simp [EncodeAccepted, h]), hostCommand_of_refused h]

/-- Settles O24: the checks of R159 in their order, each with what came before it passed. -/
theorem encodeRefusalsInOrder : Obligations.EncodeRefusalsInOrder := by
  unfold Obligations.EncodeRefusalsInOrder
  intro s hbusy hfatal
  refine ⟨fun hcfg => ?_, fun hcfg hstrict hshort => ?_, fun hcfg hstrict hsrc hw hh => ?_, fun hcfg hlong hsrc => ?_⟩
  · exact exec_encode_of_refused (by simp [commandVerdict, hbusy, hfatal, hcfg])
  · exact exec_encode_of_refused (by simp [commandVerdict, hbusy, hfatal, hcfg, hstrict, frameBytes, hshort])
  · exact exec_encode_of_refused (by simp [commandVerdict, hbusy, hfatal, hcfg, hstrict, hsrc, hw, hh])
  · have hlength : ¬ ((s.params.strictLen && decide (s.srcLen.toNat < frameBytes s)) = true) := by
      simp only [Bool.and_eq_true, decide_eq_true_eq, not_and, not_lt]
      exact hlong
    have hbuffer : ¬ (s.srcLen = 0#36 ∧ s.width ≠ 0#16 ∧ s.height ≠ 0#16) := fun ⟨hz, hw, hh⟩ => hsrc hw hh hz
    have haccepted : EncodeAccepted s := by
      simp only [EncodeAccepted, commandVerdict, hbusy, hfatal, hcfg, Bool.false_eq_true, if_false, BitVec.reduceEq,
        if_true, Bool.not_true, hlength, hbuffer]
    exact ⟨haccepted, fun es h => ⟨_, step_encode_accepted h haccepted, rfl, rfl, rfl, rfl⟩⟩

/-! ### Image placement -/

theorem step_place {s : State} {base : Nat} {data : List Byte} {es : List Event}
    (h : s.input = .place base data :: es) :
    step s = placeImage base data (afterInput es s) := by
  simp only [step, serveNext, h, serve]

/-- Settles O25: the placement goes byte by byte, each a write of the canonical list. -/
theorem imagePlacementIsExact : Obligations.ImagePlacementIsExact := by
  unfold Obligations.ImagePlacementIsExact
  intro s base data es hwf h
  refine ⟨fun hbusy => ?_, fun hbusy hlong => ?_, fun hbusy hfits => ?_⟩
  · rw [step_place h, placeImage, if_pos hbusy]
  · have hspace : ¬ base + data.length ≤ imageSpace := Nat.not_le_of_lt hlong
    rw [step_place h, placeImage, if_neg (by simp [hbusy]), if_neg hspace]
    exact ⟨_, rfl⟩
  · have hspace : base + data.length ≤ imageSpace := hfits
    refine ⟨s.img.place base data, ?_, Memory.place_read data hfits hwf, fun a ha => ?_⟩
    · rw [step_place h, placeImage, if_neg (by simp [hbusy]), if_pos hspace]
    · exact ha.elim (Memory.place_read_below s.img data) (Memory.place_read_above s.img data)

/-! ### Issued words -/

/-- Settles O15: the word is decoded; an idle block runs its instruction, a busy one only looks which it is. -/
theorem stepRunsDecodedInstruction : Obligations.StepRunsDecodedInstruction := by
  unfold Obligations.StepRunsDecodedInstruction
  intro s w rest es i h hdecode
  have hstep : step s = if s.busy = true ∧ i ≠ .configure ∧ i ≠ .encode then .refused .operationIssuedWhileBusy
      else exec i (afterInput es s) := by
    simp only [step, serveNext, h, serve, issueWord, hdecode]
  refine ⟨fun hbusy => ?_, fun hbusy hcommand => ?_, fun hbusy hconfigure hencode => ?_⟩
  · rw [hstep, if_neg (by simp [hbusy])]
  · have hignored : ∀ k, hostCommand k (afterInput es s) = afterInput es s := fun k => hostCommand_of_busy k hbusy
    rw [hstep, if_neg fun ⟨_, hc, he⟩ => hcommand.elim hc he]
    obtain rfl | rfl := hcommand
    · rw [exec_configure_eq, hignored]
    · have hbusyNot : ¬ EncodeAccepted (afterInput es s) := by
        rw [EncodeAccepted, commandVerdict_of_busy _ (s := afterInput es s) hbusy]
        simp
      rw [exec_encode_not_accepted hbusyNot, hignored]
  · rw [hstep, if_pos ⟨hbusy, hconfigure, hencode⟩]

/-- Settles O14: the words of the table, by running the decoder. -/
theorem tableCodesDecode : Obligations.TableCodesDecode := by
  unfold Obligations.TableCodesDecode
  exact ⟨rfl, rfl, rfl, rfl, rfl, rfl, rfl, rfl, rfl, rfl, rfl, rfl, rfl⟩

end Sys2Proof.Machine
end

section
/-! PROOFS. The Huffman tables (R22, R82 to R91, R106): the listings are the construction, their codes are free of one
another's beginnings, and which symbols have one; and the symbols sent as instructions (R108, R114, R115). -/
namespace Sys2Proof.Machine
open Sys2Proof

/-! ### The construction (R106) -/

theorem length_placeCodes (bits : Counts) (vals : List Byte) (l n : Nat) (b : LutBuild) :
    (placeCodes bits vals l n b).lut.length = b.lut.length := by
  induction n generalizing b with
  | zero => rfl
  | succ n ih => rw [placeCodes, ih, List.length_set]

theorem length_placeLengths (bits : Counts) (vals : List Byte) (ls : List Nat) (b : LutBuild) :
    (placeLengths bits vals ls b).lut.length = b.lut.length := by
  induction ls generalizing b with
  | nil => rfl
  | cons l ls ih => rw [placeLengths, ih, length_placeCodes]

theorem length_buildHuffLut (bits : Counts) (vals : List Byte) : (buildHuffLut bits vals).length = 256 := by
  rw [buildHuffLut, length_placeLengths, List.length_replicate]

/-- The construction run on the four specifications, entry by entry (log 29). -/
theorem buildHuffLut_eq_listing (t : HuffTable) :
    buildHuffLut (huffBits t) (huffVals t) = (List.range 256).map fun n => lutEntry t (BitVec.ofNat 8 n) := by
  cases t <;> decide +kernel

/-- Settles O34: the listings by running the construction; on other operands it keeps the length of its table. -/
theorem lookupTablesAreTheConstruction : Obligations.LookupTablesAreTheConstruction := by
  unfold Obligations.LookupTablesAreTheConstruction
  refine ⟨fun t s => ⟨_, rfl, length_buildHuffLut _ _, fun sym => ?_⟩,
    fun bits vals s => ⟨rfl, length_buildHuffLut bits vals⟩⟩
  rw [buildHuffLut_eq_listing, List.getD_eq_getElem _ _ (by simpa using sym.isLt)]
  simp

/-! ### No code begins another (R91)
The 16-bit words that begin with a code are a span of numbers; a code that begins another has the other's span within
its own, so it is enough that the spans of a listing do not meet. -/

/-- The span of a listed code `(symbol, length, code)`: from `spanStart` on, up to `spanStop`. -/
def spanStart (r : Nat × Nat × Nat) : Nat := r.2.2 * 2 ^ (16 - r.2.1)

def spanStop (r : Nat × Nat × Nat) : Nat := (r.2.2 + 1) * 2 ^ (16 - r.2.1)

/-- The spans of different symbols do not meet. -/
def spansApart (l : List (Nat × Nat × Nat)) : Bool :=
  l.all fun p => l.all fun q =>
    p.1 == q.1 || Nat.blt (spanStart q) (spanStart p) || Nat.ble (spanStop p) (spanStart q)

theorem lutCodes_spansApart (t : HuffTable) : spansApart (lutCodes t) = true := by
  cases t <;> decide +kernel

/-- The listed codes are numbers of their length, at most 16, and not all ones. -/
theorem lutCodes_fit (t : HuffTable) : ∀ r ∈ lutCodes t, r.2.1 ≤ 16 ∧ r.2.2 + 1 < 2 ^ r.2.1 := by
  cases t <;> decide +kernel

theorem eq_of_spans_meet {t : HuffTable} {p q : Nat × Nat × Nat} (hp : p ∈ lutCodes t) (hq : q ∈ lutCodes t)
    (hlo : spanStart p ≤ spanStart q) (hhi : spanStart q < spanStop p) : p.1 = q.1 := by
  have hall := List.all_eq_true.mp (List.all_eq_true.mp (lutCodes_spansApart t) p hp) q hq
  simp only [Bool.or_eq_true, beq_iff_eq, Nat.blt_eq, Nat.ble_eq] at hall
  omega

/-- A bit string that begins another one, both of at most 16 bits, has the other's span within its own. -/
theorem span_of_begins {x y : List Bool} (h : x <+: y) (hy : y.length ≤ 16) :
    natOfBits x * 2 ^ (16 - x.length) ≤ natOfBits y * 2 ^ (16 - y.length) ∧
      natOfBits y * 2 ^ (16 - y.length) < (natOfBits x + 1) * 2 ^ (16 - x.length) := by
  obtain ⟨z, rfl⟩ := h
  have hz := natOfBits_lt z
  rw [List.length_append] at hy ⊢
  have hpow : 2 ^ (16 - x.length) = 2 ^ z.length * 2 ^ (16 - (x.length + z.length)) := by
    rw [← Nat.pow_add]
    congr 1
    omega
  rw [natOfBits_append, hpow]
  have hpos : 0 < 2 ^ (16 - (x.length + z.length)) := by positivity
  constructor <;> nlinarith

/-- The code of a symbol is a listed one of that symbol. -/
theorem listed_of_codeBits {t : HuffTable} {sym : Byte} {bits : List Bool} (h : codeBits t sym = some bits) :
    ∃ r ∈ lutCodes t, r.1 = sym.toNat ∧ bits.length = r.2.1 ∧ natOfBits bits = r.2.2 := by
  unfold codeBits lutEntry at h
  cases hfind : (lutCodes t).find? (fun r => r.1 == sym.toNat) with
  | none =>
    rw [hfind] at h
    simp [noCode] at h
  | some r =>
    obtain ⟨symbol, length, code⟩ := r
    rw [hfind] at h
    have hmem := List.mem_of_find?_eq_some hfind
    obtain ⟨hlen, hcode⟩ : length ≤ 16 ∧ code + 1 < 2 ^ length := lutCodes_fit t _ hmem
    have hpow : 2 ^ length ≤ 2 ^ 16 := Nat.pow_le_pow_right (by decide) hlen
    dsimp only at h
    rw [if_pos hlen, BitVec.toNat_ofNat, Nat.mod_eq_of_lt (by omega)] at h
    obtain rfl := Option.some.inj h
    refine ⟨_, hmem, by simpa using List.find?_some hfind, length_bitsOf _ _, ?_⟩
    rw [natOfBits_bitsOf, Nat.mod_eq_of_lt (by omega)]

theorem codeBits_begins {t : HuffTable} {a b : Byte} {x y : List Bool} (hx : codeBits t a = some x)
    (hy : codeBits t b = some y) (h : x <+: y) : a = b := by
  obtain ⟨p, hp, hpa, hpl, hpn⟩ := listed_of_codeBits hx
  obtain ⟨q, hq, hqb, hql, hqn⟩ := listed_of_codeBits hy
  obtain ⟨hlen, -⟩ := lutCodes_fit t q hq
  obtain ⟨hlo, hhi⟩ := span_of_begins h (by omega)
  rw [hpl, hpn, hql, hqn] at hlo hhi
  exact BitVec.eq_of_toNat_eq (by rw [← hpa, ← hqb]; exact eq_of_spans_meet hp hq hlo hhi)

theorem natOfBits_all_ones (n : Nat) : natOfBits (List.replicate n true) + 1 = 2 ^ n := by
  induction n with
  | zero => rfl
  | succ n ih =>
    rw [List.replicate_succ, natOfBits_cons, List.length_replicate, Nat.pow_succ]
    simp
    omega

/-- A code that is not all ones as a number has a 0 bit. -/
theorem codeBits_has_zero {t : HuffTable} {sym : Byte} {bits : List Bool} (h : codeBits t sym = some bits) :
    false ∈ bits := by
  obtain ⟨r, hr, -, hlen, hnat⟩ := listed_of_codeBits h
  obtain ⟨-, hcode⟩ := lutCodes_fit t r hr
  by_contra hones
  have hall : bits = List.replicate bits.length true :=
    List.eq_replicate_of_mem fun b hb => by cases b with
      | true => rfl
      | false => exact absurd hb hones
  have := natOfBits_all_ones bits.length
  rw [← hall, hnat, hlen] at this
  omega

/-! ### Which symbols have a code (R89) -/

theorem ofNat_toNat_byte (b : Byte) : BitVec.ofNat 8 b.toNat = b := by simp

theorem codeBits_dc_isSome (set : TableSet) (sym : Byte) :
    (codeBits (tableOf .dc set) sym).isSome = true ↔ sym.toNat ≤ 11 := by
  have hall : ∀ n : Fin 256, (codeBits (tableOf .dc set) (BitVec.ofNat 8 n.val)).isSome = true ↔ n.val ≤ 11 := by
    cases set <;> decide +kernel
  simpa using hall ⟨sym.toNat, sym.isLt⟩

theorem codeBits_ac_isSome (set : TableSet) (sym : Byte) :
    (codeBits (tableOf .ac set) sym).isSome = true ↔
      sym = 0x00#8 ∨ sym = 0xF0#8 ∨ (1 ≤ sym.toNat % 16 ∧ sym.toNat % 16 ≤ 10) := by
  have hall : ∀ n : Fin 256, (codeBits (tableOf .ac set) (BitVec.ofNat 8 n.val)).isSome = true ↔
      BitVec.ofNat 8 n.val = 0x00#8 ∨ BitVec.ofNat 8 n.val = 0xF0#8 ∨ (1 ≤ n.val % 16 ∧ n.val % 16 ≤ 10) := by
    cases set <;> decide +kernel
  simpa using hall ⟨sym.toNat, sym.isLt⟩

/-- Settles O35: by the finite listings: the spans of two codes do not meet, and no code is all ones as a number. -/
theorem huffmanCodesArePrefixFree : Obligations.HuffmanCodesArePrefixFree := by
  unfold Obligations.HuffmanCodesArePrefixFree
  refine ⟨fun t a b x y hx hy => ?_, fun set sym => ⟨codeBits_dc_isSome set sym, codeBits_ac_isSome set sym⟩⟩
  exact ⟨codeBits_begins hx hy, codeBits_has_zero hx⟩

/-! ### Symbols as instructions -/

theorem exec_huffmanEncode (sym : Byte) (t : HuffTable) (s : State) :
    exec (.huffmanEncode sym t) s = finishUnit (huffmanEncode sym t s) := rfl

/-- Settles O36: a symbol with a code is one WRITE_BITS; one without raises at once. -/
theorem huffmanEncodeSendsCodeOrRaises : Obligations.HuffmanEncodeSendsCodeOrRaises := by
  unfold Obligations.HuffmanEncodeSendsCodeOrRaises
  intro sym t s
  refine ⟨fun bits hbits hs => (huffmanEncode_sendsCodes hbits hs).sendsOrIsCut, fun hnone => ?_⟩
  rw [exec_huffmanEncode, huffmanEncode_raises hnone]
  simp [Run.raise, returned, raiseError, ErrCode.isFatal]

/-- Settles O38: EOB and ZRL are symbols of the listed codes. -/
theorem eobAndZrlSendTheirCodes : Obligations.EobAndZrlSendTheirCodes := by
  unfold Obligations.EobAndZrlSendTheirCodes
  intro ta s hs
  have hsend : ∀ {sym bits}, codeBits (tableOf .ac ta) sym = some bits →
      SendsOrIsCut (finishUnit (huffmanEncode sym (tableOf .ac ta) s)) bits s :=
    fun hc => (huffmanEncode_sendsCodes hc hs).sendsOrIsCut
  constructor
  · refine hsend (sym := 0x00#8) ?_
    cases ta <;> decide +kernel
  · refine hsend (sym := 0xF0#8) ?_
    cases ta <;> decide +kernel

end Sys2Proof.Machine
end

section
/-! PROOFS. WRITE_BLOCK (R72, R113, R117): a codable block is sent, which blocks are codable, and what the others
raise. -/
namespace Sys2Proof.Machine
open Sys2Proof

theorem exec_writeBlock (block : Block Coef) (prev : Coef) (td ta : TableSet) (s : State) :
    exec (.writeBlock block prev td ta) s =
      finish ((writeBlock block prev td ta s).bind fun v s => .done (.coef v) s) := rfl

/-- Settles O39: the codes of the block are sent one by one, so the block is sent, or cut in one of them. -/
theorem writeBlockSendsCodedBlock : Obligations.WriteBlockSendsCodedBlock := by
  unfold Obligations.WriteBlockSendsCodedBlock
  intro block prev td ta s codes hcodes hs
  have hsends := writeBlock_sendsCodes hcodes hs
  refine ⟨blockString_eq.mpr ⟨codes, hcodes, rfl⟩, fun hsink => ?_, fun k hk => ?_⟩
  · rw [exec_writeBlock, hsends.sends.accepts hsink, ← packed_eq]
    rfl
  · rw [exec_writeBlock, hsends.cut k hk]
    rfl

/-! ### Which values have a code (R117) -/

theorem bitlen_le_iff {n k : Nat} : bitlen n ≤ k ↔ n < 2 ^ k := by
  refine ⟨fun h => ?_, bitlen_le⟩
  by_cases hn : n = 0
  · simp [hn]
  · exact Nat.lt_of_lt_of_le (bitlen_bounds hn).2.2 (Nat.pow_le_pow_right (by decide) h)

theorem magSize_le_iff {v : Int} {k : Nat} : magSize v ≤ k ↔ v.natAbs < 2 ^ k := bitlen_le_iff

/-- R117 (a): the DC tables stop at size 11. -/
theorem codeBits_dc_size_isSome (td : TableSet) {v : Int} (hv : magSize v ≤ 255) :
    (codeBits (tableOf .dc td) (BitVec.ofNat 8 (magSize v))).isSome = true ↔ v.natAbs ≤ 2047 := by
  rw [codeBits_dc_isSome, BitVec.toNat_ofNat, Nat.mod_eq_of_lt (by omega), magSize_le_iff]
  omega

theorem dcCodes_isSome (td : TableSet) {v : Int} (hv : magSize v ≤ 255) :
    (dcCodes td v).isSome = true ↔ v.natAbs ≤ 2047 := by
  rw [← codeBits_dc_size_isSome td hv, dcCodes]
  cases codeBits (tableOf .dc td) (BitVec.ofNat 8 (magSize v)) <;> simp

theorem toNat_nibbles {hi lo : Nat} (hh : hi < 16) (hl : lo < 16) : (nibbles hi lo).toNat = 16 * hi + lo := by
  have hor := Nat.shiftLeft_add_eq_or_of_lt (i := 4) (b := lo) (by omega) hi
  rw [nibbles, BitVec.toNat_ofNat, ← hor, Nat.shiftLeft_eq]
  omega

/-- R117 (b), R117 (c): the AC tables stop at size 10, whatever the run. -/
theorem codeBits_ac_size_isSome (ta : TableSet) (run : Nat) {v : Int} (h0 : v ≠ 0) (h15 : magSize v ≤ 15) :
    (codeBits (tableOf .ac ta) (nibbles (run % 16) (magSize v))).isSome = true ↔ v.natAbs ≤ 1023 := by
  obtain ⟨h1, -⟩ := magSize_bounds h0
  have hn := toNat_nibbles (Nat.mod_lt run (by decide : 0 < 16)) (Nat.lt_succ_of_le h15)
  have hlow : (nibbles (run % 16) (magSize v)).toNat % 16 = magSize v := by omega
  have hsymbols : ∀ b : Byte, nibbles (run % 16) (magSize v) = b → b.toNat % 16 = magSize v := by
    rintro _ rfl
    exact hlow
  have h10 : magSize v ≤ 10 ↔ v.natAbs ≤ 1023 := by rw [magSize_le_iff]; omega
  rw [codeBits_ac_isSome, hlow, ← h10]
  constructor
  · rintro (h | h | ⟨-, h⟩)
    · have := hsymbols _ h
      simp at this
      omega
    · have := hsymbols _ h
      simp at this
      omega
    · exact h
  · exact fun h => .inr (.inr ⟨h1, h⟩)

theorem zrlCodes_isSome (ta : TableSet) (n : Nat) : (zrlCodes ta n).isSome = true := by
  have hz : (codeBits (tableOf .ac ta) 0xF0#8).isSome = true := (codeBits_ac_isSome ta _).mpr (.inr (.inl rfl))
  induction n with
  | zero => rfl
  | succ n ih =>
    obtain ⟨z, hz⟩ := Option.isSome_iff_exists.mp hz
    obtain ⟨zs, hzs⟩ := Option.isSome_iff_exists.mp ih
    simp [zrlCodes, hz, hzs]

theorem acItemCodes_isSome (ta : TableSet) (run : Nat) {v : Int} (h0 : v ≠ 0) :
    (acItemCodes ta run v).isSome = true ↔ v.natAbs ≤ 1023 := by
  obtain ⟨zs, hzs⟩ := Option.isSome_iff_exists.mp (zrlCodes_isSome ta (run / 16))
  rw [acItemCodes, hzs]
  by_cases h15 : magSize v ≤ 15
  · rw [← codeBits_ac_size_isSome ta run h0 h15]
    cases codeBits (tableOf .ac ta) (nibbles (run % 16) (magSize v)) <;> simp [h15]
  · have hbig : ¬ v.natAbs < 2 ^ 15 := mt magSize_le_iff.mpr h15
    simp [Nat.lt_of_not_le h15]
    omega

theorem acCodes_isSome (ta : TableSet) (vs : List Coef) (run : Nat) :
    (acCodes ta vs run).isSome = true ↔ ∀ v ∈ vs, v.toInt.natAbs ≤ 1023 := by
  induction vs generalizing run with
  | nil =>
    have heob : (codeBits (tableOf .ac ta) 0x00#8).isSome = true := (codeBits_ac_isSome ta _).mpr (.inl rfl)
    obtain ⟨e, he⟩ := Option.isSome_iff_exists.mp heob
    by_cases hr : 0 < run <;> simp [acCodes, hr, he]
  | cons v vs ih =>
    rw [List.forall_mem_cons, acCodes]
    by_cases hv : v = 0#32
    · rw [if_pos hv, ih, hv]
      simp
    · have hint : v.toInt ≠ 0 := fun h => hv (BitVec.eq_of_toInt_eq (by simpa using h))
      rw [if_neg hv, ← acItemCodes_isSome ta run hint, ← ih 0]
      cases acItemCodes ta run v.toInt <;> cases acCodes ta vs 0 <;> simp

/-! ### Which blocks have a coded form -/

theorem blockString_isSome (block : Block Coef) (prev : Coef) (td ta : TableSet) :
    (blockString block prev td ta).isSome = true ↔
      (dcCodes td (dcDiff block prev)).isSome = true ∧ (acCodes ta (acInScanOrder block) 0).isSome = true := by
  unfold blockString blockCodes
  cases dcCodes td (dcDiff block prev) <;> cases acCodes ta (acInScanOrder block) 0 <;> simp

/-- The AC entries in scan order are the entries 1 to 63 (R118). -/
theorem mem_acInScanOrder {block : Block Coef} {v : Coef} :
    v ∈ acInScanOrder block ↔ ∃ i, 1 ≤ i ∧ i < 64 ∧ v = block.getD i 0#32 := by
  have hto : ∀ k : Fin 63, 1 ≤ unzigzag (k.val + 1) ∧ unzigzag (k.val + 1) < 64 := by decide
  have hof : ∀ k : Fin 63, 1 ≤ zigzag (k.val + 1) := by decide
  simp only [acInScanOrder, List.mem_map, List.mem_range, exists_exists_and_eq_and]
  constructor
  · rintro ⟨k, hk, rfl⟩
    obtain ⟨h1, h64⟩ := hto ⟨k, hk⟩
    exact ⟨_, h1, h64, rfl⟩
  · rintro ⟨i, h1, h64, rfl⟩
    have hpos := hof ⟨i - 1, by omega⟩
    have hlt := zigzag_lt h64
    have hback := unzigzag_zigzag h64
    rw [Nat.sub_add_cancel h1] at hpos
    exact ⟨zigzag i - 1, by omega, by rw [Nat.sub_add_cancel hpos, hback]⟩

theorem forall_mem_acInScanOrder {block : Block Coef} {P : Coef → Prop} :
    (∀ v ∈ acInScanOrder block, P v) ↔ ∀ i, 1 ≤ i → i < 64 → P (block.getD i 0#32) := by
  constructor
  · exact fun h i h1 h64 => h _ (mem_acInScanOrder.mpr ⟨i, h1, h64, rfl⟩)
  · intro h v hv
    obtain ⟨i, h1, h64, rfl⟩ := mem_acInScanOrder.mp hv
    exact h i h1 h64

theorem magSize_dcDiff_le (block : Block Coef) (prev : Coef) : magSize (dcDiff block prev) ≤ 255 :=
  Nat.le_trans (magSize_dcDiff block prev) (by decide)

/-- Settles O40: the DC part has a code up to 2047, and each AC item up to 1023, whatever its run. -/
theorem codableBlocksAreTheOnesInRange : Obligations.CodableBlocksAreTheOnesInRange := by
  unfold Obligations.CodableBlocksAreTheOnesInRange
  intro block prev td ta
  rw [blockString_isSome, dcCodes_isSome td (magSize_dcDiff_le block prev), acCodes_isSome, forall_mem_acInScanOrder]
  rfl

/-! ### Out of range (R117) -/

/-- The sink accepts every write that is still to come. -/
def SinkWilling (s : State) : Prop := ∀ a ∈ s.sinkAnswers, a = SinkAnswer.ok

/-- An operation has raised HuffmanLengthError. -/
def NoCodeRaised (t : State) : Prop := t.err = .huffmanLengthError ∧ t.fatal = true ∧ t.busy = false

theorem sinkByte_willing (b : Byte) {s : State} (h : SinkWilling s) : (sinkByte b s).Ends SinkWilling NoCodeRaised := by
  unfold sinkByte
  split
  · exact h
  · rename_i as has
    exact fun a ha => h a (by rw [has]; exact List.mem_cons_of_mem _ ha)
  · rename_i as has
    exact absurd (h .fail (by rw [has]; exact List.mem_cons_self)) (by simp)

theorem raise_noCodeRaised (s : State) : NoCodeRaised (raiseError .huffmanLengthError s) :=
  ⟨rfl, by simp [ErrCode.isFatal], rfl⟩

/-- With a willing sink an operation that sends symbols raises nothing but HuffmanLengthError. -/
theorem willing_coding : Coding (Itself SinkWilling) (Itself NoCodeRaised) :=
  (sendable_itself (fun h _ _ => h) (fun h b => sinkByte_willing b h) (fun _ => raise_noCodeRaised _)).coding

/-- The operation has raised for want of a code. -/
abbrev Run.RaisesNoCode {α : Type} (r : Run α) : Prop := r.Ends (fun _ => False) NoCodeRaised

theorem Run.RaisesNoCode.bind {α β : Type} {m : Run α} (h : m.RaisesNoCode) (k : α → State → Run β) :
    (m.bind k).RaisesNoCode :=
  Run.Ends.bind (P' := fun _ => False) h fun _ _ hf => hf.elim

theorem writeValue_raisesNoCode {sym : Byte} {t : HuffTable} (h : codeBits t sym = none) (v : Int) (s : State) :
    (writeValue sym t v s).RaisesNoCode := by
  rw [writeValue, huffmanEncode_raises h]
  exact raise_noCodeRaised s

theorem writeAc_raisesNoCode (ta : TableSet) (run : Nat) {v : Int} (hv : 1023 < v.natAbs) {s : State}
    (h : SinkWilling s) : (writeAc ta run v s).RaisesNoCode := by
  have hzrl : (zrlTimes ta (run / 16) s).Ends SinkWilling NoCodeRaised :=
    Run.Ends.forEach _ (fun _ _ _ ht => (willing_coding.huffmanEncode ⟨rfl, ht⟩ _ _).ends) h
  refine Run.Ends.bind hzrl fun _ t _ => ?_
  split
  · exact raise_noCodeRaised t
  · rename_i h15
    have hnone : ¬ (codeBits (tableOf .ac ta) (nibbles (run % 16) (magSize v))).isSome = true := by
      rw [codeBits_ac_size_isSome ta run (by omega) (by omega)]
      omega
    exact writeValue_raisesNoCode (by simpa using hnone) v t

theorem scanAc_raisesNoCode (ta : TableSet) {vs : List Coef} (hvs : ∃ v ∈ vs, 1023 < v.toInt.natAbs) (run : Nat)
    {s : State} (h : SinkWilling s) : (scanAc ta vs run s).RaisesNoCode := by
  induction vs generalizing run s with
  | nil => simp at hvs
  | cons v vs ih =>
    rw [List.exists_mem_cons_iff] at hvs
    unfold scanAc
    split
    · rename_i hv
      exact ih (hvs.resolve_left (by simp [hv])) (run + 1) h
    · by_cases hbig : 1023 < v.toInt.natAbs
      · exact (writeAc_raisesNoCode ta run hbig h).bind _
      · exact Run.Ends.bind (willing_coding.writeAc ⟨rfl, h⟩ ta run _).ends
          fun _ _ ht => ih (hvs.resolve_left hbig) 0 ht

/-- Settles O41: a DC difference out of range has no symbol; an AC entry out of range is reached, if nothing raised
before it, and then it or its size has no code. -/
theorem writeBlockOutOfRangeRaises : Obligations.WriteBlockOutOfRangeRaises := by
  unfold Obligations.WriteBlockOutOfRangeRaises
  intro block prev td ta s
  constructor
  · intro hdc
    have hnone : ¬ (codeBits (tableOf .dc td) (BitVec.ofNat 8 (magSize (dcDiff block prev)))).isSome = true := by
      rw [codeBits_dc_size_isSome td (magSize_dcDiff_le block prev)]
      exact Nat.not_le_of_lt hdc
    rw [exec_writeBlock, writeBlock, writeValue, huffmanEncode_raises (by simpa using hnone)]
    simp [Run.raise, finish, raiseError, ErrCode.isFatal]
  · intro i h1 h64 hac hsink
    have hbad : ∃ v ∈ acInScanOrder block, 1023 < v.toInt.natAbs :=
      ⟨_, mem_acInScanOrder.mpr ⟨i, h1, h64, rfl⟩, hac⟩
    have hraises : (writeBlock block prev td ta s).RaisesNoCode :=
      Run.Ends.bind (willing_coding.writeValue ⟨rfl, hsink⟩ _ _ _).ends
        fun _ _ ht => (scanAc_raisesNoCode ta hbad 0 ht).bind _
    cases hrun : writeBlock block prev td ta s with
    | done v t => rw [hrun] at hraises; exact hraises.elim
    | raised t =>
      rw [hrun] at hraises
      rw [exec_writeBlock, hrun]
      exact ⟨_, rfl, hraises⟩

end Sys2Proof.Machine
end

section
/-! PROOFS. SAMPLE_BLOCK (R121, R122, R123) and the reference transform (R135, R137). -/
namespace Sys2Proof.Machine
open Sys2Proof

/-! ### SAMPLE_BLOCK -/

/-- A buffer that is not empty answers every fetch: past its end with its last byte. -/
theorem fetch_of_nonempty {s : State} (h : 0 < s.srcLen.toNat) (off : Nat) :
    fetch s off = s.img.read (min off (s.srcLen.toNat - 1)) := by
  unfold fetch
  split
  · rw [Nat.min_eq_left (by omega)]
  · rw [Nat.min_eq_right (by omega)]

/-- Channel `k` of the pixel in column `x` and row `y` of a block. -/
theorem sampleAt_of_nonempty {s : State} (h : 0 < s.srcLen.toNat) (x0 y0 k : Nat) {x : Nat} (y : Nat) (hx : x < 8) :
    sampleAt s x0 y0 (8 * y + x) k =
      s.img.read (min (((y0 + y) * s.width.toNat + (x0 + x)) * bpp s.colorMode + k) (s.srcLen.toNat - 1)) := by
  rw [sampleAt, fetch_of_nonempty h, sampleOffset, show (8 * y + x) % 8 = x by omega,
    show (8 * y + x) / 8 = y by omega]

theorem exec_sampleBlock (x0 y0 : Nat) (s : State) :
    exec (.sampleBlock x0 y0) s = .next (returned .none (sampleBlock x0 y0 s)) := rfl

/-- Settles O42: entry `8 * y + x` of a block is the pixel in column `x` and row `y`, fetched channel by channel. -/
theorem sampleBlockReadsImage : Obligations.SampleBlockReadsImage := by
  unfold Obligations.SampleBlockReadsImage
  intro s x0 y0
  refine ⟨sampledBlocks s x0 y0, _, exec_sampleBlock x0 y0 s, fun hsrc => ⟨?_, fun x y hx hy => ?_⟩⟩
  · have hne : s.srcLen ≠ 0#36 := by
      rintro h
      simp [h] at hsrc
    exact if_neg hne
  · have hi : 8 * y + x < 64 := by omega
    intro byte
    have hbyte : ∀ k, sampleAt s x0 y0 (8 * y + x) k = byte k := fun k => sampleAt_of_nonempty hsrc x0 y0 k y hx
    constructor
    · intro hn
      rw [sampledBlocks, hn]
      exact ⟨by rw [Fixed.getD_ofFn _ _ hi, hbyte], rfl, rfl⟩
    · intro hn
      rw [sampledBlocks, hn]
      dsimp only
      rw [Fixed.getD_ofFn _ _ hi, Fixed.getD_ofFn _ _ hi, Fixed.getD_ofFn _ _ hi, yccAt, hbyte, hbyte, hbyte]

/-! ### FDCT_REF: the butterfly -/

/-- The first result is the sum of the eight values less the bias. -/
theorem butterfly_getD_zero (s : Nat → Int) (bias : Int) :
    (butterfly s bias).getD 0 0 = s 0 + s 1 + s 2 + s 3 + s 4 + s 5 + s 6 + s 7 - bias := by
  simp only [butterfly, List.getD_cons_zero]
  ring

theorem length_butterfly (s : Nat → Int) (bias : Int) : (butterfly s bias).length = 8 := rfl

/-- The butterfly reads its eight values only. -/
theorem butterfly_congr {s t : Nat → Int} (h : ∀ x, x < 8 → s x = t x) (bias : Int) :
    butterfly s bias = butterfly t bias := by
  simp only [butterfly, h 0 (by decide), h 1 (by decide), h 2 (by decide), h 3 (by decide), h 4 (by decide),
    h 5 (by decide), h 6 (by decide), h 7 (by decide)]

/-- Eight equal values have no other result than the first. -/
theorem butterfly_constant {s : Nat → Int} {v : Int} (h : ∀ x, x < 8 → s x = v) (bias : Int) {i : Nat} (h1 : 1 ≤ i)
    (h8 : i < 8) : (butterfly s bias).getD i 0 = 0 := by
  rw [butterfly_congr (t := fun _ => v) h]
  interval_cases i <;> simp [butterfly]

theorem getD_mapIdx {l : List Int} (f : Nat → Int → Int) {i : Nat} (h : i < l.length) :
    (l.mapIdx f).getD i 0 = f i (l.getD i 0) := by
  rw [List.getD_eq_getElem _ _ (by simpa using h), List.getD_eq_getElem _ _ h, List.getElem_mapIdx]

theorem getD_map_range {α : Type} (f : Nat → α) (d : α) {n i : Nat} (h : i < n) :
    ((List.range n).map f).getD i d = f i := by
  simp [h]

/-! ### FDCT_REF: the two passes -/

/-- Row `y` of the samples. -/
def sampleRow (samp : Block Byte) (y x : Nat) : Int := ((samp.getD (8 * y + x) 0#8).toNat : Int)

/-- Entry `c` of row `y` after the row pass. -/
def rowEntry (samp : Block Byte) (y c : Nat) : Int := scaleRow c ((butterfly (sampleRow samp y) 1024).getD c 0)

theorem rowPass_getD (samp : Block Byte) (y : Nat) {c : Nat} (hc : c < 8) :
    (rowPass samp y).getD c 0 = rowEntry samp y c :=
  getD_mapIdx scaleRow hc

/-- Each entry of the transform is the column pass over the row pass (R137). -/
theorem fdctRef_getD (samp : Block Byte) {i : Nat} (hi : i < 64) :
    (fdctRef samp).getD i 0#32 =
      BitVec.ofInt 32 (scaleCol (i / 8) ((butterfly (fun y => rowEntry samp y (i % 8)) 0).getD (i / 8) 0)) := by
  have hcol : i % 8 < 8 := Nat.mod_lt i (by decide)
  have hrow : i / 8 < 8 := by omega
  have hpass : ∀ y, y < 8 →
      (((List.range 8).map (rowPass samp)).getD y []).getD (i % 8) 0 = rowEntry samp y (i % 8) := by
    intro y hy
    rw [getD_map_range _ _ hy, rowPass_getD samp y hcol]
  rw [fdctRef, Fixed.getD_ofFn _ _ hi, getD_map_range _ _ hcol, colPass,
    getD_mapIdx scaleCol (by rw [length_butterfly]; exact hrow), butterfly_congr hpass]

theorem scaleRow_zero (c : Nat) : scaleRow c 0 = 0 := by
  unfold scaleRow
  split <;> rfl

theorem scaleCol_zero (c : Nat) : scaleCol c 0 = 0 := by
  unfold scaleCol
  split <;> rfl

/-! ### FDCT_REF: the DC entry -/

/-- The two scalings of the DC entry undo each other. -/
theorem scaleCol_four_mul (m : Int) : scaleCol 0 (4 * m) = m := by
  simp only [scaleCol, descale, floorDiv]
  rw [Int.fdiv_eq_ediv_of_nonneg _ (by decide)]
  norm_num
  omega

/-- The sum of the eight values of a row. -/
def rowSum (samp : Block Byte) (y : Nat) : Int :=
  sampleRow samp y 0 + sampleRow samp y 1 + sampleRow samp y 2 + sampleRow samp y 3 + sampleRow samp y 4 +
    sampleRow samp y 5 + sampleRow samp y 6 + sampleRow samp y 7

theorem rowEntry_zero (samp : Block Byte) (y : Nat) : rowEntry samp y 0 = 4 * (rowSum samp y - 1024) := by
  rw [rowEntry, butterfly_getD_zero, rowSum]
  simp only [scaleRow]
  norm_num
  ring

theorem sampleSum_eq_rowSums (samp : Block Byte) :
    (sampleSum samp : Int) = rowSum samp 0 + rowSum samp 1 + rowSum samp 2 + rowSum samp 3 + rowSum samp 4 +
      rowSum samp 5 + rowSum samp 6 + rowSum samp 7 := by
  have hlist : samp.toList = (List.range 64).map fun i => samp.getD i 0#8 :=
    (congrArg Fixed.toList (Fixed.ofFn_getD samp 0#8)).symm
  have hrange : List.range 64 = (List.range 8).flatMap fun y => (List.range 8).map fun x => 8 * y + x := by decide
  rw [sampleSum, hlist, hrange]
  simp only [List.range, List.range.loop, List.flatMap_cons, List.flatMap_nil, List.map_cons, List.map_nil,
    List.cons_append, List.nil_append, List.append_nil, List.sum_cons, List.sum_nil, rowSum, sampleRow]
  push_cast
  ring

theorem fdctRef_dc_toInt (samp : Block Byte) : ((fdctRef samp).getD 0 0#32).toInt = (sampleSum samp : Int) - 8192 := by
  have hsum := sampleSum_le samp
  have hdc : scaleCol 0 ((butterfly (fun y => rowEntry samp y 0) 0).getD 0 0) = (sampleSum samp : Int) - 8192 := by
    rw [butterfly_getD_zero, sampleSum_eq_rowSums, ← scaleCol_four_mul (_ - 8192)]
    simp only [rowEntry_zero]
    congr 1
    ring
  rw [fdctRef_getD samp (by decide), hdc]
  exact BitVec.toInt_ofInt_eq_self (by decide) (by omega) (by omega)

/-! ### FDCT_REF: constant blocks -/

/-- A constant block has equal values in a row, and equal entries in a column after the row pass: only entry 0 of either
pass is not 0. -/
theorem fdctRef_ac_constant {samp : Block Byte} {v : Byte} (hv : ∀ b ∈ samp.toList, b = v) {i : Nat} (h1 : 1 ≤ i)
    (h64 : i < 64) : (fdctRef samp).getD i 0#32 = 0#32 := by
  have hrow : ∀ y, y < 8 → ∀ x, x < 8 → sampleRow samp y x = v.toNat := by
    intro y hy x hx
    rw [sampleRow, hv _ (samp.getD_mem _ (by omega))]
  have hcolumn : ∀ c, c < 8 → ∀ y, y < 8 → rowEntry samp y c = rowEntry samp 0 c := by
    intro c hc y hy
    rw [rowEntry, rowEntry, butterfly_congr (t := sampleRow samp 0) fun x hx => by
      rw [hrow y hy x hx, hrow 0 (by decide) x hx]]
  have hentry : (butterfly (fun y => rowEntry samp y (i % 8)) 0).getD (i / 8) 0 = 0 := by
    by_cases hfirst : i / 8 = 0
    · have hzero : ∀ y, y < 8 → rowEntry samp y (i % 8) = 0 := by
        intro y hy
        rw [rowEntry, butterfly_constant (hrow y hy) _ (by omega) (by omega), scaleRow_zero]
      rw [hfirst, butterfly_congr (t := fun _ => 0) hzero]
      simp [butterfly]
    · exact butterfly_constant (hcolumn (i % 8) (by omega)) 0 (by omega) (by omega)
  rw [fdctRef_getD samp h64, hentry, scaleCol_zero]
  rfl

/-- Settles O46: the DC entry is the sum, for its two scalings cancel; on a constant block every difference of the two
butterflies is 0. -/
theorem referenceFdctIsExactAtDc : Obligations.ReferenceFdctIsExactAtDc := by
  unfold Obligations.ReferenceFdctIsExactAtDc
  intro samp s hreference
  have hraw : fdctInto samp s = { s with raw := fdctRef samp } := by rw [fdctInto, hreference]; rfl
  refine ⟨fdctRef samp, ?_, fdctRef_dc_toInt samp, fun v hv i h1 h64 => fdctRef_ac_constant hv h1 h64⟩
  calc exec (.fdct samp) s = .next (returned .none (fdctInto samp s)) := rfl
    _ = .next { s with raw := fdctRef samp, result := .none } := by rw [hraw]; rfl

end Sys2Proof.Machine
end

section
/-! PROOFS. COLOR_TRANSFORM in binary32 (R127, log 19): each rounding moves a sum by at most 1024 units of `2^-27`,
and all of them together by less than the 13421 units by which two values of the exact formulas differ at least. So a
truncated sum is the exact quotient or one less; one less only where the exact quotient is whole, and there Cb is
rounded upwards. -/
namespace Sys2Proof.Machine
open Sys2Proof

/-! ### Rounding to 24 bits -/

/-- The rounded quotient is within half a unit. -/
theorem roundHalfEven_near (n : Nat) {d : Nat} (hd : 0 < d) :
    2 * n ≤ 2 * (roundHalfEven n d * d) + d ∧ 2 * (roundHalfEven n d * d) ≤ 2 * n + d := by
  have hdiv := Nat.div_add_mod n d
  have hmod := Nat.mod_lt n hd
  have hmul : d * (n / d) = n / d * d := Nat.mul_comm _ _
  have hsucc : (n / d + 1) * d = n / d * d + d := by rw [Nat.add_mul, Nat.one_mul]
  unfold roundHalfEven
  dsimp only
  split_ifs <;> omega

/-- Rounding does not pass a multiple of the unit. -/
theorem roundHalfEven_le {n d q : Nat} (h : n ≤ q * d) : roundHalfEven n d ≤ q := by
  obtain rfl | hd := Nat.eq_zero_or_pos d
  · have hn : n = 0 := by omega
    simp [roundHalfEven, hn]
  · have hdiv := Nat.div_add_mod n d
    have hle : n / d ≤ q := Nat.div_le_of_le_mul (by rwa [Nat.mul_comm])
    unfold roundHalfEven
    dsimp only
    by_cases hr : n % d = 0
    · rw [if_pos (by omega)]
      exact hle
    · have hlt : n / d ≠ q := by
        rintro rfl
        rw [Nat.mul_comm] at h
        omega
      split_ifs <;> omega

theorem le_roundHalfEven {n d q : Nat} (h : q * d ≤ n) (hd : 0 < d) : q ≤ roundHalfEven n d := by
  have hle : q ≤ n / d := (Nat.le_div_iff_mul_le hd).mpr h
  unfold roundHalfEven
  dsimp only
  split_ifs <;> omega

/-- Rounding as the model writes it, with the unit `2 ^ k` named. -/
theorem fl_eq {n : Int} (h : 24 < bitlen n.natAbs) :
    fl n = n.sign * ((roundHalfEven n.natAbs (2 ^ (bitlen n.natAbs - 24)) * 2 ^ (bitlen n.natAbs - 24) : Nat) : Int) :=
  if_neg (Nat.not_le_of_lt h)

theorem fl_of_short {n : Int} (h : bitlen n.natAbs ≤ 24) : fl n = n := if_pos h

/-- Below `2 ^ 35` units a rounding moves a value by at most 1024 of them. -/
theorem fl_near {n : Int} (h : n.natAbs < 2 ^ 35) : n - 1024 ≤ fl n ∧ fl n ≤ n + 1024 := by
  by_cases hlen : bitlen n.natAbs ≤ 24
  · rw [fl_of_short hlen]
    omega
  · have h35 := bitlen_le h
    have hunit : 2 ^ (bitlen n.natAbs - 24) ≤ 2 ^ 11 := Nat.pow_le_pow_right (by decide) (by omega)
    obtain ⟨hlo, hhi⟩ := roundHalfEven_near n.natAbs (d := 2 ^ (bitlen n.natAbs - 24)) (by positivity)
    rw [fl_eq (by omega)]
    generalize roundHalfEven n.natAbs (2 ^ (bitlen n.natAbs - 24)) * 2 ^ (bitlen n.natAbs - 24) = a at *
    obtain hn | rfl | hn := lt_trichotomy n 0
    · rw [Int.sign_eq_neg_one_of_neg hn]
      omega
    · simp
    · rw [Int.sign_eq_one_of_pos hn]
      omega

/-- Rounding does not pass downwards a multiple of `2 ^ 26` units, which 24 bits hold. -/
theorem le_fl {m n : Int} (h : n.natAbs < 2 ^ 35) (hm : m * 2 ^ 26 ≤ n) : m * 2 ^ 26 ≤ fl n := by
  by_cases hlen : bitlen n.natAbs ≤ 24
  · rwa [fl_of_short hlen]
  · have h35 := bitlen_le h
    obtain ⟨c, hc⟩ : 2 ^ (bitlen n.natAbs - 24) ∣ 2 ^ 26 := Nat.pow_dvd_pow 2 (by omega)
    have hunit : m.natAbs * 2 ^ 26 = m.natAbs * c * 2 ^ (bitlen n.natAbs - 24) := by rw [hc]; ring
    rw [fl_eq (by omega)]
    obtain hn | rfl | hn := lt_trichotomy n 0
    · have hround := roundHalfEven_le (n := n.natAbs) (q := m.natAbs * c) (d := 2 ^ (bitlen n.natAbs - 24)) (by omega)
      have hmul := Nat.mul_le_mul_right (2 ^ (bitlen n.natAbs - 24)) hround
      rw [Int.sign_eq_neg_one_of_neg hn]
      omega
    · exact absurd (by decide) hlen
    · rw [Int.sign_eq_one_of_pos hn]
      obtain hm0 | hm0 := le_or_gt m 0
      · omega
      · have hround := le_roundHalfEven (n := n.natAbs) (q := m.natAbs * c) (d := 2 ^ (bitlen n.natAbs - 24))
          (by omega) (by positivity)
        have hmul := Nat.mul_le_mul_right (2 ^ (bitlen n.natAbs - 24)) hround
        omega

theorem fl_nonneg {n : Int} (h : 0 ≤ n) (hlt : n.natAbs < 2 ^ 35) : 0 ≤ fl n := by
  simpa using le_fl (m := 0) hlt (by simpa using h)

/-! ### Truncation -/

theorem truncF_of_nonneg {n : Int} (h : 0 ≤ n) : truncF n = n / 2 ^ 27 := by
  rw [truncF, tdiv_eq_int_tdiv, Int.tdiv_eq_ediv_of_nonneg h]
  rfl

/-- `sum`, in units of `2^-27`, is nearer to `num / 10000` than another multiple of `1 / 10000` is. -/
def NearQuotient (sum num : Int) : Prop := 2 ^ 27 * (num - 1) < 10000 * sum ∧ 10000 * sum < 2 ^ 27 * (num + 1)

/-- Its whole part is that of the quotient, or one less; the latter only if the quotient is whole and `sum` is below. -/
theorem NearQuotient.div_eq {sum num : Int} (h : NearQuotient sum num) :
    (sum / 2 ^ 27 = num / 10000 ∨ sum / 2 ^ 27 = num / 10000 - 1) ∧
      ((num % 10000 = 0 → num / 10000 * 2 ^ 27 ≤ sum) → sum / 2 ^ 27 = num / 10000) := by
  obtain ⟨hlo, hhi⟩ := h
  omega

/-! ### The sums -/

theorem constants_eq :
    c0299 = 40131100 ∧ c0587 = 78785808 ∧ c0114 = 15300821 ∧ c01687 = 22642530 ∧ c03313 = 44466332 ∧
      c05 = 67108864 ∧ c04187 = 56196964 ∧ c00813 = 10911901 ∧ c128 = 17179869184 := by
  decide +kernel

/-- The binary32 sums before they are truncated. -/
def sumY (r g b : Byte) : Int := fl (fl (fl (c0299 * r.toNat) + fl (c0587 * g.toNat)) + fl (c0114 * b.toNat))

def sumCb (r g b : Byte) : Int :=
  fl (fl (fl (fl (-c01687 * r.toNat) - fl (c03313 * g.toNat)) + fl (c05 * b.toNat)) + c128)

def sumCr (r g b : Byte) : Int :=
  fl (fl (fl (fl (c05 * r.toNat) - fl (c04187 * g.toNat)) - fl (c00813 * b.toNat)) + c128)

theorem sumY_near (r g b : Byte) :
    0 ≤ sumY r g b ∧ NearQuotient (sumY r g b) (2990 * r.toNat + 5870 * g.toNat + 1140 * b.toNat) := by
  have hr := r.isLt
  have hg := g.isLt
  have hb := b.isLt
  obtain ⟨hcr, hcg, hcb, -⟩ := constants_eq
  unfold sumY NearQuotient
  rw [hcr, hcg, hcb]
  have h1 := fl_near (n := 40131100 * r.toNat) (by omega)
  have h2 := fl_near (n := 78785808 * g.toNat) (by omega)
  have h3 := fl_near (n := 15300821 * b.toNat) (by omega)
  have p1 := fl_nonneg (n := 40131100 * r.toNat) (by omega) (by omega)
  have p2 := fl_nonneg (n := 78785808 * g.toNat) (by omega) (by omega)
  have p3 := fl_nonneg (n := 15300821 * b.toNat) (by omega) (by omega)
  generalize fl (40131100 * r.toNat) = x1, fl (78785808 * g.toNat) = x2, fl (15300821 * b.toNat) = x3 at *
  have h4 := fl_near (n := x1 + x2) (by omega)
  have p4 := fl_nonneg (n := x1 + x2) (by omega) (by omega)
  generalize fl (x1 + x2) = x4 at *
  have h5 := fl_near (n := x4 + x3) (by omega)
  have p5 := fl_nonneg (n := x4 + x3) (by omega) (by omega)
  omega

theorem sumCb_near (r g b : Byte) :
    0 ≤ sumCb r g b ∧
      NearQuotient (sumCb r g b) (-1687 * r.toNat - 3313 * g.toNat + 5000 * b.toNat + 1280000) := by
  have hr := r.isLt
  have hg := g.isLt
  have hb := b.isLt
  obtain ⟨-, -, -, hcr, hcg, hcb, -, -, hc128⟩ := constants_eq
  unfold sumCb NearQuotient
  rw [hcr, hcg, hcb, hc128]
  have h1 := fl_near (n := -22642530 * r.toNat) (by omega)
  have h2 := fl_near (n := 44466332 * g.toNat) (by omega)
  have h3 := fl_near (n := 67108864 * b.toNat) (by omega)
  generalize fl (-22642530 * r.toNat) = x1, fl (44466332 * g.toNat) = x2, fl (67108864 * b.toNat) = x3 at *
  have h4 := fl_near (n := x1 - x2) (by omega)
  generalize fl (x1 - x2) = x4 at *
  have h5 := fl_near (n := x4 + x3) (by omega)
  generalize fl (x4 + x3) = x5 at *
  have h6 := fl_near (n := x5 + 17179869184) (by omega)
  omega

theorem sumCr_near (r g b : Byte) :
    0 ≤ sumCr r g b ∧
      NearQuotient (sumCr r g b) (5000 * r.toNat - 4187 * g.toNat - 813 * b.toNat + 1280000) := by
  have hr := r.isLt
  have hg := g.isLt
  have hb := b.isLt
  obtain ⟨-, -, -, -, -, hcr, hcg, hcb, hc128⟩ := constants_eq
  unfold sumCr NearQuotient
  rw [hcr, hcg, hcb, hc128]
  have h1 := fl_near (n := 67108864 * r.toNat) (by omega)
  have h2 := fl_near (n := 56196964 * g.toNat) (by omega)
  have h3 := fl_near (n := 10911901 * b.toNat) (by omega)
  generalize fl (67108864 * r.toNat) = x1, fl (56196964 * g.toNat) = x2, fl (10911901 * b.toNat) = x3 at *
  have h4 := fl_near (n := x1 - x2) (by omega)
  generalize fl (x1 - x2) = x4 at *
  have h5 := fl_near (n := x4 - x3) (by omega)
  generalize fl (x4 - x3) = x5 at *
  have h6 := fl_near (n := x5 + 17179869184) (by omega)
  omega

/-! ### Cb where the exact quotient is whole -/

/-- Only equal red and green cancel modulo 10000. -/
theorem red_eq_green_of_whole {r g b : Byte}
    (h : (-1687 * (r.toNat : Int) - 3313 * g.toNat + 5000 * b.toNat + 1280000) % 10000 = 0) : g = r := by
  have hr := r.isLt
  have hg := g.isLt
  exact BitVec.eq_of_toNat_eq (by omega)

/-- With equal red and green what they subtract is never rounded above a half of either. -/
theorem redGreen_ge (r : Byte) :
    -(r.toNat : Int) * 2 ^ 26 ≤ fl (fl (-c01687 * r.toNat) - fl (c03313 * r.toNat)) := by
  have hall : ∀ n : Fin 256, -(n.val : Int) * 2 ^ 26 ≤ fl (fl (-c01687 * n.val) - fl (c03313 * n.val)) := by
    decide +kernel
  exact hall ⟨r.toNat, r.isLt⟩

/-- So the sum is not below the exact one, which no rounding passes. -/
theorem sumCb_ge_of_red_eq_green (r b : Byte) : ((b.toNat : Int) - r.toNat + 256) * 2 ^ 26 ≤ sumCb r r b := by
  have hr := r.isLt
  have hb := b.isLt
  obtain ⟨-, -, -, hcr, hcg, hcb, -, -, hc128⟩ := constants_eq
  have h4 := redGreen_ge r
  unfold sumCb
  rw [hcr, hcg] at h4 ⊢
  rw [hcb, hc128]
  have h1 := fl_near (n := -22642530 * r.toNat) (by omega)
  have h2 := fl_near (n := 44466332 * r.toNat) (by omega)
  have n4 := fl_near (n := fl (-22642530 * r.toNat) - fl (44466332 * r.toNat)) (by omega)
  generalize fl (fl (-22642530 * r.toNat) - fl (44466332 * r.toNat)) = x4 at *
  have h3 := le_fl (m := b.toNat) (n := 67108864 * b.toNat) (by omega) (by omega)
  have n3 := fl_near (n := 67108864 * b.toNat) (by omega)
  generalize fl (67108864 * b.toNat) = x3 at *
  have h5 := le_fl (m := b.toNat - r.toNat) (n := x4 + x3) (by omega) (by omega)
  have n5 := fl_near (n := x4 + x3) (by omega)
  exact le_fl (by omega) (by omega)

theorem sumCb_ge_of_whole (r g b : Byte)
    (h : (-1687 * (r.toNat : Int) - 3313 * g.toNat + 5000 * b.toNat + 1280000) % 10000 = 0) :
    (-1687 * (r.toNat : Int) - 3313 * g.toNat + 5000 * b.toNat + 1280000) / 10000 * 2 ^ 27 ≤ sumCb r g b := by
  obtain rfl := red_eq_green_of_whole h
  have hge := sumCb_ge_of_red_eq_green g b
  omega

/-! ### The operation -/

theorem toNat_ofInt_byte {v : Int} (h0 : 0 ≤ v) (h : v < 256) : ((BitVec.ofInt 8 v).toNat : Int) = v := by
  rw [BitVec.toNat_ofInt]
  omega

theorem exec_colorTransform_binary32 (r g b : Byte) {s : State} (h : s.params.colorArith = .binary32) :
    exec (.colorTransform r g b) s = .next (returned (.ycc (.ofInt 8 (binaryY r g b)) (.ofInt 8 (binaryCb r g b))
      (.ofInt 8 (binaryCr r g b))) s) := by
  simp [exec_colorTransform, execColorTransform, colorTransform, h]

/-- Settles O44: each truncated sum is the exact quotient or one less, hence a byte; that of Cb is never one less. -/
theorem binary32ColorStaysInByteRange : Obligations.Binary32ColorStaysInByteRange := by
  unfold Obligations.Binary32ColorStaysInByteRange
  intro r g b s hbinary
  obtain ⟨posY, nearY⟩ := sumY_near r g b
  obtain ⟨posCb, nearCb⟩ := sumCb_near r g b
  obtain ⟨posCr, nearCr⟩ := sumCr_near r g b
  have hY : binaryY r g b = sumY r g b / 2 ^ 27 := truncF_of_nonneg posY
  have hCb : binaryCb r g b = sumCb r g b / 2 ^ 27 := truncF_of_nonneg posCb
  have hCr : binaryCr r g b = sumCr r g b / 2 ^ 27 := truncF_of_nonneg posCr
  have qY := nearY.div_eq.1
  have qCb := nearCb.div_eq.2 (sumCb_ge_of_whole r g b)
  have qCr := nearCr.div_eq.1
  have ltY := exactY_lt r g b
  have ltCb := exactCb_lt r g b
  have ltCr := exactCr_lt r g b
  rw [← hY, ← exactY_cast] at qY
  rw [← hCb, ← exactCb_cast] at qCb
  rw [← hCr, ← exactCr_cast] at qCr
  have byteY := toNat_ofInt_byte (v := binaryY r g b) (by omega) (by omega)
  have byteCb := toNat_ofInt_byte (v := binaryCb r g b) (by omega) (by omega)
  have byteCr := toNat_ofInt_byte (v := binaryCr r g b) (by omega) (by omega)
  refine ⟨_, _, _, exec_colorTransform_binary32 r g b hbinary, byteY, byteCb, byteCr, ?_⟩
  rw [byteY, byteCb, byteCr, ← exactY_cast, ← exactCb_cast, ← exactCr_cast]
  exact ⟨qY, qCb, qCr⟩

end Sys2Proof.Machine
end

section
/-! PROOFS. The sequencer's steps (R163, R170, R174, R178): what moving on keeps, an operation taken whole or up to
the next sink write, and the flags that only reset clears (R200). -/
namespace Sys2Proof.Machine
open Sys2Proof

/-! ### What moving on keeps -/

/-- What the sequencer writes as it moves on is nothing that a `Keeps` reads. -/
theorem keeps_moved (s : State) (pred : Triple Coef) (busy : Bool) (phase : Phase) (y0 x0 : Nat) (c : Comp)
    (seq : SeqPoint) (r : OpResult) : Keeps s { s with
      pred := pred, busy := busy, phase := phase, y0 := y0, x0 := x0, c := c, seq := seq, result := r } :=
  ⟨rfl, rfl, rfl, rfl, rfl, rfl, rfl, rfl, rfl, rfl, rfl, [], by simp⟩

theorem nextPosition_keeps (s : State) : Keeps s (nextPosition s) := by
  unfold nextPosition
  split
  · exact keeps_moved s s.pred s.busy s.phase s.y0 (s.x0 + 8) .y .sample s.result
  · split
    · exact keeps_moved s s.pred s.busy s.phase (s.y0 + 8) 0 .y .sample s.result
    · exact keeps_moved s s.pred s.busy s.phase s.y0 s.x0 s.c .pad s.result

theorem afterBlock_keeps (s : State) : Keeps s (afterBlock s) := by
  unfold afterBlock
  split
  · exact keeps_moved s s.pred s.busy s.phase s.y0 s.x0 _ .fdct s.result
  · exact nextPosition_keeps s

theorem storePred_keeps (s : State) : Keeps s (storePred s) := by
  unfold storePred
  split
  · exact keeps_moved s _ s.busy s.phase s.y0 s.x0 s.c s.seq s.result
  all_goals exact Keeps.refl s

theorem advance_keeps (s : State) : Keeps s (advance s) := by
  have hseq : ∀ phase p, Keeps s { s with phase := phase, seq := p } := fun phase p =>
    keeps_moved s s.pred s.busy phase s.y0 s.x0 s.c p s.result
  unfold advance
  split
  · exact Keeps.refl s
  · split <;> exact hseq _ _
  · split <;> exact keeps_moved s s.pred s.busy .scanningBlocks 0 0 .y _ s.result
  · exact hseq _ _
  · exact hseq _ _
  · exact hseq _ _
  · exact (storePred_keeps s).trans (afterBlock_keeps _)
  · exact hseq _ _
  · exact keeps_moved s s.pred false .finalized s.y0 s.x0 s.c .idle .none

theorem moveOn_keeps (s : State) : Keeps s (moveOn s) := by
  unfold moveOn
  split
  · exact advance_keeps s
  · exact keeps_moved s s.pred s.busy s.phase s.y0 s.x0 s.c .idle .none

@[simp] theorem moveOn_fatal (s : State) : (moveOn s).fatal = s.fatal := by
  unfold moveOn
  split
  · obtain ⟨_, _, _, _, _, _, hfatal⟩ := advance_frame s
    exact hfatal
  · rfl

@[simp] theorem moveOn_err (s : State) : (moveOn s).err = s.err := by
  unfold moveOn
  split
  · obtain ⟨_, _, _, _, _, herr, _⟩ := advance_frame s
    exact herr
  · rfl

/-! ### The flags that only reset clears -/

theorem accepted_idle {k : BitVec 8} {s : State} (h : commandVerdict k s = .accepted) :
    s.busy = false ∧ s.fatal = false := by
  obtain ⟨h', _⟩ | ⟨h', _⟩ | ⟨e, h', _⟩ | ⟨_, hb, hf, _⟩ := commandVerdict_cases k s
  · exact absurd (h.symm.trans h') (by simp)
  · exact absurd (h.symm.trans h') (by simp)
  · exact absurd (h.symm.trans h') (by simp)
  · exact ⟨hb, hf⟩

/-- `fatal` and `cfg_valid`, once set, are still set (R31, R33). -/
def KeepsSet (s t : State) : Prop :=
  (s.fatal = true → t.fatal = true) ∧ (s.cfgValid = true → t.cfgValid = true)

theorem KeepsSet.of_eq {s t : State} (hf : t.fatal = s.fatal) (hc : t.cfgValid = s.cfgValid) : KeepsSet s t :=
  ⟨fun h => hf.trans h, fun h => hc.trans h⟩

theorem KeepsSet.trans {s t u : State} (h : KeepsSet s t) (h' : KeepsSet t u) : KeepsSet s u :=
  ⟨fun hs => h'.1 (h.1 hs), fun hs => h'.2 (h.2 hs)⟩

theorem turnAway_keepsSet (k : BitVec 8) (s : State) : KeepsSet s (turnAway (commandVerdict k s) s) := by
  obtain h | ⟨_, _, e, _, h⟩ := turnAway_cases k s <;> rw [h] <;> exact KeepsSet.of_eq rfl rfl

theorem exec_keepsSet {i : Instr} {s t : State} (h : exec i s = .next t) : KeepsSet s t := by
  by_cases hc : i = .configure
  · subst hc
    obtain ⟨_, rfl⟩ | rfl := execConfigure_cases h
    · exact ⟨id, fun _ => rfl⟩
    · exact turnAway_keepsSet _ s
  · refine ⟨?_, fun hs => (exec_keeps hc h).cfgValid.trans hs⟩
    by_cases he : i = .encode
    · subst he
      obtain ⟨ha, rfl⟩ | rfl := execEncode_cases h
      · intro hs
        exact absurd (hs.symm.trans (accepted_idle ha).2) (by simp)
      · exact (turnAway_keepsSet _ s).1
    · obtain ⟨_, _, hf⟩ | ⟨_, _, ⟨_, hf⟩ | ⟨_, hf⟩⟩ := exec_flags hc he h
      · exact fun hs => hf.trans hs
      · exact fun hs => hf.trans hs
      · exact fun _ => hf

theorem sequencer_keepsSet {s t : State} (h : sequencer s = .next t) : KeepsSet s t := by
  obtain ⟨_, rfl⟩ | ⟨_, _, rfl⟩ | ⟨_, i, u, _, hu, rfl⟩ := sequencer_cases h
  · exact .of_eq rfl rfl
  · obtain ⟨_, _, _, _, _, _, hfatal⟩ := advance_frame s
    exact .of_eq hfatal (advance_keeps s).cfgValid
  · have hexec : KeepsSet (opStart s) u := exec_keepsSet hu
    exact .trans (t := opStart s) (.of_eq rfl rfl) (.trans hexec (.of_eq (moveOn_fatal _) (moveOn_keeps _).cfgValid))

theorem hostWrite_keepsSet (w : HostWrite) (s : State) : KeepsSet s (hostWrite w s) := by
  have hreg : ∀ w, KeepsSet s (writeReg w s) := by
    intro w
    unfold writeReg
    split
    · exact KeepsSet.of_eq rfl rfl
    · cases w <;> exact KeepsSet.of_eq rfl rfl
  cases w with
  | cmd k =>
    have haway := turnAway_keepsSet k s
    simp only [hostWrite, hostCommand]
    cases hv : commandVerdict k s with
    | accepted =>
      dsimp only
      split
      · exact ⟨id, fun _ => rfl⟩
      · exact KeepsSet.of_eq rfl rfl
    | _ => rw [hv] at haway; exact haway
  | _ => exact hreg _

/-- Settles O9: an instruction keeps the two flags or sets them, an encode starts only with `fatal` clear, and a host
write or a read touches neither. -/
theorem onlyResetClearsFatalAndConfigured : Obligations.OnlyResetClearsFatalAndConfigured := by
  unfold Obligations.OnlyResetClearsFatalAndConfigured
  intro s t hreset h
  obtain ⟨u, hu, ht⟩ | ⟨es, _, ht⟩ | ⟨w, es, _, rfl⟩ | ⟨r, es, _, rfl⟩ | ⟨base, data, es, _, _, _, rfl⟩ |
    ⟨n, es, hi, rfl⟩ | ⟨w, i, rest, es, _, _, _, ht⟩ := step_cases h
  · have hset : KeepsSet s u := by
      obtain ⟨_, rfl⟩ | ⟨es, _, rfl⟩ := hu <;> exact .of_eq rfl rfl
    exact hset.trans (sequencer_keepsSet ht)
  · obtain ⟨u, hu, ⟨_, rfl⟩ | ⟨_, rfl⟩⟩ := untilSinkWrite_cases ht
    · exact KeepsSet.trans (t := afterInput es s) (.of_eq rfl rfl) (sequencer_keepsSet hu)
    · exact KeepsSet.of_eq rfl rfl
  · exact KeepsSet.trans (t := afterInput es s) (.of_eq rfl rfl) (hostWrite_keepsSet w _)
  · exact KeepsSet.of_eq rfl rfl
  · exact KeepsSet.of_eq rfl rfl
  · exact absurd hi (hreset n es)
  · exact KeepsSet.trans (t := afterInput es s) (.of_eq rfl rfl) (exec_keepsSet ht)

/-! ### An operation taken whole -/

theorem step_of_no_input {s : State} (h : s.input = []) : step s = sequencer s := by
  simp only [step, serveNext, h]

theorem step_tick {s : State} {es : List Event} (h : s.input = .tick :: es) : step s = sequencer (afterInput es s) := by
  simp only [step, serveNext, h, serve]

theorem step_sinkWrite {s : State} {es : List Event} (h : s.input = .sinkWrite :: es) :
    step s = untilSinkWrite (afterInput es s) := by
  simp only [step, serveNext, h, serve]

theorem sequencer_of_idle {s : State} (h : s.busy = false) : sequencer s = .next s := by
  rw [sequencer, if_neg (by simp [h])]

theorem sequencer_of_no_instr {s : State} (hbusy : s.busy = true) (hi : seqInstr s = none) :
    sequencer s = .next (advance s) := by
  rw [sequencer, if_pos hbusy, hi]

theorem sequencer_of_instr {s u : State} {i : Instr} (hbusy : s.busy = true) (hi : seqInstr s = some i)
    (h : exec i (opStart s) = .next u) : sequencer s = .next (moveOn (behind s u)) := by
  rw [sequencer, if_pos hbusy, hi]
  simp only [h]

/-- An operation not yet begun, run to its end (R163). -/
theorem sequencer_of_exec {s u : State} {i : Instr} (hbusy : s.busy = true) (hsent : s.sent = 0)
    (hi : seqInstr s = some i) (h : exec i s = .next u) : sequencer s = .next (moveOn u) := by
  obtain ⟨bs, hout⟩ := exec_out_prefix h
  rw [sequencer_of_instr hbusy hi (by rwa [opStart_of_sent_zero hsent]), behind_of_prefix hout.symm]

/-! ### Up to the next sink write -/

/-- A step to the next sink write, the operation's end known (log 5). -/
theorem untilSinkWrite_eq {s t : State} (h : sequencer s = .next t) :
    untilSinkWrite s = .next (if answersLeft s t ≤ 1 then t else oneByteOn s t) := by
  rw [untilSinkWrite, h]

/-- The sequencer's operation does not depend on what has been sent. -/
theorem seqInstr_oneByteOn (s t : State) : seqInstr (oneByteOn s t) = seqInstr s := rfl

/-- What stands behind the sink is the same one byte later. -/
theorem behind_oneByteOn {s t u : State} (ht : t.out = s.out ++ u.out.drop s.out.length)
    (hlong : s.out.length < t.out.length) : behind (oneByteOn s t) u = behind s u := by
  have hdrop : t.out.drop s.out.length = u.out.drop s.out.length := by simp [ht]
  have hlen : ((u.out.drop s.out.length).take 1).length = 1 := by
    rw [List.length_take, ← hdrop, List.length_drop]
    omega
  simp only [behind, oneByteOn, hdrop, List.length_append, hlen, ← List.drop_drop, List.append_assoc,
    List.take_append_drop]

/-- At least two answers of the sink are to come only while an operation is in progress and has a byte to send. -/
theorem sequencer_of_answersLeft {s t : State} (h : sequencer s = .next t) (hleft : 1 < answersLeft s t) :
    s.busy = true ∧ s.out.length < t.out.length ∧
      ∃ i u, seqInstr s = some i ∧ exec i (opStart s) = .next u ∧ t = moveOn (behind s u) := by
  have hlong : s.out.length < t.out.length := by
    unfold answersLeft at hleft
    split at hleft <;> omega
  obtain ⟨_, rfl⟩ | ⟨_, _, rfl⟩ | ⟨hb, i, u, hi, hu, ht⟩ := sequencer_cases h
  · exact absurd hlong (Nat.lt_irrefl _)
  · obtain ⟨_, _, hout, _⟩ := advance_frame s
    rw [hout] at hlong
    exact absurd hlong (Nat.lt_irrefl _)
  · exact ⟨hb, hlong, i, u, hi, hu, ht⟩

/-- From between two writes the operation still ends where it would have (R174, D23). -/
theorem sequencer_oneByteOn {s t : State} (h : sequencer s = .next t) (hleft : 1 < answersLeft s t) :
    sequencer (oneByteOn s t) = .next t := by
  obtain ⟨hbusy, hlong, i, u, hi, hu, rfl⟩ := sequencer_of_answersLeft h hleft
  have hstart := opStart_oneByteOn hlong
  have hbehind := behind_oneByteOn (u := u) (by simp) hlong
  rw [sequencer_of_instr (s := oneByteOn s (moveOn (behind s u))) (u := u) hbusy hi (by rw [hstart]; exact hu), hbehind]

/-- Settles O16: by the inputs; a step to the next sink write splits the operation in progress, which is run again
from its beginning, and so ends in the same state. -/
theorem stepRunsSequencerOperation : Obligations.StepRunsSequencerOperation := by
  unfold Obligations.StepRunsSequencerOperation
  refine ⟨fun s t i hin hbusy hsent hi h => ?_, fun s hbusy => ⟨fun hin => ?_, fun es hin => ?_⟩,
    fun s t e es hbusy hin htick hsinkWrite hreset h => ?_, fun s t es hin h => ?_⟩
  · rw [step_of_no_input hin, sequencer_of_exec hbusy hsent hi h]
    rfl
  · rw [step_of_no_input hin, sequencer_of_idle hbusy]
  · rw [step_tick hin, sequencer_of_idle (s := afterInput es s) hbusy]
  · cases e with
    | tick => exact absurd rfl htick
    | sinkWrite => exact absurd rfl hsinkWrite
    | reset n => exact absurd rfl (hreset n)
    | write w =>
      rw [step_write hin, hostWrite_of_busy w (s := afterInput es s) hbusy] at h
      rw [← Host.Outcome.next.inj h]
    | read r =>
      rw [step_read hin] at h
      rw [← Host.Outcome.next.inj h]
    | place base data =>
      rw [step_place hin, placeImage, if_pos (show (afterInput es s).busy = true from hbusy)] at h
      cases h
    | issue w =>
      obtain ⟨i, rest, hd, hc⟩ : ∃ i rest, decode w = .ok (i, rest) ∧ (i = .configure ∨ i = .encode) := by
        obtain ⟨u, ⟨hn, _⟩ | ⟨es', hn, _⟩, _⟩ | ⟨es', hn, _⟩ | ⟨_, es', hn, _⟩ | ⟨_, es', hn, _⟩ |
          ⟨_, _, es', hn, _⟩ | ⟨_, es', hn, _⟩ | ⟨w', i, rest, es', hn, hd, hc, _⟩ := step_cases h
        all_goals rw [hin] at hn
        all_goals cases hn
        exact ⟨i, rest, hd, hc hbusy⟩
      obtain ⟨_, hcommand, _⟩ := stepRunsDecodedInstruction s w rest es i hin hd
      rw [hcommand hbusy hc] at h
      rw [← Host.Outcome.next.inj h]
  · have hstep : step s = .next (if answersLeft (afterInput es s) t ≤ 1 then t else oneByteOn (afterInput es s) t) := by
      rw [step_sinkWrite hin, untilSinkWrite_eq h]
    intro answers
    refine ⟨fun hfew => by rw [hstep, if_pos (show answersLeft (afterInput es s) t ≤ 1 from hfew)], fun hmany => ?_⟩
    obtain ⟨_, hlong, _⟩ := sequencer_of_answersLeft h hmany
    have hmany : ¬ answersLeft (afterInput es s) t ≤ 1 := Nat.not_le_of_lt hmany
    refine ⟨oneByteOn (afterInput es s) t, by rw [hstep, if_neg hmany], rfl, ?_, rfl,
      sequencer_oneByteOn h (Nat.lt_of_not_le hmany)⟩
    have hl : s.out.length < t.out.length := hlong
    simp
    omega

/-! ### The predictor after a block (R170) -/

/-- WRITE_BLOCK sends and returns `block[0]`, or sends and raises. -/
theorem writeBlock_cases (block : Block Coef) (prev : Coef) (td ta : TableSet) (s : State) :
    (∃ u, SentFrom s u ∧ writeBlock block prev td ta s = .done (dcOf block) u) ∨
    (∃ e u, Raisable e ∧ SentFrom s u ∧ writeBlock block prev td ta s = .raised (raiseError e u)) := by
  have hsends := writeBlock_sends block prev td ta s
  cases hw : writeBlock block prev td ta s with
  | raised t =>
    rw [hw] at hsends
    cases hsends with
    | raised he hu => exact .inr ⟨_, _, he, hu, rfl⟩
  | done v u =>
    rw [hw] at hsends
    have hu : SentFrom s u := by cases hsends; assumption
    have hv : v = dcOf block := by
      unfold writeBlock at hw
      dsimp only at hw
      cases hd : writeValue (BitVec.ofNat 8 (magSize (dcDiff block prev))) (tableOf .dc td) (dcDiff block prev) s with
      | raised t => rw [hd] at hw; cases hw
      | done _ t =>
        rw [hd, Run.bind_done] at hw
        cases ha : scanAc ta (acInScanOrder block) 0 t <;> rw [ha] at hw <;> cases hw
        rfl
    exact .inl ⟨u, hu, by rw [hv]⟩

/-- The next component, position or the end of the scan: the predictors stay. -/
theorem afterBlock_pred (s : State) : (afterBlock s).pred = s.pred ∧ (afterBlock s).busy = s.busy := by
  unfold afterBlock nextPosition
  split
  · exact ⟨rfl, rfl⟩
  · split
    · exact ⟨rfl, rfl⟩
    · split <;> exact ⟨rfl, rfl⟩

theorem moveOn_of_block {s : State} {v : Coef} (hbusy : s.busy = true) (hseq : s.seq = .writeBlock)
    (hresult : s.result = .coef v) : moveOn s = afterBlock (setPred s.c v s) := by
  simp only [moveOn, hbusy, if_true, advance, hseq, storePred, hresult]

theorem SentFrom.busy {s t : State} (h : SentFrom s t) : t.busy = s.busy := by
  obtain ⟨a, n, bs, as, rfl⟩ := h
  rfl

/-- Settles O18: the block's value is stored as the sequencer moves on, if WRITE_BLOCK returned it. -/
theorem predictorFollowsCodedBlock : Obligations.PredictorFollowsCodedBlock := by
  unfold Obligations.PredictorFollowsCodedBlock
  intro s t hin hbusy hseq h
  rw [step_of_no_input hin] at h
  have hi : seqInstr s = some (.writeBlock s.q (s.pred.get s.c) (descriptor s.c).td (descriptor s.c).ta) := by
    simp only [seqInstr, hseq]
  have hexec := exec_writeBlock s.q (s.pred.get s.c) (descriptor s.c).td (descriptor s.c).ta (opStart s)
  obtain ⟨u, hu, hw⟩ | ⟨e, u, he, hu, hw⟩ :=
    writeBlock_cases s.q (s.pred.get s.c) (descriptor s.c).td (descriptor s.c).ta (opStart s)
  · rw [hw, Run.bind_done, finish_done] at hexec
    obtain rfl := Host.Outcome.next.inj ((sequencer_of_instr hbusy hi hexec).symm.trans h)
    have hpos := exec_keepsPosition (by simp) hexec
    have hub : (behind s (returned (.coef (dcOf s.q)) u)).busy = true := hu.busy.trans hbusy
    obtain ⟨hpred, hbusy'⟩ := afterBlock_pred
      (setPred (behind s (returned (.coef (dcOf s.q)) u)).c (dcOf s.q) (behind s (returned (.coef (dcOf s.q)) u)))
    rw [moveOn_of_block (v := dcOf s.q) hub (hpos.seq.trans hseq) rfl, hpred, hbusy']
    have hp : u.pred = s.pred := hpos.pred
    have hc : u.c = s.c := hpos.c
    refine ⟨fun _ => by simp [setPred, hp, hc, dcOf], fun hidle => ?_⟩
    exact absurd (hub.symm.trans hidle) (by simp)
  · rw [hw] at hexec
    obtain rfl := Host.Outcome.next.inj ((sequencer_of_instr hbusy hi hexec).symm.trans h)
    have hidle : (behind s (returned .none (raiseError e u))).busy = false := rfl
    rw [moveOn, if_neg (by simp)]
    have hpos := exec_keepsPosition (by simp) hexec
    exact ⟨fun hb => absurd (hidle.symm.trans hb) (by simp), fun _ => hpos.pred⟩

end Sys2Proof.Machine
end

section
/-! PROOFS. Every accepted encode ends, finished or aborted with the code of a failing write or of a symbol without a
code (R178, R182, R214). -/
namespace Sys2Proof.Machine
open Sys2Proof

/-- An encode under way (R186). -/
structure Encoding (s : State) : Prop where
  err : s.err = .none
  fatal : s.fatal = false
  phase : s.phase ≠ .finalized

/-- An encode that has raised: SinkWriteFailure, or, fatal, HuffmanLengthError (R181, R182). -/
structure Aborted (s : State) : Prop where
  busy : s.busy = false
  phase : s.phase ≠ .finalized
  cause : (s.err = .sinkWriteFailure ∧ s.fatal = false) ∨ (s.err = .huffmanLengthError ∧ s.fatal = true)

theorem sinkByte_encoding {s : State} (h : Encoding s) (b : Byte) : (sinkByte b s).Ends Encoding Aborted := by
  have hfail : ∀ as, Aborted (raiseError .sinkWriteFailure { s with sinkAnswers := as }) := fun _ =>
    ⟨rfl, h.phase, .inl ⟨rfl, by simp [h.fatal, ErrCode.isFatal]⟩⟩
  unfold sinkByte
  split
  · exact ⟨h.err, h.fatal, h.phase⟩
  · exact ⟨h.err, h.fatal, h.phase⟩
  · exact hfail _

theorem encoding_sendable : Sendable (Itself Encoding) (Itself Aborted) :=
  sendable_itself (fun h _ _ => ⟨h.err, h.fatal, h.phase⟩) sinkByte_encoding
    (fun h => ⟨rfl, h.phase, .inr ⟨rfl, by simp [ErrCode.isFatal]⟩⟩)

theorem emitHeader_encoding {s : State} (h : Encoding s) : (emitHeader s).Ends Encoding Aborted := by
  rw [emitHeader_eq]
  exact (encoding_sendable.sinkBytes ⟨rfl, h⟩ _).ends.bind fun _ t ht => ⟨ht.err, ht.fatal, by simp⟩

theorem encodeComp_encoding {s : State} (h : Encoding s) (c : Comp) : (encodeComp c s).Ends Encoding Aborted := by
  rw [encodeComp_eq]
  have hq : Encoding (quantizedState c s) := ⟨h.err, h.fatal, h.phase⟩
  exact (encoding_sendable.coding.writeBlock ⟨rfl, hq⟩ _ _ _ _).ends.bind fun _ t ht => ⟨ht.err, ht.fatal, ht.phase⟩

theorem encodePosition_encoding {s : State} (h : Encoding s) (p : Nat × Nat) :
    (encodePosition p s).Ends Encoding Aborted := by
  rw [encodePosition_eq]
  exact Run.Ends.forEach _ (fun c _ _ ht => encodeComp_encoding ht c) (s := sampledState p s)
    ⟨h.err, h.fatal, h.phase⟩

theorem encodeScan_encoding {s : State} (h : Encoding s) : (encodeScan s).Ends Encoding Aborted :=
  Run.Ends.forEach _ (fun p _ _ ht => encodePosition_encoding ht p) (s := { s with phase := .scanningBlocks })
    ⟨h.err, h.fatal, by simp⟩

/-- An encode that has finished (R172). -/
structure Finished (s : State) : Prop where
  busy : s.busy = false
  phase : s.phase = .finalized
  err : s.err = .none
  fatal : s.fatal = false

theorem encodeEnd_finishes {s : State} (h : Encoding s) : (encodeEnd s).Ends Finished Aborted := by
  refine Run.Ends.bind (encoding_sendable.writeBits ⟨rfl, h⟩ _ _).ends fun _ t ht => ?_
  exact Run.Ends.bind (encoding_sendable.sinkBytes ⟨rfl, ht⟩ _).ends fun _ u hu => ⟨rfl, rfl, hu.err, hu.fatal⟩

theorem encodeRun_ends {s : State} (h : s.fatal = false) : (encodeRun s).Ends Finished Aborted :=
  Run.Ends.bind (emitHeader_encoding (s := encodeStart s) ⟨rfl, h, by simp⟩) fun _ _ ht =>
    (encodeScan_encoding ht).bind fun _ _ hu => encodeEnd_finishes hu

/-- Settles O56: each operation of an encode keeps it under way or raises one of the two errors, and the last
finishes. -/
theorem encodeAlwaysEnds : Obligations.EncodeAlwaysEnds := by
  unfold Obligations.EncodeAlwaysEnds
  intro s ha
  have hends := encodeRun_ends (accepted_idle ha).2
  have hk := exec_keeps (by simp) (exec_encode_accepted ha)
  refine ⟨_, exec_encode_accepted ha, ?_⟩
  rw [← and_assoc]
  refine ⟨?_, hk.qt, hk.cfgValid, hk.img, hk.width, hk.height, hk.mode, hk.srcLen, hk.quality⟩
  cases hrun : encodeRun s with
  | done _ t =>
    rw [hrun] at hends
    exact ⟨hends.busy, .inl ⟨hends.phase, hends.err, hends.fatal⟩⟩
  | raised t =>
    rw [hrun] at hends
    exact ⟨hends.busy, hends.cause.elim (fun h => .inr (.inl ⟨hends.phase, h⟩)) fun h => .inr (.inr ⟨hends.phase, h⟩)⟩

end Sys2Proof.Machine
end

section
/-! PROOFS. The stream of one encode (R173), written whole or cut at a failing write (R46, R178, R181): the header,
the coded blocks with the predictors threaded through them, the padding and EOI. -/
namespace Sys2Proof.Machine
open Sys2Proof

/-! ### Writing bytes, whatever else changes -/

/-- The run writes `bs`: accepted, it finishes in a state with `P`; with write number `k` failing, it raises there. -/
structure Run.Writes (P : State → Prop) {α : Type} (s : State) (bs : List Byte) (r : Run α) : Prop where
  accepts : SinkAccepts bs.length s →
    ∃ v t, r = .done v t ∧ t.out = s.out ++ bs ∧ t.sinkAnswers = s.sinkAnswers.drop bs.length ∧ P t
  fails : ∀ k, k < bs.length → SinkFailsAfter k s →
    ∃ t, r = .raised t ∧ t.out = s.out ++ bs.take k ∧ t.sinkAnswers = s.sinkAnswers.drop (k + 1) ∧
      t.err = .sinkWriteFailure

variable {P Q : State → Prop} {α β : Type} {s t : State}

theorem Run.Writes.mono {bs : List Byte} {r : Run α} (h : r.Writes P s bs) (hPQ : ∀ t, P t → Q t) : r.Writes Q s bs :=
  ⟨fun hs => by
    obtain ⟨v, t, hr, ho, ha, hp⟩ := h.accepts hs
    exact ⟨v, t, hr, ho, ha, hPQ t hp⟩, h.fails⟩

/-- Going on to another state without writing. -/
theorem Run.Writes.done (v : α) (ho : t.out = s.out) (ha : t.sinkAnswers = s.sinkAnswers) (hp : P t) :
    (Run.done v t).Writes P s [] :=
  ⟨fun _ => ⟨v, t, rfl, by simp [ho], by simp [ha], hp⟩, fun k hk => by simp at hk⟩

/-- Writing from a state beside. -/
theorem Run.Writes.from {bs : List Byte} {r : Run α} (ho : t.out = s.out) (ha : t.sinkAnswers = s.sinkAnswers)
    (h : r.Writes P t bs) : r.Writes P s bs := by
  have hs : ∀ n, SinkAccepts n s → SinkAccepts n t := fun n hn => by rwa [SinkAccepts, ha]
  refine ⟨fun hn => ?_, fun k hk hf => ?_⟩
  · rw [← ho, ← ha]
    exact h.accepts (hs _ hn)
  · rw [← ho, ← ha]
    exact h.fails k hk ⟨hs k hf.1, by rw [ha]; exact hf.2⟩

/-- Writing one byte string and then another. -/
theorem Run.Writes.bind {as bs : List Byte} {m : Run α} {k : α → State → Run β} (hm : m.Writes P s as)
    (hk : ∀ v t, P t → (k v t).Writes Q t bs) : (m.bind k).Writes Q s (as ++ bs) := by
  constructor
  · intro h
    rw [List.length_append] at h
    obtain ⟨hs, hrest⟩ := sinkAccepts_append rfl h
    obtain ⟨v, t, rfl, ho, ha, hp⟩ := hm.accepts hs
    obtain ⟨w, u, hr, ho', ha', hq⟩ := (hk v t hp).accepts (by rwa [SinkAccepts, ha])
    exact ⟨w, u, hr, by rw [ho', ho, List.append_assoc], by rw [ha', ha, List.drop_drop, List.length_append], hq⟩
  · intro j hj hf
    rw [List.length_append] at hj
    by_cases hb : j < as.length
    · obtain ⟨t, rfl, ho, ha, he⟩ := hm.fails j hb hf
      exact ⟨t, rfl, by rw [ho, List.take_append_of_le_length (by omega)], ha, he⟩
    · obtain ⟨n, rfl⟩ : ∃ n, j = as.length + n := ⟨j - as.length, by omega⟩
      obtain ⟨hs, hrest⟩ := sinkAccepts_append rfl hf.1
      obtain ⟨v, t, rfl, ho, ha, hp⟩ := hm.accepts hs
      obtain ⟨u, hr, ho', ha', he⟩ := (hk v t hp).fails n (by omega)
        ⟨by rwa [SinkAccepts, ha], by rw [ha, List.getElem?_drop]; exact hf.2⟩
      refine ⟨u, hr, ?_, by rw [ha', ha, List.drop_drop, Nat.add_assoc], he⟩
      rw [ho', ho, List.take_length_add_append, List.append_assoc]

/-- An operation whose end is known. -/
theorem Emits.writes {bs : List Byte} {r : Run α} {v : α} (h : Emits s r bs v t) (ho : t.out = s.out)
    (ha : t.sinkAnswers = s.sinkAnswers) (hp : P (appended bs t)) : r.Writes P s bs :=
  ⟨fun hs => ⟨v, _, h.accepts hs, by simp [ho], by simp [ha], hp⟩, fun k hk hf => by
    obtain ⟨u, hr, hu⟩ := h.fails k hk hf
    exact ⟨u, hr, hu.out, hu.sinkAnswers, hu.err⟩⟩

/-- An operation that sends bits. -/
theorem SendsBits.writes {bits : List Bool} {r : Run α} {v : α} (h : SendsBits s r bits v) (hp : P (packed bits s)) :
    r.Writes P s (packedBytes (pend s ++ bits)) :=
  Emits.writes h rfl rfl hp

/-! ### The scan -/

/-- A state inside the scan of an encode of `b`: what the encode reads is as in `b`, the predictors are `pred`, and
the bits `l` are pending. -/
structure Scanning (b : State) (pred : Triple Coef) (l : List Bool) (s : State) : Prop where
  keeps : Keeps b s
  ready : PackerReady s
  pend : pend s = l
  pred : s.pred = pred

theorem Keeps.ncomp (h : Keeps s t) : t.ncomp = s.ncomp := by
  rw [State.ncomp, State.colorMode, h.mode]
  rfl

/-- With a buffer, the blocks of the components in use depend on what the encode keeps only (R122, R123). -/
theorem sampledBlocks_get_of_keeps (h : Keeps s t) (hsrc : s.srcLen ≠ 0#36) (x0 y0 : Nat) {c : Comp}
    (hc : c ∈ comps s.ncomp) : (sampledBlocks t x0 y0).get c = (sampledBlocks s x0 y0).get c := by
  have hpos : 0 < s.srcLen.toNat := Nat.pos_of_ne_zero fun hz => hsrc (BitVec.eq_of_toNat_eq hz)
  have hfetch : ∀ off, fetch t off = fetch s off := fun off => by
    rw [fetch_of_nonempty hpos, fetch_of_nonempty (by rwa [h.srcLen]), h.srcLen, h.img]
  have hsample : ∀ i k, sampleAt t x0 y0 i k = sampleAt s x0 y0 i k := fun i k => by
    simp only [sampleAt, State.colorMode, h.width, h.mode, hfetch]
  unfold sampledBlocks
  rw [h.ncomp]
  cases hn : s.ncomp with
  | one =>
    obtain rfl : c = .y := by simpa [hn, comps] using hc
    simp only [Triple.get, hsample]
  | three => simp only [yccAt, hsample, h.params]

/-- The sample blocks of the position `p`, for the components in use. -/
def Sampled (b : State) (p : Nat × Nat) (cs : List Comp) (s : State) : Prop :=
  ∀ c ∈ cs, s.samp.get c = (sampledBlocks b p.2 p.1).get c

theorem quantizedState_q {b : State} (h : Keeps b s) {p : Nat × Nat} {c : Comp}
    (hsamp : s.samp.get c = (sampledBlocks b p.2 p.1).get c) : (quantizedState c s).q = quantizedAt b p.1 p.2 c := by
  have hq : (quantizedState c s).q = quantize s.params.div8Mode (fdct s.params.fdct (s.samp.get c))
    (s.qt.get (descriptor c).tq) := rfl
  rw [hq, quantizedAt, hsamp, h.params, h.qt]

/-- A component sends its coded block and stores the predictor (R163, R170). -/
theorem encodeComp_writes {b : State} {pred : Triple Coef} {l bits : List Bool} {p : Nat × Nat} {c : Comp}
    {cs : List Comp} (h : Scanning b pred l s) (hsamp : Sampled b p cs s) (hc : c ∈ cs)
    (hbits : blockString (quantizedAt b p.1 p.2 c) (pred.get c) (descriptor c).td (descriptor c).ta = some bits) :
    (encodeComp c s).Writes (fun t =>
      Scanning b (pred.set c (dcOf (quantizedAt b p.1 p.2 c))) (leftover (l ++ bits)) t ∧ Sampled b p cs t) s
      (packedBytes (l ++ bits)) := by
  have hq := quantizedState_q h.keeps (hsamp c hc)
  rw [← hq, ← h.pred] at hbits
  have hready : PackerReady (quantizedState c s) := h.ready
  have hsends := writeBlock_sendsBits hbits hready
  have hpend : Machine.pend (quantizedState c s) = l := h.pend
  have hend : Scanning b (pred.set c (dcOf (quantizedAt b p.1 p.2 c))) (leftover (l ++ bits))
      (setPred c (dcOf (quantizedState c s).q) (packed bits (quantizedState c s))) := by
    refine ⟨h.keeps.trans ?_, packed_ready bits _, ?_, ?_⟩
    · exact ⟨rfl, rfl, rfl, rfl, rfl, rfl, rfl, rfl, rfl, rfl, rfl, _, rfl⟩
    · rw [← hpend]
      exact pend_packed bits _
    · rw [← hq, ← h.pred]
      rfl
  have hemits : Emits (quantizedState c s) (encodeComp c s) (packedBytes (l ++ bits)) ()
      (setPred c (dcOf (quantizedState c s).q) (withBits (l ++ bits) (quantizedState c s))) := by
    rw [encodeComp_eq, ← List.append_nil (packedBytes _), ← hpend]
    exact Emits.bind hsends (withBits_beside _ _) (Emits.done () _ _)
  refine Run.Writes.from (t := quantizedState c s) rfl rfl (hemits.writes rfl rfl ⟨?_, hsamp⟩)
  rw [← hpend] at hend ⊢
  exact hend

theorem unitsString_cons {b : State} {p : Nat × Nat} {c : Comp} {us : List ((Nat × Nat) × Comp)} {pred : Triple Coef}
    {bits : List Bool} (h : unitsString b ((p, c) :: us) pred = some bits) :
    ∃ x y, blockString (quantizedAt b p.1 p.2 c) (pred.get c) (descriptor c).td (descriptor c).ta = some x ∧
      unitsString b us (pred.set c (dcOf (quantizedAt b p.1 p.2 c))) = some y ∧ x ++ y = bits := by
  simpa [unitsString, Option.bind_eq_some_iff] using h

/-- From any state of the scan with the predictors `pred` the run `f` sends `x` and leaves the predictors `pred'`. -/
def SendsInScan (b : State) (pred : Triple Coef) (x : List Bool) (pred' : Triple Coef) (R : State → Prop)
    (f : State → Run Unit) : Prop :=
  ∀ l s, Scanning b pred l s → R s → (f s).Writes (Scanning b pred' (leftover (l ++ x))) s (packedBytes (l ++ x))

theorem Scanning.writes_nil {b : State} {pred : Triple Coef} {l : List Bool} (h : Scanning b pred l s) :
    (Run.done () s).Writes (Scanning b pred (leftover (l ++ []))) s (packedBytes (l ++ [])) := by
  have hl : l.length ≤ 7 := by
    rw [← h.pend, length_pend]
    exact h.ready.1
  rw [List.append_nil, packedBytes_short (by omega), leftover_short (by omega)]
  exact .done () rfl rfl h

/-- The components of a position send their blocks, in front of the units that follow (R168). -/
theorem encodeComps_sends {b : State} {p : Nat × Nat} {all : List Comp} (us : List ((Nat × Nat) × Comp)) :
    ∀ (cs : List Comp) {pred : Triple Coef} {bits : List Bool}, (∀ c ∈ cs, c ∈ all) →
      unitsString b (cs.map (fun c => (p, c)) ++ us) pred = some bits →
      ∃ pred' x y, bits = x ++ y ∧ unitsString b us pred' = some y ∧
        SendsInScan b pred x pred' (Sampled b p all) (forEach encodeComp cs)
  | [], pred, bits, _, hbits => ⟨pred, [], bits, rfl, hbits, fun _ _ h _ => h.writes_nil⟩
  | c :: cs, pred, bits, hcs, hbits => by
    obtain ⟨x, rest, hx, hrest, rfl⟩ := unitsString_cons hbits
    obtain ⟨pred', y, z, rfl, hz, hsends⟩ := encodeComps_sends us cs (fun d hd => hcs d (by simp [hd])) hrest
    refine ⟨pred', x ++ y, z, (List.append_assoc x y z).symm, hz, fun l s h hsamp => ?_⟩
    rw [← List.append_assoc, packedBytes_append, leftover_append]
    exact (encodeComp_writes h hsamp (hcs c (by simp)) hx).bind fun _ t ht => hsends _ t ht.1 ht.2

/-- A position samples its blocks and sends them (R163, R166). -/
theorem encodePosition_sends {b : State} (hsrc : b.srcLen ≠ 0#36) {p : Nat × Nat} {us : List ((Nat × Nat) × Comp)}
    {pred : Triple Coef} {bits : List Bool}
    (hbits : unitsString b ((comps b.ncomp).map (fun c => (p, c)) ++ us) pred = some bits) :
    ∃ pred' x y, bits = x ++ y ∧ unitsString b us pred' = some y ∧
      SendsInScan b pred x pred' (fun _ => True) (encodePosition p) := by
  obtain ⟨pred', x, y, hxy, hy, hsends⟩ := encodeComps_sends us _ (fun _ hc => hc) hbits
  refine ⟨pred', x, y, hxy, hy, fun l s h _ => ?_⟩
  have hkeeps : Keeps s { s with y0 := p.1, x0 := p.2, c := .y } :=
    keeps_moved s s.pred s.busy s.phase p.1 p.2 .y s.seq s.result
  have hsampled : Keeps s (sampledState p s) :=
    ⟨rfl, rfl, rfl, rfl, rfl, rfl, rfl, rfl, rfl, rfl, rfl, [], by simp [sampledState]⟩
  have hn : s.ncomp = b.ncomp := h.keeps.ncomp
  rw [encodePosition_eq, hn]
  refine Run.Writes.from (t := sampledState p s) rfl rfl
    (hsends l _ ⟨h.keeps.trans hsampled, h.ready, h.pend, h.pred⟩ ?_)
  exact fun c hc => sampledBlocks_get_of_keeps (h.keeps.trans hkeeps) hsrc p.2 p.1 hc

theorem encodePositions_sends {b : State} (hsrc : b.srcLen ≠ 0#36) :
    ∀ (ps : List (Nat × Nat)) {pred : Triple Coef} {bits : List Bool},
      unitsString b (ps.flatMap (fun p => (comps b.ncomp).map (fun c => (p, c)))) pred = some bits →
      ∃ pred', SendsInScan b pred bits pred' (fun _ => True) (forEach encodePosition ps)
  | [], pred, bits, hbits => by
    obtain rfl : [] = bits := by simpa [unitsString] using hbits
    exact ⟨pred, fun _ _ h _ => h.writes_nil⟩
  | p :: ps, pred, bits, hbits => by
    rw [List.flatMap_cons] at hbits
    obtain ⟨pred', x, y, rfl, hy, hsends⟩ := encodePosition_sends hsrc hbits
    obtain ⟨pred'', hrest⟩ := encodePositions_sends hsrc ps hy
    refine ⟨pred'', fun l s h _ => ?_⟩
    rw [← List.append_assoc, packedBytes_append, leftover_append]
    exact (hsends l s h trivial).bind fun _ t ht => hrest _ t ht trivial

/-- The scan sends the bits of all its units (R173). A frame without positions is not sampled, and needs no buffer. -/
theorem encodeScan_writes {b : State} (hsrc : b.width ≠ 0#16 → b.height ≠ 0#16 → b.srcLen ≠ 0#36) {bits : List Bool}
    (hbits : scanString b = some bits) (h : Scanning b ⟨0#32, 0#32, 0#32⟩ [] s) :
    (encodeScan s).Writes (fun t => ∃ pred, Scanning b pred (leftover bits) t) s (packedBytes bits) := by
  have hphase : Scanning b ⟨0#32, 0#32, 0#32⟩ [] { s with phase := .scanningBlocks } :=
    ⟨h.keeps.trans (keeps_moved s s.pred s.busy .scanningBlocks s.y0 s.x0 s.c s.seq s.result), h.ready, h.pend, h.pred⟩
  have hpos : positions s.width.toNat s.height.toNat = positions b.width.toNat b.height.toNat := by
    rw [h.keeps.width, h.keeps.height]
  obtain ⟨pred, hsends⟩ : ∃ pred, SendsInScan b ⟨0#32, 0#32, 0#32⟩ bits pred (fun _ => True)
      (forEach encodePosition (positions b.width.toNat b.height.toNat)) := by
    by_cases hz : b.width = 0#16 ∨ b.height = 0#16
    · rw [scanString, scanUnits, positions_eq_nil (dimension_toNat_zero hz)] at hbits
      obtain rfl : [] = bits := by simpa [unitsString] using hbits
      rw [positions_eq_nil (dimension_toNat_zero hz)]
      exact ⟨_, fun _ _ h _ => h.writes_nil⟩
    · exact encodePositions_sends (hsrc (fun hw => hz (.inl hw)) fun hh => hz (.inr hh)) _ hbits
  unfold encodeScan
  dsimp only
  rw [hpos]
  exact Run.Writes.from (t := { s with phase := .scanningBlocks }) rfl rfl
    ((hsends [] _ hphase trivial).mono fun t ht => ⟨pred, ht⟩)

/-! ### The end of the encode -/

/-- The seven ones of PAD_BYTE fill the last byte begun, or are left pending (R99, R173). -/
theorem packedBytes_padded (l : List Bool) : packedBytes (l ++ List.replicate 7 true) = packedBytes (padded l) := by
  have hlen := length_leftover l
  unfold padded
  split
  · rename_i hz
    have hshort : packedBytes (leftover l ++ List.replicate 7 true) = [] := packedBytes_short (by simp; omega)
    rw [packedBytes_append, hshort, List.append_nil]
  · rename_i hr
    have hpad := length_leftover (l ++ List.replicate (8 - l.length % 8) true)
    have h7 : List.replicate 7 true =
        List.replicate (8 - l.length % 8) true ++ List.replicate (l.length % 8 - 1) true := by
      rw [← List.replicate_add]
      congr 1
      omega
    have hshort : packedBytes (leftover (l ++ List.replicate (8 - l.length % 8) true) ++
        List.replicate (l.length % 8 - 1) true) = [] := by
      refine packedBytes_short ?_
      simp at hpad ⊢
      omega
    rw [h7, ← List.append_assoc, packedBytes_append, hshort, List.append_nil]

/-- The end writes the padding's bytes and EOI (R171, R172). -/
theorem encodeEnd_writes {l : List Bool} (h : PackerReady s) (hl : pend s = l) :
    (encodeEnd s).Writes (fun _ => True) s (packedBytes (l ++ List.replicate 7 true) ++ [0xFF#8, 0xD9#8]) := by
  have hpad := padByte_sendsBits h
  rw [bitsOf_seven_ones] at hpad
  rw [← hl]
  refine (hpad.writes (P := fun _ => True) trivial).bind fun _ t _ => ?_
  exact ((writeSegment_emits 0xD9#8 none t).writes (P := fun _ => True) rfl rfl trivial).bind
    (bs := []) fun _ u _ => .done () rfl rfl trivial

/-! ### The whole encode -/

theorem streamOf_eq {S : List Byte} (h : streamOf s = some S) :
    ∃ bits, scanString s = some bits ∧ S = headerBytes s ++ packedBytes (padded bits) ++ [0xFF#8, 0xD9#8] := by
  obtain ⟨bits, hbits, hS⟩ := Option.bind_eq_some_iff.mp h
  exact ⟨bits, hbits, (Option.some.inj hS).symm⟩

/-- An accepted encode writes its stream (R173). -/
theorem encodeRun_writes {S : List Byte} (ha : EncodeAccepted s) (hS : streamOf s = some S) :
    (encodeRun s).Writes (fun _ => True) s S := by
  obtain ⟨bits, hbits, rfl⟩ := streamOf_eq hS
  have hscanning : Scanning s ⟨0#32, 0#32, 0#32⟩ []
      { appended (headerBytes s) (encodeStart s) with phase := .headersWritten } :=
    ⟨⟨rfl, rfl, rfl, rfl, rfl, rfl, rfl, rfl, rfl, rfl, rfl, _, rfl⟩, encodeStart_packerReady s, rfl, rfl⟩
  have hheader : (emitHeader (encodeStart s)).Writes (Scanning s ⟨0#32, 0#32, 0#32⟩ []) s (headerBytes s) := by
    have hbytes := sinkBytes_emits (headerBytes s) (encodeStart s)
    have hemits := Emits.bind hbytes (Beside.refl _) (k := fun _ t => .done () { t with phase := .headersWritten })
      (w := { encodeStart s with phase := .headersWritten }) (Emits.done () _ _)
    rw [List.append_nil] at hemits
    refine Run.Writes.from (t := encodeStart s) rfl rfl ?_
    rw [emitHeader_eq]
    exact Emits.writes hemits rfl rfl hscanning
  rw [← packedBytes_padded, packedBytes_append, List.append_assoc, List.append_assoc]
  refine hheader.bind fun _ t ht => ?_
  refine (encodeScan_writes (srcLen_ne_zero_of_accepted ha) hbits ht).bind fun _ u hu => ?_
  obtain ⟨pred, hu⟩ := hu
  exact encodeEnd_writes hu.ready hu.pend

/-- Settles O54: an accepted encode writes its stream, and as it finishes its flags are those of a finished one. -/
theorem encodeWritesWholeStream : Obligations.EncodeWritesWholeStream := by
  unfold Obligations.EncodeWritesWholeStream
  intro s S ha hS hsink
  obtain ⟨v, t, hrun, hout, hanswers, _⟩ := (encodeRun_writes ha hS).accepts hsink
  have hends := encodeRun_ends (accepted_idle ha).2
  rw [hrun] at hends
  exact ⟨settle t, by rw [exec_encode_accepted ha, hrun]; rfl, hout, hanswers, hends.busy, hends.phase, hends.err,
    hends.fatal⟩

/-- Settles O55: an accepted encode is cut where its stream is, and as a write failed its flags are those of an abort
with SinkWriteFailure. -/
theorem encodeIsCutAtFailingWrite : Obligations.EncodeIsCutAtFailingWrite := by
  unfold Obligations.EncodeIsCutAtFailingWrite
  intro s S k ha hS hk hf
  obtain ⟨t, hrun, hout, hanswers, herr⟩ := (encodeRun_writes ha hS).fails k hk hf
  have hends := encodeRun_ends (accepted_idle ha).2
  rw [hrun] at hends
  refine ⟨settle t, by rw [exec_encode_accepted ha, hrun]; rfl, hout, hanswers, hends.busy, hends.phase, herr, ?_⟩
  obtain ⟨_, hfatal⟩ | ⟨h, _⟩ := hends.cause
  · exact hfatal
  · exact absurd (herr.symm.trans h) (by simp)

end Sys2Proof.Machine
end

section
/-! PROOFS. Under the transform's contract, with no table entry 0, every block of a scan is codable (R117, R135,
R145), so an encode has a stream and never ends fatal (R182). -/
namespace Sys2Proof.Machine
open Sys2Proof

/-! ### The quantised entries -/

theorem rha_nonpos {n : Int} (h : n ≤ 0) (d : Nat) : rha n d ≤ 0 := by
  have hsign : n.sign ≤ 0 := by
    obtain h | rfl := Int.lt_or_eq_of_le h
    · rw [Int.sign_eq_neg_one_of_neg h]
      decide
    · decide
  exact Int.mul_nonpos_of_nonpos_of_nonneg hsign (Int.natCast_nonneg _)

theorem dividend_nonpos (mode : Div8Mode) {raw : Coef} (h : raw.toInt ≤ 0) : dividend mode raw ≤ 0 := by
  cases mode with
  | real => exact h
  | trunc =>
    have hneg : -(dividend .trunc raw) = (-raw.toInt).tdiv 8 := (Int.neg_tdiv ..).symm
    have hnn : 0 ≤ (-raw.toInt).tdiv 8 := Int.tdiv_nonneg (by omega) (by decide)
    omega

/-- The range of a quantised DC entry: the sum of 64 samples less 8192 lies in -8192 to 8128, and quantising divides
by 8 at least (R135, R145). -/
def DcInRange (v : Coef) : Prop := -1024 ≤ v.toInt ∧ v.toInt ≤ 1016

theorem quantizeEntry_dcInRange (mode : Div8Mode) {raw : Coef} {t : Byte} (ht : t ≠ 0#8) (hlo : -8192 ≤ raw.toInt)
    (hhi : raw.toInt ≤ 8128) : DcInRange (quantizeEntry mode raw t) := by
  unfold DcInRange
  rw [quantizeEntry_toInt mode raw ht]
  by_cases h : raw.toInt ≤ 0
  · have habs := natAbs_rha_dividend_le mode (raw := raw) ht (b := 1024) (by omega)
    have hneg := rha_nonpos (dividend_nonpos mode h) (divisor mode t)
    omega
  · have habs := natAbs_rha_dividend_le mode (raw := raw) ht (b := 1016) (by omega)
    omega

/-- Every quantised block of the scan is codable with a predictor in range, and its own DC entry is one. -/
structure ScanInRange (s : State) : Prop where
  dc : ∀ y0 x0 c, DcInRange (dcOf (quantizedAt s y0 x0 c))
  ac : ∀ y0 x0 c i, 1 ≤ i → i < 64 → ((quantizedAt s y0 x0 c).getD i 0#32).toInt.natAbs ≤ 1023

theorem table_getD_ne_zero {s : State} (h : TablesNonzero s) (set : TableSet) {i : Nat} (hi : i < 64) :
    (s.qt.get set).getD i 0#8 ≠ 0#8 := by
  cases set with
  | luma => exact h.1 _ (Fixed.getD_mem _ _ hi)
  | chroma => exact h.2 _ (Fixed.getD_mem _ _ hi)

theorem scanInRange_of_contract {s : State} (hf : s.params.fdct = .contract) (ht : TablesNonzero s) :
    ScanInRange s where
  dc := fun y0 x0 c => by
    have hsum := sampleSum_le ((sampledBlocks s x0 y0).get c)
    have hraw := fdctContract_dc_toInt ((sampledBlocks s x0 y0).get c)
    rw [dcOf, quantizedAt, hf, quantize_getD _ _ _ (by decide)]
    exact quantizeEntry_dcInRange _ (table_getD_ne_zero ht _ (by decide)) (by rw [fdct, hraw]; omega)
      (by rw [fdct, hraw]; omega)
  ac := fun y0 x0 c i h1 h64 => by
    have hraw := fdctContract_ac_natAbs_le ((sampledBlocks s x0 y0).get c) h1 h64
    have hne := table_getD_ne_zero ht (descriptor c).tq h64
    rw [quantizedAt, hf, quantize_getD _ _ _ h64, quantizeEntry_toInt _ _ hne]
    exact natAbs_rha_dividend_le _ hne (by rw [fdct]; omega)

/-! ### The stream -/

/-- The predictors are DC entries of the scan, or 0. -/
def PredInRange (pred : Triple Coef) : Prop := ∀ c, DcInRange (pred.get c)

theorem PredInRange.set {pred : Triple Coef} (h : PredInRange pred) {v : Coef} (hv : DcInRange v) (c : Comp) :
    PredInRange (pred.set c v) := by
  intro d
  have hget : (pred.set c v).get d = if d = c then v else pred.get d := by cases c <;> cases d <;> rfl
  rw [hget]
  split
  · exact hv
  · exact h d

theorem blockString_isSome_of_inRange {s : State} (h : ScanInRange s) {prev : Coef} (hp : DcInRange prev) (y0 x0 : Nat)
    (c : Comp) (td ta : TableSet) : (blockString (quantizedAt s y0 x0 c) prev td ta).isSome = true := by
  obtain ⟨hlo, hhi⟩ := h.dc y0 x0 c
  obtain ⟨hplo, hphi⟩ := hp
  rw [dcOf] at hlo hhi
  exact (codableBlocksAreTheOnesInRange _ _ _ _).mpr ⟨by omega, h.ac y0 x0 c⟩

theorem unitsString_isSome {s : State} (h : ScanInRange s) :
    ∀ (us : List ((Nat × Nat) × Comp)) {pred : Triple Coef}, PredInRange pred → (unitsString s us pred).isSome = true
  | [], _, _ => rfl
  | (p, c) :: us, pred, hp => by
    obtain ⟨x, hx⟩ := Option.isSome_iff_exists.mp
      (blockString_isSome_of_inRange h (hp c) p.1 p.2 c (descriptor c).td (descriptor c).ta)
    obtain ⟨y, hy⟩ := Option.isSome_iff_exists.mp (unitsString_isSome h us (hp.set (h.dc p.1 p.2 c) c))
    simp [unitsString, hx, hy]

theorem streamOf_isSome {s : State} (h : ScanInRange s) : (streamOf s).isSome = true := by
  have hzero : PredInRange ⟨0#32, 0#32, 0#32⟩ := fun c => by cases c <;> exact ⟨by decide, by decide⟩
  obtain ⟨bits, hbits⟩ := Option.isSome_iff_exists.mp (unitsString_isSome h (scanUnits s) hzero)
  simp [streamOf, scanString, hbits]

/-! ### The sink -/

/-- Of `n` writes the sink accepts all, or a first one fails. -/
theorem sinkAccepts_or_fails (s : State) (n : Nat) : SinkAccepts n s ∨ ∃ k < n, SinkFailsAfter k s := by
  induction n with
  | zero => exact .inl fun a ha => by simp at ha
  | succ n ih =>
    obtain h | ⟨k, hk, hf⟩ := ih
    · cases ha : s.sinkAnswers[n]? with
      | none =>
        refine .inl fun a hm => h a ?_
        rwa [List.take_add_one, ha, Option.toList_none, List.append_nil] at hm
      | some a =>
        cases a with
        | fail => exact .inr ⟨n, by omega, h, ha⟩
        | ok =>
          refine .inl fun b hm => ?_
          rw [List.take_add_one, ha, Option.toList_some, List.mem_append, List.mem_singleton] at hm
          exact hm.elim (h b) id
    · exact .inr ⟨k, by omega, hf⟩

/-- Settles O57: every block of the scan is in range, so the encode has a stream, and it is written whole or cut. -/
theorem contractEncodeIsNeverFatal : Obligations.ContractEncodeIsNeverFatal := by
  unfold Obligations.ContractEncodeIsNeverFatal
  intro s t ha hf htables
  have hsome := streamOf_isSome (scanInRange_of_contract hf htables)
  refine ⟨hsome, fun h => ?_⟩
  obtain ⟨S, hS⟩ := Option.isSome_iff_exists.mp hsome
  obtain hsink | ⟨k, hk, hfail⟩ := sinkAccepts_or_fails s S.length
  · obtain ⟨u, hu, _, _, _, _, _, hfatal⟩ := encodeWritesWholeStream s S ha hS hsink
    obtain rfl := Host.Outcome.next.inj (hu.symm.trans h)
    exact hfatal
  · obtain ⟨u, hu, _, _, _, _, _, hfatal⟩ := encodeIsCutAtFailingWrite s S k ha hS hk hfail
    obtain rfl := Host.Outcome.next.inj (hu.symm.trans h)
    exact hfatal

end Sys2Proof.Machine
end

section
/-! PROOFS. The encode run one operation a step (R163, R174): each operation of the encode taken as one transition is
a step of the sequencer, which stands at that operation's point. -/
namespace Sys2Proof.Machine
open Sys2Proof

/-! ### The sequencer keeps what the host writes -/

theorem sequencer_keeps {s t : State} (h : sequencer s = .next t) : Keeps s t := by
  obtain ⟨_, rfl⟩ | ⟨_, _, rfl⟩ | ⟨_, i, u, hi, hu, rfl⟩ := sequencer_cases h
  · exact Keeps.refl _
  · exact advance_keeps _
  · have hk := exec_keeps (seqInstr_internal hi).1 hu
    refine Keeps.trans (t := behind s u) ?_ (moveOn_keeps _)
    exact ⟨hk.img, hk.quality, hk.width, hk.height, hk.mode, hk.srcLen, hk.params, hk.input, hk.lastRead, hk.qt,
      hk.cfgValid, _, rfl⟩

/-- The sequencer gets from one state to the other, one operation a step. -/
abbrev Reaches : State → State → Prop := Relation.ReflTransGen fun s t => sequencer s = .next t

/-- With no input pending these are the machine's steps. -/
theorem Reaches.run {s t : State} (h : Reaches s t) (hin : s.input = []) :
    ∃ n, Host.Core.run Sys2Proof.core n s = .next t := by
  induction h using Relation.ReflTransGen.head_induction_on with
  | refl => exact ⟨0, rfl⟩
  | head hstep _ ih =>
    obtain ⟨n, hn⟩ := ih ((sequencer_keeps hstep).input.trans hin)
    refine ⟨n + 1, ?_⟩
    have hcore := (step_of_no_input hin).trans hstep
    simp only [Host.Core.run, Sys2Proof.core, hcore]
    exact hn

/-! ### Runs the sequencer follows -/

/-- The sequencer, from `w`, follows the run: to a state that `M` relates to the one in which the run finishes, or,
where the run raises, to that state at rest. -/
def Reached (w : State) (M : State → State → Prop) {α : Type} : Run α → Prop
  | .done _ t => ∃ x, M t x ∧ Reaches w x
  | .raised t => Reaches w (settle t)

variable {α β : Type} {M N : State → State → Prop} {s w x : State}

theorem Reached.here (v : α) (h : M s w) : Reached w M (.done v s) := ⟨w, h, .refl⟩

theorem Reached.head {m : Run α} (h : sequencer w = .next x) (hm : Reached x M m) : Reached w M m := by
  cases m with
  | done v t =>
    obtain ⟨y, hy, hxy⟩ := hm
    exact ⟨y, hy, .head h hxy⟩
  | raised t => exact Relation.ReflTransGen.head h hm

theorem Reached.bind {m : Run α} {k : α → State → Run β} (hm : Reached w M m)
    (hk : ∀ v t x, M t x → Reached x N (k v t)) : Reached w N (m.bind k) := by
  cases m with
  | raised t => exact hm
  | done v t =>
    obtain ⟨x, hx, hwx⟩ := hm
    have h := hk v t x hx
    rw [Run.bind_done]
    cases hrun : k v t with
    | done v' t' =>
      rw [hrun] at h
      obtain ⟨y, hy, hxy⟩ := h
      exact ⟨y, hy, hwx.trans hxy⟩
    | raised t' =>
      rw [hrun] at h
      exact hwx.trans h

/-- Each item of the list is followed by the next one, and the last by `e`. -/
def Follows (next : α → Option α) (e : Option α) : List α → Prop
  | [] => True
  | a :: as => next a = as.head?.or e ∧ Follows next e as

theorem Follows.append {next : α → Option α} {e : Option α} {bs : List α} (hbs : Follows next e bs) :
    ∀ {as : List α}, Follows next (bs.head?.or e) as → Follows next e (as ++ bs)
  | [], _ => hbs
  | a :: as, ⟨ha, has⟩ => ⟨by rw [ha, ← Option.or_assoc, ← List.head?_append]; rfl, hbs.append has⟩

/-- The machine is before item `a`, or, with the list at its end, past it. -/
def BeforeOrPast (M : α → State → State → Prop) (N : State → State → Prop) : Option α → State → State → Prop
  | some a => M a
  | none => N

/-- A loop whose every pass leads the sequencer from the point before its item to the point before the next. -/
theorem Reached.forEach {next : α → Option α} {M : α → State → State → Prop} {f : α → State → Run Unit}
    (hf : ∀ a s w, M a s w → Reached w (BeforeOrPast M N (next a)) (f a s)) :
    ∀ (as : List α), Follows next none as → ∀ {s w : State}, BeforeOrPast M N as.head? s w →
      Reached w N (Machine.forEach f as s)
  | [], _, _, _, h => .here () h
  | a :: as, ⟨hnext, has⟩, s, w, h => by
    have hpass := hf a s w h
    rw [hnext, Option.or_none] at hpass
    exact hpass.bind fun _ _ _ h => Reached.forEach hf as has h

/-! ### One operation -/

/-- The machine's state: the one of the run, with the sequencer's point and the last operation's value. -/
def dress (r : OpResult) (p : SeqPoint) (s : State) : State := { s with result := r, seq := p }

/-- The operations that send do not read them. -/
theorem dress_sendable (r : OpResult) (p : SeqPoint) :
    Sendable (fun s t => t = dress r p s) (fun s t => t = dress r p s) where
  acc := by rintro s _ rfl; exact ⟨rfl, rfl⟩
  setAcc := by rintro s _ rfl a n; rfl
  raise := by rintro s _ rfl; rfl
  sinkByte := by
    rintro s _ rfl b
    have hans : (dress r p s).sinkAnswers = s.sinkAnswers := rfl
    unfold sinkByte
    rw [hans]
    split
    · exact .done () rfl
    · exact .done () rfl
    · exact .raised rfl

/-- An encode of `b` at work, with no operation begun. -/
structure Working (b s : State) : Prop where
  busy : s.busy = true
  sent : s.sent = 0
  keeps : Keeps b s

/-- The machine is at the point `p` of an encode of `b`. -/
def AtPoint (b : State) (p : SeqPoint) (s w : State) : Prop := Working b s ∧ ∃ r, w = dress r p s

theorem SentFrom.working {b t : State} (hs : Working b s) (h : SentFrom s t) : Working b t := by
  have hk := hs.keeps.trans h.keeps
  obtain ⟨a, n, bs, as, rfl⟩ := h
  exact ⟨hs.busy, hs.sent, hk⟩

theorem finishUnit_eq_finish (r : Run Unit) : finishUnit r = finish (r.bind fun _ t => .done .none t) := by
  cases r <;> rfl

theorem Run.Pairs.eq_done {F : State → State} {m n : Run α} {v : α} {t : State}
    (h : Run.Pairs (fun s t => t = F s) (fun s t => t = F s) m n) (hm : m = .done v t) : n = .done v (F t) := by
  subst hm
  cases h with
  | done _ h => rw [h]

theorem Run.Pairs.eq_raised {F : State → State} {m n : Run α} {t : State}
    (h : Run.Pairs (fun s t => t = F s) (fun s t => t = F s) m n) (hm : m = .raised t) : n = .raised (F t) := by
  subst hm
  cases h with
  | raised h => rw [h]

/-- The sequencer runs the operation of its point, `m`, and moves on; `f` is what the encode does with the value. -/
theorem Reached.op {b : State} {p : SeqPoint} {i : Instr} {m : State → Run α} {res : α → OpResult}
    {f : α → State → State} (hw : AtPoint b p s w) (hi : ∀ r, seqInstr (dress r p s) = some i)
    (hexec : ∀ u, exec i u = finish ((m u).bind fun v t => .done (res v) t)) (hsends : (m s).Sends s)
    (hpairs : ∀ r, Run.Pairs (fun s t => t = dress r p s) (fun s t => t = dress r p s) (m s) (m (dress r p s)))
    (hmove : ∀ v t, SentFrom s t → Working b t → M (f v t) (advance (dress (res v) p t))) :
    Reached w M ((m s).bind fun v t => .done () (f v t)) := by
  obtain ⟨hs, r, rfl⟩ := hw
  have hstep : ∀ u, finish ((m (dress r p s)).bind fun v t => .done (res v) t) = .next u →
      sequencer (dress r p s) = .next (moveOn u) := fun u hu =>
    sequencer_of_exec hs.busy hs.sent (hi r) ((hexec _).trans hu)
  have hr := hpairs r
  cases hm : m s with
  | done v t =>
    rw [hm] at hsends
    have hsent : SentFrom s t := by cases hsends; assumption
    have ht := hsent.working hs
    have hmoved := hstep (returned (res v) (dress r p t)) (by rw [(hpairs r).eq_done hm]; rfl)
    rw [moveOn, if_pos (show (returned (res v) (dress r p t)).busy = true from ht.busy)] at hmoved
    exact ⟨_, hmove v t hsent ht, .single hmoved⟩
  | raised t =>
    rw [hm] at hsends
    have hidle : (returned .none (dress r p t)).busy = false := by cases hsends; rfl
    have hmoved := hstep (returned .none (dress r p t)) (by rw [(hpairs r).eq_raised hm]; rfl)
    rw [moveOn, if_neg (Bool.eq_false_iff.mp hidle)] at hmoved
    exact Relation.ReflTransGen.single hmoved

end Sys2Proof.Machine
end

section
/-! PROOFS. The two granularities of R174 end in one state: the sequencer's steps through the header, the scan and the
end of an encode. -/
namespace Sys2Proof.Machine
open Sys2Proof

variable {b s t w : State}

/-! ### The header (R165) -/

/-- A header segment as an operation and as the run of its bytes. -/
def SegmentOp (i : Instr) (r : State → Run Unit) : Prop :=
  (∀ s, exec i s = finishUnit (r s)) ∧ (∀ s, (r s).Sends s) ∧
    ∀ (a : OpResult) (p : SeqPoint) (s : State),
      Run.Pairs (fun s t => t = dress a p s) (fun s t => t = dress a p s) (r s) (r (dress a p s))

/-- A segment whose bytes do not depend on the sequencer's point. -/
theorem segmentOp_of_bytes {i : Instr} {r : State → Run Unit} (bytes : State → List Byte)
    (hexec : ∀ s, exec i s = finishUnit (r s)) (hr : ∀ s, r s = sinkBytes (bytes s) s)
    (hbytes : ∀ a p s, bytes (dress a p s) = bytes s) : SegmentOp i r := by
  refine ⟨hexec, fun s => ?_, fun a p s => ?_⟩
  · rw [hr]
    exact sinkBytes_sends _ s
  · rw [hr, hr, hbytes]
    exact (dress_sendable a p).sinkBytes rfl _

theorem segmentOp_dht (cls : TableClass) (dest : TableSet) : SegmentOp (.dht cls dest) (emitDht cls dest) :=
  segmentOp_of_bytes (fun _ => segmentBytes 0xC4#8 (some (dhtBytes cls dest (huffBits (tableOf cls dest))
    (huffVals (tableOf cls dest))))) (fun _ => rfl) (fun s => emitDht_eq cls dest s) (fun _ _ _ => rfl)

theorem segmentOp_dqt (tq : TableSet) : SegmentOp (.dqt tq) (emitDqt tq) :=
  segmentOp_of_bytes (fun s => segmentBytes 0xDB#8 (some (dqtData tq (s.qt.get tq)))) (fun _ => rfl) (fun _ => rfl)
    (fun _ _ _ => rfl)

/-- The plan lists the operations of the header's runs, one by one. -/
theorem headerPlan_runs (n : NComp) : List.Forall₂ SegmentOp (headerPlan n) (headerRuns n) := by
  have hsoi : SegmentOp .soi emitSoi :=
    segmentOp_of_bytes (fun _ => segmentBytes 0xD8#8 none) (fun _ => rfl) (fun _ => rfl) (fun _ _ _ => rfl)
  have happ0 : SegmentOp .app0 emitApp0 :=
    segmentOp_of_bytes (fun _ => segmentBytes 0xE0#8 (some app0Data)) (fun _ => rfl) (fun _ => rfl) (fun _ _ _ => rfl)
  have hsof0 : SegmentOp .sof0 emitSof0 :=
    segmentOp_of_bytes (fun s => segmentBytes 0xC0#8 (some (sof0Data s.height s.width s.ncomp))) (fun _ => rfl)
      (fun _ => rfl) (fun _ _ _ => rfl)
  have hsos : SegmentOp .sos emitSos :=
    segmentOp_of_bytes (fun s => segmentBytes 0xDA#8 (some (sosData s.ncomp))) (fun _ => rfl) (fun _ => rfl)
      (fun _ _ _ => rfl)
  cases n <;> simp only [headerPlan, headerRuns, List.forall₂_cons, List.forall₂_nil_left_iff, hsoi, happ0, hsof0, hsos,
    segmentOp_dht, segmentOp_dqt, and_self]

theorem Run.bind_done_self (m : Run Unit) : (m.bind fun _ t => .done () t) = m := by cases m <;> rfl

/-- The machine is before segment `k` of the header. -/
def AtHeader (b : State) (k : Nat) (s w : State) : Prop := SentFrom (encodeStart b) s ∧ AtPoint b (.header k) s w

/-- The machine is past the header, and at the origin of the frame. -/
def PastHeader (b : State) (s w : State) : Prop :=
  AtPoint b .scan { s with phase := .headersWritten } w ∧ s.y0 = 0 ∧ s.x0 = 0 ∧ s.c = .y

theorem pastHeader_of_sentFrom (h : SentFrom (encodeStart b) s)
    (hw : AtPoint b .scan { s with phase := .headersWritten } w) :
    PastHeader b s w := by
  obtain ⟨a, n, bs, as, rfl⟩ := h
  exact ⟨hw, rfl, rfl, rfl⟩

/-- The segments from number `k` on. -/
theorem headerRuns_reached {is : List Instr} {rs : List (State → Run Unit)} (h : List.Forall₂ SegmentOp is rs) :
    ∀ {k : Nat} {s w : State}, (headerPlan b.ncomp).drop k = is → is ≠ [] → AtHeader b k s w →
      Reached w (PastHeader b) (forEach (fun r t => r t) rs s) := by
  induction h with
  | nil => exact fun _ h => absurd rfl h
  | @cons i r is rs hop hrest ih =>
    intro k s w hdrop _ hw
    obtain ⟨hexec, hsends, hpairs⟩ := hop
    obtain ⟨hsent, hpoint⟩ := hw
    have hn : s.ncomp = b.ncomp := hpoint.1.keeps.ncomp
    have hk : (headerPlan b.ncomp)[k]? = some i := by
      have h0 := congrArg (·[0]?) hdrop
      simpa [List.getElem?_drop] using h0
    have hlen : (headerPlan b.ncomp).length = k + (is.length + 1) := by
      have hl := congrArg List.length hdrop
      rw [List.length_drop, List.length_cons] at hl
      omega
    have hdrop' : (headerPlan b.ncomp).drop (k + 1) = is := by
      rw [← List.drop_drop, hdrop]
      rfl
    have hstep : Reached w (fun t x => SentFrom s t ∧ Working b t ∧ x = advance (dress .none (.header k) t)) (r s) := by
      rw [← Run.bind_done_self (r s)]
      exact Reached.op (res := fun _ => .none) (f := fun _ t => t) hpoint
        (fun _ => (congrArg (fun n => (headerPlan n)[k]?) hn).trans hk)
        (fun u => (hexec u).trans (finishUnit_eq_finish _)) (hsends s) (fun a => hpairs a _ s)
        fun _ t ht hwork => ⟨ht, hwork, rfl⟩
    rw [forEach_cons]
    refine hstep.bind fun _ t x ⟨ht, hwork, hx⟩ => ?_
    have hadvance : advance (dress .none (.header k) t) =
        if k + 1 < k + (is.length + 1) then dress .none (.header (k + 1)) t
        else dress .none .scan { t with phase := .headersWritten } := by
      rw [← hlen, ← hwork.keeps.ncomp]
      rfl
    rw [hadvance] at hx
    cases hrest with
    | nil =>
      rw [if_neg (by simp)] at hx
      have hphase := keeps_moved t t.pred t.busy .headersWritten t.y0 t.x0 t.c t.seq t.result
      exact .here () (pastHeader_of_sentFrom (hsent.trans ht)
        ⟨⟨hwork.busy, hwork.sent, hwork.keeps.trans hphase⟩, .none, hx⟩)
    | cons =>
      rw [if_pos (by simp)] at hx
      exact ih hdrop' (by simp) ⟨hsent.trans ht, hwork, .none, hx⟩

theorem working_encodeStart (b : State) : Working b (encodeStart b) :=
  ⟨rfl, rfl, rfl, rfl, rfl, rfl, rfl, rfl, rfl, rfl, rfl, rfl, rfl, [], by simp⟩

theorem emitHeader_reached (b : State) :
    Reached (encodeStart b) (fun s w => AtPoint b .scan s w ∧ s.y0 = 0 ∧ s.x0 = 0 ∧ s.c = .y)
      (emitHeader (encodeStart b)) := by
  have hplan : ∀ n, headerPlan n ≠ [] := fun n => by cases n <;> simp [headerPlan]
  have hruns : Reached (encodeStart b) (PastHeader b) (forEach (fun r t => r t) (headerRuns b.ncomp) (encodeStart b)) :=
    headerRuns_reached (k := 0) (headerPlan_runs b.ncomp) rfl (hplan _)
      ⟨SentFrom.refl _, working_encodeStart b, b.result, rfl⟩
  exact hruns.bind fun _ _ _ h => .here () h

/-! ### One block position (R166 to R170) -/

/-- The position after `p` in raster order (R166). -/
def nextOrigin (width height : Nat) (p : Nat × Nat) : Option (Nat × Nat) :=
  if p.2 + 8 < width then some (p.1, p.2 + 8) else if p.1 + 8 < height then some (p.1 + 8, 0) else none

/-- The machine is before the position `p`. -/
def AtPosition (b : State) (p : Nat × Nat) (s w : State) : Prop :=
  AtPoint b .sample { s with y0 := p.1, x0 := p.2, c := .y } w

/-- The machine is before the component `c` of the position `p`. -/
def AtComponent (b : State) (p : Nat × Nat) (c : Comp) (s w : State) : Prop :=
  s.y0 = p.1 ∧ s.x0 = p.2 ∧ AtPoint b .fdct { s with c := c } w

/-- The machine is past the position `p`: before the next, or past the scan. -/
def PastPosition (b : State) (p : Nat × Nat) : State → State → Prop :=
  BeforeOrPast (AtPosition b) (AtPoint b .pad) (nextOrigin b.width.toNat b.height.toNat p)

theorem Working.moved (h : Working b s) (pred : Triple Coef) (phase : Phase) (y0 x0 : Nat) (c : Comp) :
    Working b { s with pred := pred, phase := phase, y0 := y0, x0 := x0, c := c } :=
  ⟨h.busy, h.sent, h.keeps.trans (keeps_moved s pred s.busy phase y0 x0 c s.seq s.result)⟩

/-- An operation that does not send: SAMPLE_BLOCK, FDCT, QUANTIZE. -/
theorem AtPoint.step {p : SeqPoint} {i : Instr} {g : State → State} (hw : AtPoint b p s w)
    (hi : ∀ r, seqInstr (dress r p s) = some i) (hexec : ∀ u, exec i u = .next (returned .none (g u)))
    (hdress : ∀ r, g (dress r p s) = dress r p (g s)) (hg : Working b (g s)) :
    sequencer w = .next (advance (dress .none p (g s))) := by
  obtain ⟨hs, r, rfl⟩ := hw
  rw [sequencer_of_exec (s := dress r p s) hs.busy hs.sent (hi r) (hexec _), hdress, moveOn]
  rw [if_pos (show (returned .none (dress r p (g s))).busy = true from hg.busy)]
  rfl

theorem working_fdctInto (h : Working b s) (samp : Block Byte) : Working b (fdctInto samp s) :=
  ⟨h.busy, h.sent, h.keeps.trans ⟨rfl, rfl, rfl, rfl, rfl, rfl, rfl, rfl, rfl, rfl, rfl, [], by simp [fdctInto]⟩⟩

theorem working_quantizeInto (h : Working b s) (raw : Block Coef) (table : Block Byte) :
    Working b (quantizeInto raw table s) :=
  ⟨h.busy, h.sent, h.keeps.trans ⟨rfl, rfl, rfl, rfl, rfl, rfl, rfl, rfl, rfl, rfl, rfl, [], by simp [quantizeInto]⟩⟩

theorem working_sampleBlock (h : Working b s) (x0 y0 : Nat) : Working b (sampleBlock x0 y0 s) :=
  ⟨h.busy, h.sent, h.keeps.trans ⟨rfl, rfl, rfl, rfl, rfl, rfl, rfl, rfl, rfl, rfl, rfl, [], by simp [sampleBlock]⟩⟩

theorem nextPosition_right (h : s.x0 + 8 < s.width.toNat) :
    nextPosition s = { s with x0 := s.x0 + 8, c := .y, seq := .sample } := if_pos h

theorem nextPosition_down (h : ¬ s.x0 + 8 < s.width.toNat) (h' : s.y0 + 8 < s.height.toNat) :
    nextPosition s = { s with x0 := 0, y0 := s.y0 + 8, c := .y, seq := .sample } := (if_neg h).trans (if_pos h')

theorem nextPosition_end (h : ¬ s.x0 + 8 < s.width.toNat) (h' : ¬ s.y0 + 8 < s.height.toNat) :
    nextPosition s = { s with seq := .pad } := (if_neg h).trans (if_neg h')

/-- After the block of a component the machine is before the next component, or past the position. -/
theorem afterBlock_reaches {p : Nat × Nat} {r : OpResult} (hs : Working b s) (hy : s.y0 = p.1) (hx : s.x0 = p.2) :
    BeforeOrPast (AtComponent b p) (PastPosition b p) (nextComp b.ncomp s.c) s
      (afterBlock (dress r .writeBlock s)) := by
  have hn : (dress r .writeBlock s).ncomp = b.ncomp := hs.keeps.ncomp
  have hc : (dress r .writeBlock s).c = s.c := rfl
  unfold afterBlock
  rw [hn, hc]
  cases nextComp b.ncomp s.c with
  | some d => exact ⟨hy, hx, hs.moved s.pred s.phase s.y0 s.x0 d, r, rfl⟩
  | none =>
    obtain ⟨y, x⟩ := p
    dsimp only at hy hx
    subst hy hx
    show PastPosition b (s.y0, s.x0) s (nextPosition (dress r .writeBlock s))
    unfold PastPosition nextOrigin
    rw [← hs.keeps.width, ← hs.keeps.height]
    by_cases hx : s.x0 + 8 < s.width.toNat
    · rw [nextPosition_right (s := dress r .writeBlock s) hx, if_pos hx]
      exact ⟨hs.moved s.pred s.phase _ _ .y, r, rfl⟩
    · rw [if_neg hx]
      by_cases hy : s.y0 + 8 < s.height.toNat
      · rw [nextPosition_down (s := dress r .writeBlock s) hx hy, if_pos hy]
        exact ⟨hs.moved s.pred s.phase _ _ .y, r, rfl⟩
      · rw [nextPosition_end (s := dress r .writeBlock s) hx hy, if_neg hy]
        exact ⟨hs, r, rfl⟩

/-- One component: FDCT, QUANTIZE, WRITE_BLOCK, and the predictor is stored. -/
theorem encodeComp_reached {p : Nat × Nat} {c : Comp} (h : AtComponent b p c s w) :
    Reached w (BeforeOrPast (AtComponent b p) (PastPosition b p) (nextComp b.ncomp c)) (encodeComp c s) := by
  obtain ⟨hy, hx, hw⟩ := h
  have hwork := working_fdctInto hw.1 (s.samp.get c)
  have hwork' := working_quantizeInto hwork (fdct s.params.fdct (s.samp.get c)) (s.qt.get (descriptor c).tq)
  have hfdct := hw.step (i := .fdct (s.samp.get c)) (g := fdctInto (s.samp.get c)) (fun _ => rfl) (fun _ => rfl)
    (fun _ => rfl) hwork
  have hpoint : AtPoint b .quantize (fdctInto (s.samp.get c) { s with c := c })
      (advance (dress .none .fdct (fdctInto (s.samp.get c) { s with c := c }))) := ⟨hwork, .none, rfl⟩
  have hquantize := hpoint.step (i := .quantize (fdct s.params.fdct (s.samp.get c)) (s.qt.get (descriptor c).tq))
    (g := quantizeInto (fdct s.params.fdct (s.samp.get c)) (s.qt.get (descriptor c).tq))
    (fun _ => rfl) (fun _ => rfl) (fun _ => rfl) hwork'
  have hpoint' : AtPoint b .writeBlock (quantizedState c s)
      (advance (dress .none .quantize (quantizedState c s))) := ⟨hwork', .none, rfl⟩
  refine Reached.head hfdct (Reached.head hquantize ?_)
  rw [encodeComp_eq]
  refine Reached.op (m := writeBlock (quantizedState c s).q (s.pred.get c) (descriptor c).td (descriptor c).ta)
    (res := .coef) (f := setPred c) hpoint' (fun _ => rfl) (fun u => exec_writeBlock _ _ _ _ u)
    (writeBlock_sends _ _ _ _ _) (fun r => (dress_sendable r _).coding.writeBlock rfl _ _ _ _) fun v t ht hwt => ?_
  have hset : Working b (setPred c v t) := hwt.moved _ t.phase t.y0 t.x0 t.c
  obtain ⟨a, n, bs, as, rfl⟩ := ht
  exact afterBlock_reaches (s := setPred c v _) hset hy hx

/-- One position: SAMPLE_BLOCK, and then each component in order. -/
theorem encodePosition_reached {p : Nat × Nat} (h : AtPosition b p s w) :
    Reached w (PastPosition b p) (encodePosition p s) := by
  have hwork := working_sampleBlock h.1 p.2 p.1
  have hsample := AtPoint.step (i := .sampleBlock p.2 p.1) (g := sampleBlock p.2 p.1) h (fun _ => rfl)
    (fun _ => rfl) (fun _ => rfl) hwork
  have hn : s.ncomp = b.ncomp := h.1.keeps.ncomp
  have hfollows : Follows (nextComp b.ncomp) none (comps b.ncomp) := by
    cases b.ncomp <;> simp [comps, nextComp, Follows]
  have hfirst : (comps b.ncomp).head? = some .y := by cases b.ncomp <;> rfl
  rw [encodePosition_eq, hn]
  refine Reached.head hsample (Reached.forEach (fun c s w hc => encodeComp_reached hc) _ hfollows ?_)
  rw [hfirst]
  exact ⟨rfl, rfl, hwork, .none, rfl⟩

/-! ### The scan (R166) -/

/-- The origins from number `a` on, in a row of blocks. -/
theorem row_follows (width height y0 : Nat) : ∀ (n a : Nat), a + n = (width + 7) / 8 →
    Follows (nextOrigin width height) (if y0 + 8 < height then some (y0 + 8, 0) else none)
      ((List.range' a n).map fun j => (y0, 8 * j))
  | 0, _, _ => trivial
  | n + 1, a, h => by
    refine ⟨?_, row_follows width height y0 n (a + 1) (by omega)⟩
    unfold nextOrigin
    cases n with
    | zero => rw [if_neg (by dsimp only; omega)]; rfl
    | succ n => rw [if_pos (by dsimp only; omega)]; rfl

/-- The rows from number `a` on: behind the last position of a row comes the first one of the next. -/
theorem rows_follow {width height : Nat} (hw : 0 < width) : ∀ (n a : Nat), a + n = (height + 7) / 8 →
    Follows (nextOrigin width height) none
      ((List.range' a n).flatMap fun i => (List.range' 0 ((width + 7) / 8)).map fun j => (8 * i, 8 * j))
  | 0, _, _ => trivial
  | n + 1, a, h => by
    have hcols : (width + 7) / 8 = (width + 7) / 8 - 1 + 1 := by omega
    rw [List.range'_succ, List.flatMap_cons]
    refine (rows_follow (height := height) hw n (a + 1) (by omega)).append ?_
    have hnext : (((List.range' (a + 1) n).flatMap fun i =>
        (List.range' 0 ((width + 7) / 8)).map fun j => (8 * i, 8 * j)).head?.or none) =
        if 8 * a + 8 < height then some (8 * a + 8, 0) else none := by
      cases n with
      | zero => rw [if_neg (by omega)]; rfl
      | succ n =>
        rw [if_pos (by omega), List.range'_succ, List.flatMap_cons, hcols, List.range'_succ]
        simp [Nat.mul_add]
    rw [hnext]
    exact row_follows width height (8 * a) _ 0 (by omega)

theorem positions_follow {width height : Nat} (hw : 0 < width) :
    Follows (nextOrigin width height) none (positions width height) := by
  have h := rows_follow (height := height) hw ((height + 7) / 8) 0 (by omega)
  simpa [positions, origins, List.range_eq_range', List.flatMap_map, Function.comp_def] using h

theorem positions_head? {width height : Nat} (hw : 0 < width) (hh : 0 < height) :
    (positions width height).head? = some (0, 0) := by
  obtain ⟨m, hm⟩ : ∃ m, (width + 7) / 8 = m + 1 := ⟨(width + 7) / 8 - 1, by omega⟩
  obtain ⟨n, hn⟩ : ∃ n, (height + 7) / 8 = n + 1 := ⟨(height + 7) / 8 - 1, by omega⟩
  simp [positions, origins, hm, hn, List.range_succ_eq_map]

theorem sequencer_of_scan {r : OpResult} (h : s.busy = true) :
    sequencer (dress r .scan s) = .next (advance (dress r .scan s)) :=
  sequencer_of_no_instr (s := dress r .scan s) h rfl

/-- The scan: from the origin of the frame to the point past the last position, at once where there is no position. -/
theorem encodeScan_reached (h : AtPoint b .scan s w) (hy : s.y0 = 0) (hx : s.x0 = 0) (hc : s.c = .y) :
    Reached w (AtPoint b .pad) (encodeScan s) := by
  obtain ⟨hs, r, rfl⟩ := h
  have hphase : Working b { s with phase := .scanningBlocks } := hs.moved s.pred .scanningBlocks s.y0 s.x0 s.c
  refine Reached.head (sequencer_of_scan hs.busy) ?_
  by_cases hz : s.width ≠ 0#16 ∧ s.height ≠ 0#16
  · have hstart : advance (dress r .scan s) =
        dress r .sample { s with phase := .scanningBlocks, y0 := 0, x0 := 0, c := .y } := if_pos hz
    have hpos : ∀ {d : BitVec 16}, d ≠ 0#16 → 0 < d.toNat := fun hd =>
      Nat.pos_of_ne_zero fun h => hd (BitVec.eq_of_toNat_eq h)
    have hfollows := positions_follow (height := s.height.toNat) (hpos hz.1)
    have hfirst := positions_head? (hpos hz.1) (hpos hz.2)
    have hnext : ∀ p, PastPosition b p = BeforeOrPast (AtPosition b) (AtPoint b .pad)
        (nextOrigin s.width.toNat s.height.toNat p) := fun p => by
      rw [hs.keeps.width, hs.keeps.height]
      rfl
    rw [hstart]
    refine Reached.forEach (M := AtPosition b) (fun p t x hp => ?_) _ hfollows ?_
    · rw [← hnext]
      exact encodePosition_reached hp
    · rw [hfirst]
      exact ⟨hs.moved s.pred .scanningBlocks 0 0 .y, r, rfl⟩
  · have hempty : s.width = 0#16 ∨ s.height = 0#16 := by
      by_contra hne
      exact hz (not_or.mp hne)
    have hstart : advance (dress r .scan s) =
        dress r .pad { s with phase := .scanningBlocks, y0 := 0, x0 := 0, c := .y } := if_neg hz
    rw [hstart, encodeScan_of_empty_frame hempty]
    refine .here () ⟨hphase, r, ?_⟩
    simp only [hy, hx, hc]

/-! ### The end, and the whole encode -/

theorem encodeEnd_reached (h : AtPoint b .pad s w) : Reached w (fun t x => x = settle t) (encodeEnd s) := by
  have hpad : Reached w (AtPoint b .eoi) (padByte s) := by
    rw [← Run.bind_done_self (padByte s)]
    exact Reached.op (i := .padByte) (res := fun _ => .none) (f := fun _ t => t) h (fun _ => rfl)
      (fun _ => finishUnit_eq_finish _) (padByte_sends s) (fun r => (dress_sendable r _).writeBits rfl _ _)
      fun _ t _ ht => ⟨ht, .none, rfl⟩
  refine hpad.bind fun _ t x hx => ?_
  exact Reached.op (i := .eoi) (m := emitEoi) (res := fun _ => .none)
    (f := fun _ t => { t with phase := .finalized, busy := false }) hx (fun _ => rfl) (fun _ => finishUnit_eq_finish _)
    (emitEoi_sends t) (fun r => (dress_sendable r _).sinkBytes rfl _) fun _ t _ _ => rfl

/-- The sequencer gets from the encode start to the end of the encode. -/
theorem encodeStart_reaches (s : State) : Reaches (encodeStart s) (endState (encodeRun s)) := by
  have hrun : Reached (encodeStart s) (fun t x => x = settle t) (encodeRun s) :=
    (emitHeader_reached s).bind fun _ t x ⟨hx, hy0, hx0, hc⟩ =>
      (encodeScan_reached hx hy0 hx0 hc).bind fun _ t x hx => encodeEnd_reached hx
  cases h : encodeRun s with
  | done v t =>
    rw [h] at hrun
    obtain ⟨_, rfl, hreach⟩ := hrun
    exact hreach
  | raised t =>
    rw [h] at hrun
    exact hrun

/-- Settles O60: the sequencer reaches the end of the encode, and with no input pending its steps are the machine's. -/
theorem fineStepsReachTheSameEnd : Obligations.FineStepsReachTheSameEnd := by
  unfold Obligations.FineStepsReachTheSameEnd
  intro s ha hin
  rw [exec_encode_accepted ha]
  exact (encodeStart_reaches s).run hin

end Sys2Proof.Machine
end

section
/-! PROOFS. Every step keeps the invariant: an operation, the sequencer as it moves on, a command, an input. -/
namespace Sys2Proof.Machine
open Sys2Proof

variable {s t u : State}

/-! ### An idle block -/

/-- With `busy` clear and no operation in progress, what is left of the invariant. -/
theorem Inv.of_idle (hbusy : t.busy = false) (hsent : t.sent = 0) (hclean : AccClean t)
    (htables : t.cfgValid = true → TablesNonzero t) (hfatal : t.fatal = true → t.err ≠ .none) (himg : t.img.wf = true)
    (hpos : t.y0 % 8 = 0 ∧ t.x0 % 8 = 0 ∧ t.y0 ≤ 65528 ∧ t.x0 ≤ 65528) : Inv t where
  accClean := hclean
  nbitsBusy := fun h => absurd (hbusy.symm.trans h) (by simp)
  busyReady := fun h => absurd (hbusy.symm.trans h) (by simp)
  tables := htables
  fatalErr := hfatal
  imgWf := himg
  position := hpos
  phaseOk := fun h => absurd (hbusy.symm.trans h) (by simp)
  inFrame := fun h => absurd (hbusy.symm.trans h) (by simp)
  compInUse := fun h => absurd (hbusy.symm.trans h) (by simp)
  sentOk := fun h => absurd hsent h
  hasImage := fun h => absurd (hbusy.symm.trans h) (by simp)

theorem Inv.sent_of_idle (h : Inv s) (hbusy : s.busy = false) : s.sent = 0 := by
  by_contra hne
  exact absurd (hbusy.symm.trans (h.sentOk hne).1) (by simp)

/-- A block that falls idle, or is idle, and only its point, phase, result and STATUS change. -/
theorem Inv.settled (h : Inv s) (hsent : s.sent = 0) (phase : Phase) :
    Inv (settle { s with phase := phase, busy := false }) :=
  .of_idle rfl hsent h.accClean h.tables h.fatalErr h.imgWf h.position

/-! ### Internal operations -/

/-- An operation that finishes keeps what the invariant says of the sequencer; one that raises leaves the block idle. -/
theorem exec_inv {i : Instr} (hc : i ≠ .configure) (he : i ≠ .encode) (h : Inv s) (hsent : s.sent = 0)
    (hexec : exec i s = .next t) : Inv t ∧ t.sent = 0 := by
  have hk := exec_keeps hc hexec
  have hp := exec_keepsPosition he hexec
  have hclean := exec_clean h.accClean hexec
  have htables : t.cfgValid = true → TablesNonzero t := by
    unfold TablesNonzero
    rw [hk.cfgValid, hk.qt]
    exact h.tables
  have himg : t.img.wf = true := by rw [hk.img]; exact h.imgWf
  have hpos : t.y0 % 8 = 0 ∧ t.x0 % 8 = 0 ∧ t.y0 ≤ 65528 ∧ t.x0 ≤ 65528 := by
    rw [hp.y0, hp.x0]
    exact h.position
  refine ⟨?_, hp.sent.trans hsent⟩
  obtain ⟨hbusy, herr, hfatal⟩ | ⟨hidle, _, hraise⟩ := exec_flags hc he hexec
  · refine ⟨hclean, fun hb => ?_, fun hb => ?_, htables, ?_, himg, hpos, fun hb => ?_, fun hb => ?_, fun hb => ?_,
      fun hne => absurd (hp.sent.trans hsent) hne, fun hb => ?_⟩
    · obtain ⟨_, hn | ⟨hidle, _⟩⟩ := exec_staysReady ⟨h.nbitsBusy (hbusy.symm.trans hb), h.accClean⟩ hexec
      · exact hn
      · exact absurd (hidle.symm.trans hb) (by simp)
    · rw [hk.cfgValid, hfatal, herr]
      exact h.busyReady (hbusy.symm.trans hb)
    · rw [hfatal, herr]
      exact h.fatalErr
    · rw [hp.seq, hp.phase]
      exact h.phaseOk (hbusy.symm.trans hb)
    · rw [hp.seq, hp.x0, hp.y0, hk.width, hk.height]
      exact h.inFrame (hbusy.symm.trans hb)
    · rw [hp.c, hk.ncomp]
      exact h.compInUse (hbusy.symm.trans hb)
    · rw [hk.width, hk.height, hk.srcLen]
      exact h.hasImage (hbusy.symm.trans hb)
  · refine .of_idle hidle (hp.sent.trans hsent) hclean htables (fun _ => ?_) himg hpos
    obtain ⟨herr, _⟩ | ⟨herr | herr, _⟩ := hraise <;> rw [herr] <;> simp

/-! ### The sequencer moves on -/

/-- To another point of an encode: at a position of the frame, in the phase of that point, with a component in use. -/
theorem Inv.moved (h : Inv s) {pred : Triple Coef} {phase : Phase}
    {y0 x0 : Nat} {c : Comp} {p : SeqPoint} (hpos : y0 % 8 = 0 ∧ x0 % 8 = 0 ∧ y0 ≤ 65528 ∧ x0 ≤ 65528)
    (hp : p ≠ .idle ∧ phase = phaseAt p)
    (hframe : atBlock p = true → x0 < s.width.toNat ∧ y0 < s.height.toNat) (hc : c ∈ comps s.ncomp) :
    Inv { s with pred := pred, phase := phase, y0 := y0, x0 := x0, c := c, seq := p } where
  accClean := h.accClean
  nbitsBusy := h.nbitsBusy
  busyReady := h.busyReady
  tables := h.tables
  fatalErr := h.fatalErr
  imgWf := h.imgWf
  position := hpos
  phaseOk := fun _ => hp
  inFrame := fun _ => hframe
  compInUse := fun _ => hc
  sentOk := h.sentOk
  hasImage := h.hasImage

theorem y_mem_comps (n : NComp) : Comp.y ∈ comps n := by cases n <;> simp [comps]

theorem nextComp_mem_comps {n : NComp} {c d : Comp} (h : nextComp n c = some d) : d ∈ comps n := by
  cases n <;> cases c <;> simp [nextComp] at h <;> simp [comps, ← h]

/-- From a component on: the next one, the next position of the frame, or the end of the scan (R166, R168). -/
theorem Inv.afterBlock (h : Inv s) (hbusy : s.busy = true) (hseq : s.seq = .writeBlock) :
    Inv (afterBlock s) := by
  obtain ⟨hy8, hx8, hy, hx⟩ := h.position
  have hw : s.width.toNat < 65536 := s.width.isLt
  have hh : s.height.toNat < 65536 := s.height.isLt
  have hphase : s.phase = .scanningBlocks := by
    rw [(h.phaseOk hbusy).2, hseq]
    rfl
  have hframe : s.x0 < s.width.toNat ∧ s.y0 < s.height.toNat := h.inFrame hbusy (by rw [hseq]; rfl)
  have hmoved : ∀ {y0 x0 : Nat} {c : Comp} {p : SeqPoint}, y0 % 8 = 0 ∧ x0 % 8 = 0 ∧ y0 ≤ 65528 ∧ x0 ≤ 65528 →
      p ≠ .idle ∧ Phase.scanningBlocks = phaseAt p → (atBlock p = true → x0 < s.width.toNat ∧ y0 < s.height.toNat) →
      c ∈ comps s.ncomp → Inv { s with y0 := y0, x0 := x0, c := c, seq := p } := fun hpos hp hframe hc =>
    h.moved (pred := s.pred) hpos (by rwa [hphase]) hframe hc
  unfold Machine.afterBlock
  split
  · rename_i c hc
    exact hmoved h.position ⟨by simp, rfl⟩ (fun _ => hframe) (nextComp_mem_comps hc)
  · by_cases hright : s.x0 + 8 < s.width.toNat
    · rw [nextPosition_right hright]
      exact hmoved (by omega) ⟨by simp, rfl⟩ (fun _ => ⟨hright, hframe.2⟩) (y_mem_comps _)
    · by_cases hdown : s.y0 + 8 < s.height.toNat
      · rw [nextPosition_down hright hdown]
        exact hmoved (by omega) ⟨by simp, rfl⟩ (fun _ => ⟨by omega, hdown⟩) (y_mem_comps _)
      · rw [nextPosition_end hright hdown]
        exact hmoved h.position ⟨by simp, rfl⟩ (fun hb => by cases hb) (h.compInUse hbusy)

theorem Inv.storePred (h : Inv s) : Inv (storePred s) := by
  unfold Machine.storePred
  split
  · exact { h with }
  all_goals exact h

/-- Only EOI ends the encode, and it is over when it does. -/
theorem Inv.advance (h : Inv s) (hbusy : s.busy = true) (hsent : s.seq = .eoi → s.sent = 0) : Inv (advance s) := by
  obtain ⟨hidle, hphase⟩ := h.phaseOk hbusy
  have hc := h.compInUse hbusy
  have hto : ∀ p, p ≠ .idle ∧ s.phase = phaseAt p → (atBlock p = true → atBlock s.seq = true) →
      Inv { s with seq := p } := fun p hp hb => h.moved (pred := s.pred) h.position hp
    (fun hp => h.inFrame hbusy (hb hp)) hc
  unfold Machine.advance
  split
  · exact h
  · rename_i hseq
    rw [hseq] at hphase
    split
    · exact hto _ ⟨by simp, hphase⟩ (fun hb => by cases hb)
    · exact h.moved (pred := s.pred) h.position ⟨by simp, rfl⟩ (fun hb => by cases hb) hc
  · split
    · rename_i hz
      have hpos : ∀ {d : BitVec 16}, d ≠ 0#16 → 0 < d.toNat := fun hd =>
        Nat.pos_of_ne_zero fun h => hd (BitVec.eq_of_toNat_eq h)
      exact h.moved (pred := s.pred) (by decide) ⟨by simp, rfl⟩ (fun _ => ⟨hpos hz.1, hpos hz.2⟩)
        (y_mem_comps _)
    · exact h.moved (pred := s.pred) (by decide) ⟨by simp, rfl⟩ (fun hb => by cases hb) (y_mem_comps _)
  · rename_i hseq
    rw [hseq] at hphase
    exact hto _ ⟨by simp, hphase⟩ (fun _ => by rw [hseq]; rfl)
  · rename_i hseq
    rw [hseq] at hphase
    exact hto _ ⟨by simp, hphase⟩ (fun _ => by rw [hseq]; rfl)
  · rename_i hseq
    rw [hseq] at hphase
    exact hto _ ⟨by simp, hphase⟩ (fun _ => by rw [hseq]; rfl)
  · rename_i hseq
    have hstored : (Machine.storePred s).busy = s.busy ∧ (Machine.storePred s).seq = s.seq := by
      unfold Machine.storePred
      split <;> exact ⟨rfl, rfl⟩
    exact h.storePred.afterBlock (hstored.1.trans hbusy) (hstored.2.trans hseq)
  · rename_i hseq
    rw [hseq] at hphase
    exact hto _ ⟨by simp, hphase⟩ (fun hb => by cases hb)
  · rename_i hseq
    exact h.settled (hsent hseq) .finalized

theorem Inv.moveOn (h : Inv s) (hsent : s.sent = 0) : Inv (moveOn s) := by
  unfold Machine.moveOn
  split
  · exact h.advance ‹_› fun _ => hsent
  · rename_i hidle
    exact .of_idle (by simpa using hidle) hsent h.accClean h.tables h.fatalErr h.imgWf h.position

theorem Inv.opStart (h : Inv s) : Inv (opStart s) := { h with sentOk := fun hne => absurd rfl hne }

theorem Inv.sequencer (h : Inv s) (ht : sequencer s = .next t) : Inv t := by
  obtain ⟨_, rfl⟩ | ⟨hbusy, hi, rfl⟩ | ⟨hbusy, i, u, hi, hu, rfl⟩ := sequencer_cases ht
  · exact h
  · exact h.advance hbusy fun hseq => by rw [seqInstr, hseq] at hi; cases hi
  · obtain ⟨hc, he⟩ := seqInstr_internal hi
    obtain ⟨hinv, hsent⟩ := exec_inv hc he h.opStart rfl hu
    have hbehind : Inv (behind s u) := { hinv with sentOk := fun hne => absurd hsent hne }
    exact hbehind.moveOn hsent

/-- Between two sink writes only the sink and the count of its bytes have changed. -/
theorem Inv.oneByteOn (h : Inv s) (ht : Machine.sequencer s = .next t) (hleft : 1 < answersLeft s t) :
    Inv (oneByteOn s t) := by
  obtain ⟨hbusy, hlong, _⟩ := sequencer_of_answersLeft ht hleft
  refine { h with sentOk := fun _ => ⟨hbusy, ?_⟩ }
  have hsent : s.sent ≤ s.out.length := by
    by_cases hz : s.sent = 0
    · omega
    · exact (h.sentOk hz).2
  have hlen : ((t.out.drop s.out.length).take 1).length = 1 := by
    rw [List.length_take, List.length_drop]
    omega
  simp only [oneByteOn_sent, oneByteOn_out, List.length_append, hlen]
  omega

/-! ### Commands and inputs -/

/-- The clamp keeps 0 out of a table (R139). -/
theorem qtableEntry_ne_zero (std quality : Byte) : qtableEntry std quality ≠ 0#8 := by
  intro h
  have hclamp : ∀ v, 1 ≤ clampNat v 1 255 := by
    intro v
    unfold clampNat
    split
    · exact Nat.le_refl 1
    · split <;> omega
  have hpos := hclamp ((std.toNat * qualityScale quality + 50) / 100)
  rw [← qtableEntry_toNat, h] at hpos
  exact absurd hpos (by decide)

theorem tablesNonzero_configure (s : State) : TablesNonzero (configure s) := by
  have htable : ∀ std, ∀ b ∈ (buildQtable std s.quality).toList, b ≠ 0#8 := by
    intro std b hb
    simp only [buildQtable, Fixed.ofFn, List.mem_map] at hb
    obtain ⟨i, _, rfl⟩ := hb
    exact qtableEntry_ne_zero _ _
  exact ⟨htable _, htable _⟩

/-- An accepted command is CONFIGURE, or ENCODE in a configured block (R159). -/
theorem accepted_command {k : BitVec 8} (h : commandVerdict k s = .accepted) :
    k = 0x01#8 ∨ (k = 0x02#8 ∧ s.cfgValid = true) := by
  obtain ⟨h', _⟩ | ⟨h', _⟩ | ⟨e, h', _⟩ | ⟨_, _, _, hk⟩ := commandVerdict_cases k s
  · exact absurd (h.symm.trans h') (by simp)
  · exact absurd (h.symm.trans h') (by simp)
  · exact absurd (h.symm.trans h') (by simp)
  · exact hk.imp id fun ⟨hk, hcfg, _⟩ => ⟨hk, hcfg⟩

theorem Inv.configure (h : Inv s) (hbusy : s.busy = false) (hfatal : s.fatal = false) : Inv (configure s) :=
  .of_idle hbusy (h.sent_of_idle hbusy) h.accClean (fun _ => tablesNonzero_configure s)
    (fun hf => absurd (hfatal.symm.trans hf) (by simp)) h.imgWf h.position

theorem Inv.turnAway (h : Inv s) (k : BitVec 8) : Inv (turnAway (commandVerdict k s) s) := by
  obtain ht | ⟨hbusy, _, e, he, ht⟩ := turnAway_cases k s <;> rw [ht]
  · exact h
  · exact .of_idle hbusy (h.sent_of_idle hbusy) h.accClean h.tables (fun _ => he) h.imgWf h.position

theorem Inv.encodeStart (h : Inv s) (ha : EncodeAccepted s) : Inv (encodeStart s) := by
  obtain ⟨_, hfatal⟩ := accepted_idle ha
  have hcfg : s.cfgValid = true := by
    obtain hk | ⟨_, hcfg⟩ := accepted_command ha
    · exact absurd hk (by decide)
    · exact hcfg
  exact {
    accClean := (encodeStart_packerReady s).2
    nbitsBusy := fun _ => Nat.zero_le 7
    busyReady := fun _ => ⟨hcfg, hfatal, rfl⟩
    tables := h.tables
    fatalErr := fun hf => absurd (hfatal.symm.trans hf) (by simp)
    imgWf := h.imgWf
    position := (by decide : 0 % 8 = 0 ∧ 0 % 8 = 0 ∧ 0 ≤ 65528 ∧ 0 ≤ 65528)
    phaseOk := fun _ => ⟨by simp, rfl⟩
    inFrame := fun _ hb => by cases hb
    compInUse := fun _ => y_mem_comps _
    sentOk := fun hne => absurd rfl hne
    hasImage := fun _ => srcLen_ne_zero_of_accepted (s := s) ha }

theorem Inv.reaches (h : Inv s) (ht : Reaches s t) : Inv t := by
  induction ht with
  | refl => exact h
  | tail _ hstep ih => exact ih.sequencer hstep

/-- An issued instruction: while busy only a command passes. The encode as a whole is steps of the sequencer (R174). -/
theorem Inv.exec (h : Inv s) {i : Instr} (hi : s.busy = true → i = .configure ∨ i = .encode)
    (ht : exec i s = .next t) : Inv t := by
  by_cases hc : i = .configure
  · subst hc
    obtain ⟨ha, rfl⟩ | rfl := execConfigure_cases ht
    · exact h.configure (accepted_idle ha).1 (accepted_idle ha).2
    · exact h.turnAway _
  · by_cases he : i = .encode
    · subst he
      obtain ⟨ha, rfl⟩ | rfl := execEncode_cases ht
      · exact (h.encodeStart ha).reaches (encodeStart_reaches s)
      · exact h.turnAway _
    · have hbusy : s.busy = false := Bool.eq_false_iff.mpr fun hb => (hi hb).elim hc he
      exact (exec_inv hc he h (h.sent_of_idle hbusy) ht).1

theorem Inv.writeReg (h : Inv s) (w : HostWrite) : Inv (writeReg w s) := by
  unfold Machine.writeReg
  split
  · exact h
  · rename_i hb
    have hbusy : s.busy = false := by simpa using hb
    cases w <;>
      exact .of_idle hbusy (h.sent_of_idle hbusy) h.accClean h.tables h.fatalErr h.imgWf h.position

theorem Inv.hostCommand (h : Inv s) (k : BitVec 8) : Inv (hostCommand k s) := by
  have haway := h.turnAway k
  unfold Machine.hostCommand
  cases hv : commandVerdict k s with
  | accepted =>
    obtain ⟨hbusy, hfatal⟩ := accepted_idle hv
    dsimp only
    split
    · exact h.configure hbusy hfatal
    · rename_i hk
      obtain hk' | ⟨rfl, _⟩ := accepted_command hv
      · exact absurd hk' hk
      · exact h.encodeStart hv
  | _ => rw [hv] at haway; exact haway

theorem Inv.hostWrite (h : Inv s) (w : HostWrite) : Inv (hostWrite w s) := by
  cases w with
  | cmd k => exact h.hostCommand k
  | _ => simp only [Machine.hostWrite]; exact h.writeReg _

/-- Settles O3: by what a step serves. -/
theorem everyStepKeepsInvariant : Obligations.EveryStepKeepsInvariant := by
  unfold Obligations.EveryStepKeepsInvariant
  intro s t h ht
  have hafter : ∀ es, Inv (afterInput es s) := fun es => { h with }
  obtain ⟨u, ⟨_, rfl⟩ | ⟨es, _, rfl⟩, hu⟩ | ⟨es, _, hu⟩ | ⟨w, es, _, rfl⟩ | ⟨r, es, _, rfl⟩ |
    ⟨base, data, es, _, hbusy, hfits, rfl⟩ | ⟨n, es, _, rfl⟩ | ⟨w, i, rest, es, _, _, hcommand, hu⟩ := step_cases ht
  · exact h.sequencer hu
  · exact (hafter es).sequencer hu
  · obtain ⟨u, hseq, ⟨_, rfl⟩ | ⟨hleft, rfl⟩⟩ := untilSinkWrite_cases hu
    · exact (hafter es).sequencer hseq
    · exact (hafter es).oneByteOn hseq hleft
  · exact (hafter es).hostWrite w
  · exact { h with }
  · exact { h with imgWf := Memory.place_wf data hfits h.imgWf }
  · exact { resetStateMeetsInvariant with imgWf := h.imgWf, sentOk := fun hne => absurd rfl hne }
  · exact (hafter es).exec hcommand hu

end Sys2Proof.Machine
end
